-- ==== Sys2Proof/Word.lean ====
section
/-! DEFINITION. The two word types of QAMU: the 64-bit register, cell and command word, and the byte of
the host bus (spec/10_state.md R21, spec/20_memory.md R53). -/

namespace Sys2Proof

/-- A register, a code-buffer cell, a command word or a binary64 encoding: 64 bits (R21, R34, R70). -/
abbrev Word := BitVec 64

/-- One byte of a host access or of the code buffer (R53). -/
abbrev Byte := BitVec 8

end Sys2Proof
end

