-- ==== Sys2Proof/Syntax.lean ====
section
/-! DEFINITION. The commands of QAMU, one constructor for each row of spec/opcode_table.json
(spec/30_encoding.md R70 to R75). -/

namespace Sys2Proof

/-- A decoded command. Operands are unsigned integers, as R71 and R74 read them; `WellFormed` bounds them
by the widths of their fields. -/
inductive Instr where
  /-- CFG (R71, R90): `order` is log2(N) requested, `fmt` the code format requested. -/
  | cfg (order fmt : Nat)
  /-- BITS (R72, R93). -/
  | bits
  /-- HARD (R73, R122): cell index of code 0 and distance in cells between codes. -/
  | hard (base stride : Nat)
  /-- SOFT (R73, R126). -/
  | soft (base stride : Nat)
  /-- MAP (R73, R142). -/
  | map (base stride : Nat)
deriving DecidableEq, Repr

end Sys2Proof
end

