-- ==== Sys2Proof/WellFormed.lean ====
section
/-! DEFINITION. The well-formed commands: those whose operands fit their fields (spec/30_encoding.md R71,
R73, R74). A value that fits and is not legal (ORDER = 5, FMT = 3, STRIDE = 0) is well formed: it decodes, and
the command's own rule raises its fault (R76). -/

namespace Sys2Proof

/-- Every operand fits its field. -/
def WellFormed : Instr → Bool
  | .cfg order fmt => decide (order < 2 ^ 4) && decide (fmt < 2 ^ 2)
  | .bits => true
  | .hard base stride => decide (base < 2 ^ 12) && decide (stride < 2 ^ 12)
  | .soft base stride => decide (base < 2 ^ 12) && decide (stride < 2 ^ 12)
  | .map base stride => decide (base < 2 ^ 12) && decide (stride < 2 ^ 12)

end Sys2Proof
end

