-- ==== Sys2Proof/Decode.lean ====
section
/-! DEFINITION. Byte order (spec/20_memory.md R53), the decoder of R70, total on every word and on any bytes,
and the encoder written from the same formats (R71 to R75). -/

namespace Sys2Proof

/-! ### Byte order -/

/-- The number whose little-endian bytes these are: byte b is bits `[8*b+7 : 8*b]` (R53). -/
def leNat : List Byte → Nat
  | [] => 0
  | b :: bs => b.toNat + 256 * leNat bs

/-- The 64-bit word at eight bytes (R53). -/
def wordOfBytes (bs : List Byte) : Word := BitVec.ofNat 64 (leNat bs)

/-- The `n` low bytes of a number, least significant first (R53). -/
def leBytes : Nat → Nat → List Byte
  | 0, _ => []
  | n + 1, v => BitVec.ofNat 8 v :: leBytes n (v / 256)

/-- The eight bytes of a 64-bit word (R53). -/
def bytesOfWord (w : Word) : List Byte := leBytes 8 w.toNat

/-! ### Decoder -/

/-- Why a value is no command. The first two raise ILLEGAL_CMD (R76); the third is a width that no CMD write
has (R54, R77), so `step` meets it never. -/
inductive DecodeError where
  /-- OP is 0x0 or 0x6 .. 0xF. -/
  | illegalOp
  /-- A reserved bit of the format is 1. -/
  | reservedBit
  /-- The bytes are not eight. -/
  | badLength
deriving DecidableEq, Repr

/-- The field `v[hi:lo]` of R11, as an unsigned integer. -/
def field (v : Word) (hi lo : Nat) : Nat := (v.extractLsb' lo (hi + 1 - lo)).toNat

/-- R70: one command word to one command, or the reason it is none. -/
def decodeWord (v : Word) : Except DecodeError Instr :=
  if field v 3 0 = 0x1 then
    if field v 63 10 ≠ 0 then .error .reservedBit else .ok (.cfg (field v 7 4) (field v 9 8))
  else if field v 3 0 = 0x2 then
    if field v 63 4 ≠ 0 then .error .reservedBit else .ok .bits
  else if field v 3 0 = 0x3 then
    if field v 63 28 ≠ 0 then .error .reservedBit else .ok (.hard (field v 15 4) (field v 27 16))
  else if field v 3 0 = 0x4 then
    if field v 63 28 ≠ 0 then .error .reservedBit else .ok (.soft (field v 15 4) (field v 27 16))
  else if field v 3 0 = 0x5 then
    if field v 63 28 ≠ 0 then .error .reservedBit else .ok (.map (field v 15 4) (field v 27 16))
  else .error .illegalOp

/-- A command is exactly one 64-bit word (R77): the decoder on any bytes. -/
def decodeBytes (bs : List Byte) : Except DecodeError Instr :=
  if bs.length = 8 then decodeWord (wordOfBytes bs) else .error .badLength

/-! ### Encoder -/

/-- Format C (R71). -/
def encodeC (order fmt : Nat) : Word :=
  0#54 ++ BitVec.ofNat 2 fmt ++ BitVec.ofNat 4 order ++ 0x1#4

/-- Format N (R72). -/
def encodeN : Word := 0#60 ++ 0x2#4

/-- Format D (R73) with its OP. -/
def encodeD (op : BitVec 4) (base stride : Nat) : Word :=
  0#36 ++ BitVec.ofNat 12 stride ++ BitVec.ofNat 12 base ++ op

/-- The command word of a command (R71 to R75). -/
def encode : Instr → Word
  | .cfg order fmt => encodeC order fmt
  | .bits => encodeN
  | .hard base stride => encodeD 0x3#4 base stride
  | .soft base stride => encodeD 0x4#4 base stride
  | .map base stride => encodeD 0x5#4 base stride

/-- The command the decoder reads from a table word of `nbits` bits, its upper bits 0: laid out as the eight
little-endian bytes of a CMD write. -/
def decodeTableWord (nbits w : Nat) : Option Instr :=
  if w % 2 ^ nbits < 2 ^ 64 then (decodeBytes (leBytes 8 (w % 2 ^ nbits))).toOption else none

end Sys2Proof
end

