-- ==== Sys2Proof/Config.lean ====
section
/-! DEFINITION. What an implementation fixes (the parameters of spec/00_scope.md R8 and QAMU_BASE of
spec/20_memory.md R50), as plain data that `State` carries and no step writes, and the FREE VALUES the
spec leaves open, as constants with no body. -/

namespace Sys2Proof

/-- QUANT_TIE (R8, D4): how a value exactly halfway between two integers is rounded. -/
inductive TieRule where
  | even
  | away
deriving DecidableEq, Repr

/-- I32_OVERFLOW (R8, R106, D5): what SOFT does with an I32 code that does not fit in 32 bits. -/
inductive OverflowRule where
  | saturate
  | fault
  | any
deriving DecidableEq, Repr

/-- AMP_TABLE (R8, R100): the binary64 FAC of each order. RCP, AMP and DIST follow from it by R101. A substituted
table must keep R110, which `Machine.wfConfig` (Safety.lean) asks. -/
structure FacTable where
  fac16   : Word
  fac64   : Word
  fac256  : Word
  fac1024 : Word
deriving DecidableEq, Repr

/-- The parameters of the unit. They are fixed for one machine; every statement about all states is a
statement about all their values. -/
structure Config where
  /-- QAMU_BASE (R50): the byte address at which the window starts. -/
  base     : Nat
  /-- CODEMEM_CELLS (R8, R34): number of 64-bit cells in the code buffer. -/
  cells    : Nat
  /-- QUANT_TIE (R8). -/
  tie      : TieRule
  /-- I32_OVERFLOW (R8). -/
  overflow : OverflowRule
  /-- AMP_TABLE (R8). -/
  facTable : FacTable
deriving DecidableEq, Repr

namespace Config

/-- The FAC column of R100. -/
def defaultFacTable : FacTable :=
  { fac16 := 0x3FF0DD90273C3CE1, fac64 := 0x3FEDA05179501506,
    fac256 := 0x3FEBD0B51D706D23, fac1024 := 0x3FEAF52235C448EB }

/-- The defaults of R8. DESIGN CHOICE (log 2): QAMU_BASE has no default (it is OPEN, the platform's); the
reset state takes 0, a multiple of 0x10000. -/
def defaults : Config :=
  { base := 0, cells := 4096, tie := .even, overflow := .saturate, facTable := defaultFacTable }

/-- FREE VALUE (log 3; R39, R180, D21, parameter CODEMEM_RESET): the 64 bits that cell `cell` holds after
reset number `epoch`. No body: nothing is known of it. -/
opaque codememReset (epoch cell : Nat) : Word

/-- FREE VALUE (log 4; R106, D5): draw number `n` of the 32-bit code that I32_OVERFLOW = ANY leaves free. -/
opaque freeI32 (n : Nat) : BitVec 32

/-- The binary64 operations whose result can be a NaN. -/
inductive FpOp where
  | sub
  | mul
  | div
  | rint
deriving DecidableEq, Repr

/-- FREE VALUE (log 5; R13): the sign and payload of the NaN an operation delivers. The spec does not state
it, and no command reaches it while the amplitude registers are finite. -/
opaque freeNaN (op : FpOp) (a b : Word) : Word

/-- FREE VALUE (log 5; R13): the clamp of R106 is stated for no NaN, and `toInt` only for a finite integral value. -/
opaque freeInt (r : Word) : Int

end Config

end Sys2Proof
end

