-- ==== Sys2Proof/Machine/State.lean ====
section
/-! DEFINITION. The state of QAMU as plain data (spec/10_state.md R20 to R40), the reasons a step can stop, and
the state right after reset. -/

namespace Sys2Proof.Machine

/-- The four constellation orders (R2). -/
inductive QamOrder where
  | qam16
  | qam64
  | qam256
  | qam1024
deriving DecidableEq, Repr

/-- The three code formats (R10). -/
inductive CodeFormat where
  | f64
  | i8sat
  | i32
deriving DecidableEq, Repr

/-- What the CFG register holds when QAMU is configured (R22, R23): CFG never holds another value. -/
structure Setting where
  order : QamOrder
  fmt   : CodeFormat
deriving DecidableEq, Repr

/-- The faults a command records (R150). They stop nothing: the machine goes on (R162). -/
inductive FaultCode where
  | illegalCmd
  | badOrder
  | badFmt
  | notConfigured
  | badStride
  | range
  | nonFinite
  | nonBipolar
  | intOverflow
deriving DecidableEq, Repr

/-- The twelve registers, in the order of their offsets (R20). -/
inductive Reg where
  | cmd
  | status
  | cfg
  | result
  | faultcmd
  | symRe
  | symIm
  | prec
  | fac
  | rcp
  | amp
  | dist
deriving DecidableEq, Repr

/-- What the platform does to QAMU, one per step (R18, R60, R180). Addresses are host byte addresses; the width
of a write is the number of its bytes, the lowest address first. -/
inductive HostEvent where
  | read (addr width : Nat)
  | write (addr : Nat) (data : List Byte)
  | assertReset
  | releaseReset
deriving DecidableEq, Repr

/-- The code buffer: the bytes that a write has reached, by their offset in the window, offsets strictly rising
(`Memory.wf`). A byte that is not listed holds its reset draw (R39; log 3). -/
abbrev Memory := List Host.Cell

/-- The machine. -/
structure State where
  /-- The parameters (R8, R50). No step writes them. -/
  config        : Config
  /-- Register CFG (R22): `none` is ORDER_LOG2 = 0, unconfigured. -/
  cfg           : Option Setting
  /-- STATUS.FAULT (R24). -/
  fault         : Bool
  /-- STATUS.MULTI (R24). -/
  multi         : Bool
  /-- STATUS.BUSERR (R24). -/
  buserr        : Bool
  /-- STATUS.ERRCODE (R24, R150). -/
  errcode       : Byte
  /-- Register RESULT (R27). -/
  result        : Word
  /-- Register FAULTCMD (R28). -/
  faultcmd      : Word
  /-- Register SYM_RE (R29). -/
  symRe         : Word
  /-- Register SYM_IM (R29). -/
  symIm         : Word
  /-- Register PREC (R30). -/
  prec          : Word
  /-- Register FAC (R31). -/
  fac           : Word
  /-- Register RCP (R31). -/
  rcp           : Word
  /-- Register AMP (R31). -/
  amp           : Word
  /-- Register DIST (R31). -/
  dist          : Word
  /-- The code buffer (R34). -/
  mem           : Memory
  /-- The level of the reset input (R180, R181). -/
  resetAsserted : Bool
  /-- The model's own: number of resets so far, which names the draw of the cells (log 3). -/
  epoch         : Nat
  /-- The model's own: number of 32-bit draws used so far (log 4). -/
  draws         : Nat
  /-- The model's own: accesses and reset edges the port has yet to deliver, oldest first (R60, R63; log 1). -/
  port          : List HostEvent
  /-- The model's own: what the last access returned, `none` where QAMU drives no read data (R56; log 1). -/
  reply         : Option Word
deriving DecidableEq, Repr

/-- Why the machine stops. -/
inductive Fault where
  /-- Raised by `step` for a host access while reset is asserted (R181; spec/93_implementation_defined.md row 16:
  "it is not a step of the machine"). Safe: the machine stops where the spec states nothing. -/
  | accessDuringReset
deriving DecidableEq, Repr

/-- Why an instruction has no meaning. -/
inductive Refusal where
  /-- Raised by `exec` in the arm of an instruction not modelled yet. No arm does: every command has its meaning.
  Safe. -/
  | notModelled (mnemonic : String)
deriving DecidableEq, Repr

/-- Right after reset (R39, R180): every register 0, no code cell written, the reset input released and nothing
yet on the port. The parameters are the defaults of R8. -/
def State.reset : State :=
  { config := Config.defaults, cfg := none, fault := false, multi := false, buserr := false, errcode := 0,
    result := 0, faultcmd := 0, symRe := 0, symIm := 0, prec := 0, fac := 0, rcp := 0, amp := 0, dist := 0,
    mem := [], resetAsserted := false, epoch := 0, draws := 0, port := [], reply := none }

end Sys2Proof.Machine
end

