-- ==== Sys2Proof/Machine/Ops.lean ====
section
/-! DEFINITION. The named operations over the code buffer and the registers: bytes and cells
(spec/10_state.md R34, R35), recording a fault (the unit's taking of an exception, spec/60_exceptions.md R160),
clearing the record (its return, R163), and the end of a command (R12, R160). -/

namespace Sys2Proof.Machine

/-! ### Memory: the code buffer by bytes -/

/-- What memory lists for an address nothing has written: nothing. The byte there is the reset draw, which
`State.readByte` supplies (log 3). -/
def Memory.unlisted : Option Byte := none

/-- The canonical form: offsets strictly rising, and no entry equal to what an unlisted address holds. -/
abbrev Memory.wf (m : Memory) : Prop :=
  m.Pairwise (fun x y => x.1 < y.1) ∧ ∀ c ∈ m, some c.2 ≠ Memory.unlisted

/-- The byte written last at an offset, if any. -/
def memLookup : Memory → Nat → Option Byte
  | [], _ => Memory.unlisted
  | (a, b) :: m, off => if a = off then some b else memLookup m off

/-- Write one byte, keeping the canonical form. -/
def memInsert : Memory → Nat → Byte → Memory
  | [], off, v => [(off, v)]
  | (a, b) :: m, off, v =>
    if off < a then (off, v) :: (a, b) :: m
    else if off = a then (off, v) :: m
    else (a, b) :: memInsert m off v

/-- Write bytes at rising offsets. -/
def memInsertAll : Memory → Nat → List Byte → Memory
  | m, _, [] => m
  | m, off, b :: bs => memInsertAll (memInsert m off b) (off + 1) bs

/-- Offset of the code buffer in the window (R34, R51). -/
def codeBase : Nat := 0x1000

/-- Offset of cell i (R34). -/
def cellOffset (i : Nat) : Nat := codeBase + 8 * i

/-- `CODE[i] <- w` (R35), as eight little-endian bytes (R53). -/
def memWriteCell (m : Memory) (i : Nat) (w : Word) : Memory := memInsertAll m (cellOffset i) (bytesOfWord w)

/-- Write cells one after another. -/
def memWriteCells : Memory → List (Nat × Word) → Memory
  | m, [] => m
  | m, (i, w) :: rest => memWriteCells (memWriteCell m i w) rest

/-- The byte that the reset draw of CODEMEM_RESET puts at an offset of the code buffer (R39; log 3). -/
def resetByte (epoch off : Nat) : Byte :=
  (Config.codememReset epoch ((off - codeBase) / 8)).extractLsb' (8 * ((off - codeBase) % 8)) 8

/-- One byte of the code buffer, by its offset in the window. -/
def State.readByte (s : State) (off : Nat) : Byte :=
  match memLookup s.mem off with
  | some b => b
  | none => resetByte s.epoch off

/-- The `n` bytes from an offset. -/
def State.readBytes (s : State) : Nat → Nat → List Byte
  | 0, _ => []
  | n + 1, off => s.readByte off :: s.readBytes n (off + 1)

/-- `CODE[i]` (R35). -/
def State.readCell (s : State) (i : Nat) : Word := wordOfBytes (s.readBytes 8 (cellOffset i))

/-- `CODE[i] <- w` (R35). -/
def State.writeCell (s : State) (i : Nat) (w : Word) : State := { s with mem := memWriteCell s.mem i w }

/-- All the cell writes of one command. -/
def State.writeCells (s : State) (ws : List (Nat × Word)) : State := { s with mem := memWriteCells s.mem ws }

/-! ### Faults -/

/-- The code that ERRCODE records (R150). -/
def FaultCode.code : FaultCode → Byte
  | .illegalCmd => 0x01
  | .badOrder => 0x02
  | .badFmt => 0x03
  | .notConfigured => 0x04
  | .badStride => 0x05
  | .range => 0x06
  | .nonFinite => 0x07
  | .nonBipolar => 0x08
  | .intOverflow => 0x09

/-- R160: record `Fault(c)` raised by the command word `v`. The first fault is kept; a later one sets MULTI. -/
def State.recordFault (s : State) (v : Word) (c : FaultCode) : State :=
  if s.fault then { s with multi := true }
  else { s with fault := true, errcode := c.code, faultcmd := v }

/-- R163: a host write of `v` to STATUS. -/
def State.clearStatus (s : State) (v : Word) : State :=
  { s with
    fault := s.fault && !v.getLsbD 0
    errcode := if v.getLsbD 0 then 0 else s.errcode
    faultcmd := if v.getLsbD 0 then 0 else s.faultcmd
    multi := s.multi && !v.getLsbD 1
    buserr := s.buserr && !v.getLsbD 2 }

/-- R55: a refused access sets BUSERR. -/
def State.setBuserr (s : State) : State := { s with buserr := true }

/-- The end of a command: its effect, or the record of the one fault it raised and nothing else (R12, R160).
The recorded word is the command's own, which is the word that was written to CMD (R28). -/
def complete (i : Instr) (s : State) (r : Except FaultCode State) : Host.Outcome State Fault Refusal :=
  match r with
  | .ok t => .next t
  | .error c => .next (s.recordFault (encode i) c)

/-! ### Registers -/

/-- RESULT <- v (R27). -/
def State.setResult (s : State) (v : Word) : State := { s with result := v }

/-- SYM_RE <- re, SYM_IM <- im (R29). -/
def State.setSymbol (s : State) (re im : Word) : State := { s with symRe := re, symIm := im }

/-- PREC <- v (R30). -/
def State.setPrec (s : State) (v : Word) : State := { s with prec := v }

/-- R180: what asserting reset does to the unit. Registers go to their reset values; every cell goes back to a
draw, a new one (log 3). -/
def State.resetUnit (s : State) : State :=
  { s with
    cfg := none, fault := false, multi := false, buserr := false, errcode := 0, result := 0, faultcmd := 0
    symRe := 0, symIm := 0, prec := 0, fac := 0, rcp := 0, amp := 0, dist := 0
    mem := [], epoch := s.epoch + 1, resetAsserted := true }

end Sys2Proof.Machine
end

