-- ==== Sys2Proof/Machine/Flags.lean ====
section
/-! DEFINITION. The status flags and the configuration register as the host reads them
(spec/10_state.md R22, R24, R25). -/

namespace Sys2Proof.Machine

/-- `BITS = log2(N)` (R2). -/
def QamOrder.bits : QamOrder → Nat
  | .qam16 => 4
  | .qam64 => 6
  | .qam256 => 8
  | .qam1024 => 10

/-- Per-axis depth `k = BITS / 2` (R2). -/
def QamOrder.depth (o : QamOrder) : Nat := o.bits / 2

/-- `sqrt(N) - 1`, the integer 3, 7, 15 or 31 (R101). -/
def QamOrder.rootLessOne (o : QamOrder) : Nat := 2 ^ o.depth - 1

/-- The FMT field of a format (R10, R22). -/
def CodeFormat.code : CodeFormat → Nat
  | .f64 => 0
  | .i8sat => 1
  | .i32 => 2

/-- CFG as a word (R22): ORDER_LOG2 in bits 3:0, FMT in bits 5:4, the rest 0. -/
def cfgWord : Option Setting → Word
  | none => 0
  | some st => 0#58 ++ BitVec.ofNat 2 st.fmt.code ++ BitVec.ofNat 4 st.order.bits

/-- The format that the FMT field of CFG names (R10, R22): F64 while unconfigured, since FMT is 0 then (R39, R40). -/
def cfgFormat : Option Setting → CodeFormat
  | none => .f64
  | some st => st.fmt

/-- STATUS.CONFIGURED (R25), computed from CFG and not stored. -/
def State.configured (s : State) : Bool := s.cfg.isSome

/-- STATUS as a word (R24): reserved bits read 0. -/
def State.status (s : State) : Word :=
  0#48 ++ s.errcode ++ 0#4 ++ BitVec.ofBool s.configured ++ BitVec.ofBool s.buserr ++ BitVec.ofBool s.multi ++
    BitVec.ofBool s.fault

end Sys2Proof.Machine
end

