-- ==== Sys2Proof/Machine/Bus.lean ====
section
/-! DEFINITION. The host bus (spec/20_memory.md R50 to R59): what an access reaches, what a read returns, what a
write does, and which event of the port is the next command. -/

namespace Sys2Proof.Machine

/-! ### The window -/

/-- The host byte address is in the window (R50). -/
def inWindow (s : State) (addr : Nat) : Bool :=
  decide (s.config.base ≤ addr) && decide (addr < s.config.base + 0x10000)

/-- What an offset of the window holds (R51). -/
inductive Target where
  | reg (r : Reg)
  | cell (i : Nat)
deriving DecidableEq, Repr

/-- The offset of a register (R20). -/
def regOffset : Reg → Nat
  | .cmd => 0x000
  | .status => 0x008
  | .cfg => 0x010
  | .result => 0x018
  | .faultcmd => 0x020
  | .symRe => 0x028
  | .symIm => 0x030
  | .prec => 0x038
  | .fac => 0x040
  | .rcp => 0x048
  | .amp => 0x050
  | .dist => 0x058

/-- The register at an offset (R20). -/
def regAt? : Nat → Option Reg
  | 0x000 => some .cmd
  | 0x008 => some .status
  | 0x010 => some .cfg
  | 0x018 => some .result
  | 0x020 => some .faultcmd
  | 0x028 => some .symRe
  | 0x030 => some .symIm
  | 0x038 => some .prec
  | 0x040 => some .fac
  | 0x048 => some .rcp
  | 0x050 => some .amp
  | 0x058 => some .dist
  | _ => none

/-- What an aligned offset reaches, if it is mapped (R51). -/
def targetAt? (cells off : Nat) : Option Target :=
  match regAt? off with
  | some r => some (.reg r)
  | none =>
    if codeBase ≤ off ∧ off < codeBase + 8 * cells then some (.cell ((off - codeBase) / 8)) else none

/-- R54: an access is admitted when it is 8 bytes wide, aligned and mapped. -/
def admitted? (cells off width : Nat) : Option Target :=
  if width = 8 ∧ off % 8 = 0 then targetAt? cells off else none

/-! ### Reads and writes -/

/-- What an admitted read of a register returns (R20, R24, R25, R32, R56). -/
def State.readReg (s : State) : Reg → Word
  | .cmd => 0
  | .status => s.status
  | .cfg => cfgWord s.cfg
  | .result => s.result
  | .faultcmd => s.faultcmd
  | .symRe => s.symRe
  | .symIm => s.symIm
  | .prec => s.prec
  | .fac => s.fac
  | .rcp => s.rcp
  | .amp => s.amp
  | .dist => s.dist

/-- What an admitted read returns (R56). -/
def State.readTarget (s : State) : Target → Word
  | .reg r => s.readReg r
  | .cell i => s.readCell i

/-- QAMU's answer to a read. -/
def State.answer (s : State) (v : Word) : State := { s with reply := some v }

/-- A host read at an offset of the window (R55, R56). -/
def State.busRead (s : State) (off width : Nat) : State :=
  match admitted? s.config.cells off width with
  | some t => s.answer (s.readTarget t)
  | none => (s.answer 0).setBuserr

/-- A host write of `v` to a register other than CMD (R55, R57). CMD is left to `nextCommand`. -/
def State.writeReg (s : State) (v : Word) : Reg → State
  | .cmd => s
  | .status => s.clearStatus v
  | .symRe => s.setSymbol v s.symIm
  | .symIm => s.setSymbol s.symRe v
  | .prec => s.setPrec v
  | .cfg => s.setBuserr
  | .result => s.setBuserr
  | .faultcmd => s.setBuserr
  | .fac => s.setBuserr
  | .rcp => s.setBuserr
  | .amp => s.setBuserr
  | .dist => s.setBuserr

/-- A host write at an offset of the window that is no command (R55, R57). -/
def State.busWrite (s : State) (off : Nat) (data : List Byte) : State :=
  match admitted? s.config.cells off data.length with
  | some (.reg r) => s.writeReg (wordOfBytes data) r
  | some (.cell i) => s.writeCell i (wordOfBytes data)
  | none => s.setBuserr

/-! ### The port -/

/-- The port has delivered its oldest event: it is taken off, and no answer stands yet. -/
def State.takeEvent (s : State) (rest : List HostEvent) : State := { s with port := rest, reply := none }

/-- What one event means to the unit: a command, or an outcome that needs no command. -/
inductive Delivery where
  | command (data : List Byte) (s : State)
  | done (o : Host.Outcome State Fault Refusal)

/-- One event, on the state from which it has been taken. An access outside the window is not QAMU's: nothing
changes and QAMU drives no read data (R50; log 6). An access during reset stops the machine (R181; log 7). -/
def deliver (s : State) : HostEvent → Delivery
  | .assertReset => .done (.next s.resetUnit)
  | .releaseReset => .done (.next { s with resetAsserted := false })
  | .read addr width =>
    if s.resetAsserted then .done (.fault .accessDuringReset)
    else if inWindow s addr then .done (.next (s.busRead (addr - s.config.base) width))
    else .done (.next s)
  | .write addr data =>
    if s.resetAsserted then .done (.fault .accessDuringReset)
    else if inWindow s addr then
      if admitted? s.config.cells (addr - s.config.base) data.length = some (.reg .cmd) then .command data s
      else .done (.next (s.busWrite (addr - s.config.base) data))
    else .done (.next s)

/-- The next thing the unit does: nothing while the port is empty (R4; log 1). -/
def nextDelivery (s : State) : Delivery :=
  match s.port with
  | [] => .done (.next s)
  | e :: rest => deliver (s.takeEvent rest) e

/-- A value written to CMD that is no command raises ILLEGAL_CMD (R70, R76). -/
def execIllegal (data : List Byte) (s : State) : Host.Outcome State Fault Refusal :=
  .next (s.recordFault (wordOfBytes data) .illegalCmd)

/-- The host event that writes a table word of `nbits` bits to CMD. -/
def commandEvent (s : State) (nbits w : Nat) : HostEvent := .write s.config.base (leBytes 8 (w % 2 ^ nbits))

end Sys2Proof.Machine
end

