-- ==== Sys2Proof/Machine/Binary64.lean ====
section
/-! DEFINITION. The binary64 primitives of spec/00_scope.md R13 on 64-bit encodings: IEEE 754, round to
nearest, ties to even, subnormals kept (R9). Each operation computes the exact result as an integer times a
power of two and narrows it once, in `pack`. -/

namespace Sys2Proof.Machine

/-- Sign bit of an encoding. -/
def fpSign (w : Word) : Bool := w.msb

/-- Biased exponent field, bits 62..52. -/
def fpExpField (w : Word) : Nat := (w.extractLsb' 52 11).toNat

/-- Fraction field, bits 51..0. -/
def fpFrac (w : Word) : Nat := (w.extractLsb' 0 52).toNat

/-- The encoding without its sign bit, as a number: it orders the magnitudes. -/
def fpMag (w : Word) : Nat := (w.extractLsb' 0 63).toNat

/-- `isfinite` of R13. -/
def isFinite (w : Word) : Bool := fpExpField w != 2047

def isNaN (w : Word) : Bool := fpExpField w == 2047 && fpFrac w != 0

def isInf (w : Word) : Bool := fpExpField w == 2047 && fpFrac w == 0

/-- Both zeros. -/
def isZero (w : Word) : Bool := fpMag w == 0

/-- Significand of a finite value: its magnitude is `fpSig w * 2 ^ (fpExp w - 1075)`. -/
def fpSig (w : Word) : Nat := if fpExpField w = 0 then fpFrac w else fpFrac w + 2 ^ 52

/-- Exponent of `fpSig`, biased by 1075 (a subnormal has the exponent of the least normal). -/
def fpExp (w : Word) : Nat := max (fpExpField w) 1

/-- An encoding from a sign and a magnitude (as `fpMag` reads it). -/
def ofSignMag (neg : Bool) (mag : Nat) : Word :=
  BitVec.ofNat 64 ((if neg then 2 ^ 63 else 0) + mag)

/-- The infinity of a sign. -/
def fpInf (neg : Bool) : Word := ofSignMag neg (2047 * 2 ^ 52)

/-- The zero of a sign. -/
def fpZero (neg : Bool) : Word := ofSignMag neg 0

/-- A quiet NaN whose sign and payload are the free bits (log 5). -/
def quietNaN (free : Word) : Word := (free &&& 0x8007FFFFFFFFFFFF) ||| 0x7FF8000000000000

/-- `n / 2 ^ k` rounded to the nearest integer by a tie rule (on magnitudes, so `away` is up). -/
def roundShift (tie : TieRule) (n k : Nat) : Nat :=
  if 2 * (n % 2 ^ k) < 2 ^ k then n / 2 ^ k
  else if 2 ^ k < 2 * (n % 2 ^ k) then n / 2 ^ k + 1
  else match tie with
    | .even => n / 2 ^ k + n / 2 ^ k % 2
    | .away => n / 2 ^ k + 1

/-- Exponent of the last place of the binary64 nearest to `n * 2 ^ e`, `n` not 0. -/
def ulpExp (n : Nat) (e : Int) : Int := max ((n.log2 : Int) + e - 52) (-1074)

/-- Magnitude of the binary64 nearest to `n * 2 ^ e` (ties to even), before the check for overflow. A carry
out of the significand moves into the exponent field by itself. -/
def packMag (n : Nat) (e : Int) : Nat :=
  (ulpExp n e + 1074).toNat * 2 ^ 52 +
    (if ulpExp n e ≤ e then n * 2 ^ (e - ulpExp n e).toNat
     else roundShift .even n (ulpExp n e - e).toNat)

/-- The binary64 nearest to `± n * 2 ^ e` (R9): a zero keeps the sign, an overflow is the infinity. -/
def pack (neg : Bool) (n : Nat) (e : Int) : Word :=
  if n = 0 then fpZero neg else ofSignMag neg (min (packMag n e) (2047 * 2 ^ 52))

/-- `f64(n)` of R13. -/
def f64 (n : Int) : Word := pack (decide (n < 0)) n.natAbs 0

/-- `fabs` of R13: clears the sign bit. -/
def fabs (a : Word) : Word := a &&& 0x7FFFFFFFFFFFFFFF

/-- Sign flipped: `fsub` is the sum with it. -/
def fneg (a : Word) : Word := a ^^^ 0x8000000000000000

/-- The place of a non-NaN value in the order of the numbers; the two zeros share one place. -/
def fpKey (w : Word) : Int := if fpSign w then -(fpMag w : Int) else (fpMag w : Int)

/-- `flt` of R13: false when either operand is NaN; the two zeros are equal. -/
def flt (a b : Word) : Bool := !isNaN a && !isNaN b && decide (fpKey a < fpKey b)

/-- A finite value as an integer multiple of `2 ^ (e - 1075)`, for `e` at most its own exponent. -/
def fpScaled (w : Word) (e : Nat) : Int :=
  (if fpSign w then -1 else 1) * ((fpSig w * 2 ^ (fpExp w - e) : Nat) : Int)

/-- Difference of two finite values. An exact zero is -0 only for (-0) - (+0). -/
def fsubFinite (a b : Word) : Word :=
  let e := min (fpExp a) (fpExp b)
  let d := fpScaled a e - fpScaled b e
  if d = 0 then fpZero (fpSign a && !fpSign b)
  else pack (decide (d < 0)) d.natAbs ((e : Int) - 1075)

/-- `fsub` of R13. -/
def fsub (a b : Word) : Word :=
  if isNaN a || isNaN b then quietNaN (Config.freeNaN .sub a b)
  else if isInf a then
    if isInf b && fpSign a == fpSign b then quietNaN (Config.freeNaN .sub a b) else a
  else if isInf b then fneg b
  else fsubFinite a b

/-- `fmul` of R13. -/
def fmul (a b : Word) : Word :=
  let neg := fpSign a != fpSign b
  if isNaN a || isNaN b then quietNaN (Config.freeNaN .mul a b)
  else if isInf a || isInf b then
    if isZero a || isZero b then quietNaN (Config.freeNaN .mul a b) else fpInf neg
  else pack neg (fpSig a * fpSig b) ((fpExp a : Int) + (fpExp b : Int) - 2150)

/-- Quotient of two nonzero finite values: 128 more bits than the dividend has, and a last bit that is 1
when the division leaves a remainder, so that `pack` rounds the exact quotient. -/
def fdivFinite (neg : Bool) (a b : Word) : Word :=
  let n := fpSig a * 2 ^ 128
  pack neg (2 * (n / fpSig b) + (if n % fpSig b = 0 then 0 else 1))
    ((fpExp a : Int) - (fpExp b : Int) - 129)

/-- `fdiv` of R13. -/
def fdiv (a b : Word) : Word :=
  let neg := fpSign a != fpSign b
  if isNaN a || isNaN b || (isInf a && isInf b) || (isZero a && isZero b) then
    quietNaN (Config.freeNaN .div a b)
  else if isInf a || isZero b then fpInf neg
  else if isZero a || isInf b then fpZero neg
  else fdivFinite neg a b

/-- `rint` of R13 under a tie rule: an integral value, an infinity and the sign of a zero are kept. -/
def rint (tie : TieRule) (a : Word) : Word :=
  if isNaN a then quietNaN (Config.freeNaN .rint a a)
  else if 1075 ≤ fpExp a then a
  else pack (fpSign a) (roundShift tie (fpSig a) (1075 - fpExp a)) 0

/-- A finite value that is an integer. -/
def isIntegral (a : Word) : Bool :=
  isFinite a && fpSig a * 2 ^ (fpExp a - 1075) % 2 ^ (1075 - fpExp a) == 0

/-- `toInt` of R13 on an integral finite value; a free value otherwise (log 5). -/
def toInt (a : Word) : Int :=
  if isIntegral a then
    (if fpSign a then -1 else 1) *
      ((fpSig a * 2 ^ (fpExp a - 1075) / 2 ^ (1075 - fpExp a) : Nat) : Int)
  else Config.freeInt a

end Sys2Proof.Machine
end

