-- ==== Sys2Proof/Machine/Operands.lean ====
section
/-! DEFINITION. The operand forms: the order and format operands of CFG (spec/40_config.md R90), the checks every
data command makes (spec/42_slicer.md R120), code slots (spec/00_scope.md R15), and the coding of a code value in
a cell (spec/10_state.md R36, R37). -/

namespace Sys2Proof.Machine

/-! ### Operands of CFG -/

/-- The legal ORDER operands (R91). -/
def orderOf? : Nat → Option QamOrder
  | 4 => some .qam16
  | 6 => some .qam64
  | 8 => some .qam256
  | 10 => some .qam1024
  | _ => none

/-- The legal FMT operands (R10, R90). -/
def formatOf? : Nat → Option CodeFormat
  | 0 => some .f64
  | 1 => some .i8sat
  | 2 => some .i32
  | _ => none

/-! ### Operands of the data commands -/

/-- The code slot of code index c (R15). -/
def codeSlot (base stride c : Nat) : Nat := base + c * stride

/-- `check_data` of R120: the setting under which the command runs, or the first check that fails. -/
def checkData (base stride : Nat) (s : State) : Except FaultCode Setting :=
  match s.cfg with
  | none => .error .notConfigured
  | some st =>
    if stride = 0 then .error .badStride
    else if s.config.cells ≤ base + (st.order.bits - 1) * stride then .error .range
    else .ok st

/-- The words that the code slots hold, in code-index order (R14, R15). -/
def readSlots (s : State) (base stride n : Nat) : List Word :=
  (List.range n).map fun c => s.readCell (codeSlot base stride c)

/-- The cell writes that put words in the code slots, in code-index order (R14, R15). -/
def slotWrites (base stride : Nat) : Nat → List Word → List (Nat × Word)
  | _, [] => []
  | c, w :: ws => (codeSlot base stride c, w) :: slotWrites base stride (c + 1) ws

/-! ### Axes -/

/-- The codes of one axis pair up with those of the other: real at even code indices, imaginary at odd (R14). -/
def interleave {α : Type} : List α → List α → List α
  | re :: res, im :: ims => re :: im :: interleave res ims
  | _, _ => []

/-- The codes of the real axis: code indices 0, 2, 4, … (R14). -/
def realCodes {α : Type} : List α → List α
  | [] => []
  | [a] => [a]
  | a :: _ :: rest => a :: realCodes rest

/-- The codes of the imaginary axis: code indices 1, 3, 5, … (R14). -/
def imagCodes {α : Type} : List α → List α
  | [] => []
  | [_] => []
  | _ :: b :: rest => b :: imagCodes rest

/-! ### Codes in cells -/

/-- A code value: binary64, or an integer of one of the integer formats (R10). -/
inductive CodeValue where
  | real (w : Word)
  | int (z : Int)
deriving DecidableEq, Repr

/-- An integer is a code of the format (R36). Every integer is one of F64, as its nearest binary64 (log 14). -/
def integerFits : CodeFormat → Int → Bool
  | .f64, _ => true
  | .i8sat, z => decide (-128 ≤ z) && decide (z ≤ 127)
  | .i32, z => decide (-2 ^ 31 ≤ z) && decide (z ≤ 2 ^ 31 - 1)

/-- R36 gives the value a code in the format: any binary64 in F64, an integer in range in the others. -/
def isCodeOf : CodeFormat → CodeValue → Bool
  | .f64, _ => true
  | fmt, .int z => integerFits fmt z
  | fmt, .real w => isIntegral w && integerFits fmt (toInt w)

/-- `encodeCode` of R36. An integer value in format F64 is the binary64 of that integer (the hard codes ±1).
DESIGN CHOICE (log 14): R36 gives an integer format no code for a binary64; one that is an integer is coded as that
integer, and one that is not has the free value of `toInt` (log 5), which no command and no line of R79 asks for. -/
def encodeCode : CodeFormat → CodeValue → Word
  | .f64, .real w => w
  | .f64, .int z => f64 z
  | .i8sat, .int z => (BitVec.ofInt 8 z).signExtend 64
  | .i8sat, .real w => (BitVec.ofInt 8 (toInt w)).signExtend 64
  | .i32, .int z => (BitVec.ofInt 32 z).signExtend 64
  | .i32, .real w => (BitVec.ofInt 32 (toInt w)).signExtend 64

/-- `decodeCode` of R37: the bits above an integer format's width are ignored. -/
def decodeCode : CodeFormat → Word → CodeValue
  | .f64, w => .real w
  | .i8sat, w => .int (w.extractLsb' 0 8).toInt
  | .i32, w => .int (w.extractLsb' 0 32).toInt

/-- The bipolar code a value is, if it is exactly -1 or +1 (R140). -/
def CodeValue.bipolar? : CodeValue → Option Int
  | .real w => if w = 0x3FF0000000000000 then some 1 else if w = 0xBFF0000000000000 then some (-1) else none
  | .int z => if z = 1 then some 1 else if z = -1 then some (-1) else none

/-- All codes of a list of cell words, if every one is bipolar (R140). -/
def bipolarCodes? (fmt : CodeFormat) : List Word → Option (List Int)
  | [] => some []
  | w :: ws =>
    match (decodeCode fmt w).bipolar?, bipolarCodes? fmt ws with
    | some b, some bs => some (b :: bs)
    | _, _ => none

end Sys2Proof.Machine
end

