-- ==== Sys2Proof/Machine/Amplitude.lean ====
section
/-! DEFINITION. The amplitude normalization and scaling unit (spec/41_amplitude.md): the table of R100 and R101,
the thresholds of R102 and R103, and `quantize` of R104 to R107. -/

namespace Sys2Proof.Machine

/-! ### The table -/

/-- FAC of an order: the parameter AMP_TABLE (R8, R100). -/
def facOf (t : FacTable) : QamOrder → Word
  | .qam16 => t.fac16
  | .qam64 => t.fac64
  | .qam256 => t.fac256
  | .qam1024 => t.fac1024

/-- `RCP_N = fmul(f64(sqrt(N) - 1), FAC_N)` (R101). -/
def rcpOf (t : FacTable) (o : QamOrder) : Word := fmul (f64 o.rootLessOne) (facOf t o)

/-- `AMP_N = fdiv(1.0, RCP_N)` (R101). -/
def ampOf (t : FacTable) (o : QamOrder) : Word := fdiv (f64 1) (rcpOf t o)

/-- `DIST_N = fmul(2.0, AMP_N)` (R101). -/
def distOf (t : FacTable) (o : QamOrder) : Word := fmul (f64 2) (ampOf t o)

/-- What a successful CFG writes (R90): CFG and the row of its order. -/
def State.loadSetting (s : State) (st : Setting) : State :=
  { s with
    cfg := some st
    fac := facOf s.config.facTable st.order
    rcp := rcpOf s.config.facTable st.order
    amp := ampOf s.config.facTable st.order
    dist := distOf s.config.facTable st.order }

/-! ### Thresholds -/

/-- `amp(i) = fmul(AMP, f64(i))` (R102), with the value of register AMP. -/
def threshold (amp : Word) (i : Nat) : Word := fmul amp (f64 i)

/-- The step sizes of levels 1 .. k-1 at depth k: 2^(k-1), halved at each level down to 2 (R103). -/
def stepSizes : Nat → List Nat
  | 0 => []
  | 1 => []
  | k + 2 => 2 ^ (k + 1) :: stepSizes (k + 1)

/-! ### Quantize -/

/-- What `quantize` gives: a binary64, an integer, or the rounded value of an I32 overflow (R104, R106). -/
inductive Quantized where
  | real (y : Word)
  | int (z : Int)
  | overflow (r : Word)
deriving DecidableEq, Repr

/-- The clamp of I8SAT on the rounded value (R104, R107). -/
def clampI8 (r : Word) : Word :=
  if flt r (f64 (-128)) then f64 (-128) else if flt (f64 127) r then f64 127 else r

/-- The rounded value does not fit in 32 bits (R104). -/
def overflowsI32 (r : Word) : Bool := !isFinite r || decide (toInt r < -2 ^ 31) || decide (2 ^ 31 - 1 < toInt r)

/-- `quantize(prec, val)` of R104, with the value of register DIST. -/
def quantize (tie : TieRule) (fmt : CodeFormat) (dist prec val : Word) : Quantized :=
  let y := fmul val (fmul dist prec)
  match fmt with
  | .f64 => .real y
  | .i8sat => .int (toInt (clampI8 (rint tie y)))
  | .i32 => if overflowsI32 (rint tie y) then .overflow (rint tie y) else .int (toInt (rint tie y))

/-- SATURATE (R106): an overflowing value goes to the nearer end of the range. A NaN has no nearer end: free
value (log 5). -/
def saturateI32 (r : Word) : Int :=
  if isNaN r then Config.freeInt r else if fpSign r then -2 ^ 31 else 2 ^ 31 - 1

/-- The code that is stored, under I32_OVERFLOW (R106). ANY takes draw number `n` (log 4); under FAULT the
command has raised INT_OVERFLOW before it asks. -/
def resolveCode (rule : OverflowRule) (n : Nat) : Quantized → CodeValue
  | .real y => .real y
  | .int z => .int z
  | .overflow r =>
    match rule with
    | .saturate => .int (saturateI32 r)
    | .fault => .int (saturateI32 r)
    | .any => .int (Config.freeI32 n).toInt

/-- Did this code overflow (R106)? -/
def Quantized.isOverflow : Quantized → Bool
  | .overflow _ => true
  | _ => false

end Sys2Proof.Machine
end

