-- ==== Sys2Proof/Machine/Configuration.lean ====
section
/-! DEFINITION. The meanings of CFG and BITS (spec/40_config.md R90 to R94). -/

namespace Sys2Proof.Machine

/-- Effect of CFG, or its fault: BAD_ORDER before BAD_FMT (R90). -/
def cfgEffect (order fmt : Nat) (s : State) : Except FaultCode State :=
  match orderOf? order with
  | none => .error .badOrder
  | some o =>
    match formatOf? fmt with
    | none => .error .badFmt
    | some f => .ok (s.loadSetting { order := o, fmt := f })

/-- CFG (R90 to R92). -/
def execCfg (order fmt : Nat) (s : State) : Host.Outcome State Fault Refusal :=
  complete (.cfg order fmt) s (cfgEffect order fmt s)

/-- Effect of BITS, or its fault (R93). -/
def bitsEffect (s : State) : Except FaultCode State :=
  match s.cfg with
  | none => .error .notConfigured
  | some st => .ok (s.setResult (BitVec.ofNat 64 st.order.bits))

/-- BITS (R93). -/
def execBits (s : State) : Host.Outcome State Fault Refusal :=
  complete .bits s (bitsEffect s)

end Sys2Proof.Machine
end

