-- ==== Sys2Proof/Machine/Mapper.lean ====
section
/-! DEFINITION. The symbol mapper: the composition of one axis (spec/43_mapper.md R141) and the meaning of MAP
(R142). -/

namespace Sys2Proof.Machine

/-- `compose_axis` of R141, on the codes `a[0] .. a[k-1]`: at level j the term added is `2 ^ (k-1-j)`, and
`k-1-j` is the number of codes after it. -/
def composeAxis : List Int → Int
  | [] => 0
  | [a] => a
  | a :: b :: rest => a * (composeAxis (b :: rest) + 2 ^ (rest.length + 1))

/-- One axis level: `fmul(AMP, f64(m))` (R142), with the value of register AMP. -/
def axisLevel (amp : Word) (codes : List Int) : Word := fmul amp (f64 (composeAxis codes))

/-- Effect of MAP, or its fault, in the order of R142. -/
def mapEffect (base stride : Nat) (s : State) : Except FaultCode State :=
  match checkData base stride s with
  | .error c => .error c
  | .ok st =>
    match bipolarCodes? st.fmt (readSlots s base stride st.order.bits) with
    | none => .error .nonBipolar
    | some b => .ok (s.setSymbol (axisLevel s.amp (realCodes b)) (axisLevel s.amp (imagCodes b)))

/-- MAP (R142 to R147). -/
def execMap (base stride : Nat) (s : State) : Host.Outcome State Fault Refusal :=
  complete (.map base stride) s (mapEffect base stride s)

end Sys2Proof.Machine
end

