-- ==== Sys2Proof/Machine/Slicer.lean ====
section
/-! DEFINITION. The hierarchical slicer: the fold of one axis (spec/42_slicer.md R121) and the meanings of HARD
(R122) and SOFT (R126). -/

namespace Sys2Proof.Machine

/-! ### The fold -/

/-- One level of the fold: `lt[j]` and `dist[j]` (R121). -/
structure Level where
  lt   : Bool
  dist : Word
deriving DecidableEq, Repr

/-- Levels 1 .. k-1, from the folded residual `r` and the thresholds in level order (R121). -/
def foldLevels : Word → List Word → List Level
  | _, [] => []
  | r, a :: as => { lt := flt r a, dist := fsub r a } :: foldLevels (fabs (fsub r a)) as

/-- The thresholds of levels 1 .. k-1 (R103), with the value of register AMP. -/
def thresholds (amp : Word) (k : Nat) : List Word := (stepSizes k).map (threshold amp)

/-- `fold(x)` at depth k (R121). -/
def fold (amp : Word) (k : Nat) (x : Word) : List Level :=
  { lt := flt x (fpZero false), dist := x } :: foldLevels (fabs x) (thresholds amp k)

/-- The levels of both axes in code-index order (R14, R121). -/
def foldSymbol (amp : Word) (k : Nat) (re im : Word) : List Level :=
  interleave (fold amp k re) (fold amp k im)

/-! ### HARD -/

/-- The hard code of a level (R122). -/
def hardCode (l : Level) : Int := if l.lt then -1 else 1

/-- The cell words HARD writes, in code-index order (R122). -/
def hardWords (st : Setting) (s : State) : List Word :=
  (foldSymbol s.amp st.order.depth s.symRe s.symIm).map fun l => encodeCode st.fmt (.int (hardCode l))

/-- Effect of HARD, or its fault, in the order of R122. -/
def hardEffect (base stride : Nat) (s : State) : Except FaultCode State :=
  match checkData base stride s with
  | .error c => .error c
  | .ok st =>
    if isFinite s.symRe && isFinite s.symIm then
      .ok (s.writeCells (slotWrites base stride 0 (hardWords st s)))
    else .error .nonFinite

/-- HARD (R122, R123). -/
def execHard (base stride : Nat) (s : State) : Host.Outcome State Fault Refusal :=
  complete (.hard base stride) s (hardEffect base stride s)

/-! ### SOFT -/

/-- The quantized distances, in code-index order (R126). -/
def softQuantized (st : Setting) (s : State) : List Quantized :=
  (foldSymbol s.amp st.order.depth s.symRe s.symIm).map fun l =>
    quantize s.config.tie st.fmt s.dist s.prec l.dist

/-- The codes to store; an overflowing code of index c takes the draw `n + c` under ANY (R106; log 4). -/
def resolveCodes (rule : OverflowRule) : Nat → List Quantized → List CodeValue
  | _, [] => []
  | n, q :: qs => resolveCode rule n q :: resolveCodes rule (n + 1) qs

/-- The cell words SOFT writes, in code-index order (R126). -/
def softWords (st : Setting) (s : State) : List Word :=
  (resolveCodes s.config.overflow s.draws (softQuantized st s)).map (encodeCode st.fmt)

/-- Effect of SOFT, or its fault, in the order of R126. Every code is computed before a cell is written. The
draws of a completed SOFT are not used again (log 4). -/
def softEffect (base stride : Nat) (s : State) : Except FaultCode State :=
  match checkData base stride s with
  | .error c => .error c
  | .ok st =>
    if isFinite s.symRe && isFinite s.symIm && isFinite s.prec then
      if s.config.overflow = .fault ∧ (softQuantized st s).any Quantized.isOverflow then .error .intOverflow
      else .ok { s.writeCells (slotWrites base stride 0 (softWords st s)) with draws := s.draws + st.order.bits }
    else .error .nonFinite

/-- SOFT (R126, R127). -/
def execSoft (base stride : Nat) (s : State) : Host.Outcome State Fault Refusal :=
  complete (.soft base stride) s (softEffect base stride s)

end Sys2Proof.Machine
end

