-- ==== Sys2Proof/Machine/Dispatch.lean ====
section
/-! DEFINITION. One arm per command: the meaning it calls. -/

namespace Sys2Proof.Machine

def exec (i : Instr) (s : State) : Host.Outcome State Fault Refusal :=
  match i with
  | .cfg order fmt => Sys2Proof.Machine.execCfg order fmt s
  | .bits => Sys2Proof.Machine.execBits s
  | .hard base stride => Sys2Proof.Machine.execHard base stride s
  | .soft base stride => Sys2Proof.Machine.execSoft base stride s
  | .map base stride => Sys2Proof.Machine.execMap base stride s

end Sys2Proof.Machine
end

