-- ==== Sys2Proof/Machine/Step.lean ====
section
/-! DEFINITION. One step of the machine is one host event (spec/00_scope.md R18): a CMD write performs its whole
command in it (spec/20_memory.md R59). -/

namespace Sys2Proof.Machine

/-- One step. -/
def step (s : State) : Host.Outcome State Fault Refusal :=
  match nextDelivery s with
  | .done o => o
  | .command data t =>
    match decodeBytes data with
    | .ok i => exec i t
    | .error _ => execIllegal data t

/-- `s` with the host's write of the table word to CMD as the event that the port delivers next, and the reset
input released, so that the next step runs it. -/
def State.withFetchWord (s : State) (nbits w : Nat) : State :=
  { s with port := commandEvent s nbits w :: s.port, resetAsserted := false }

end Sys2Proof.Machine
end

