-- ==== Sys2Proof/Safety.lean ====
section
/-! DEFINITION. What counts as a legal state and a safe run: the invariant of spec/10_state.md R40 with the
canonical form of memory, the values that parameters may take (R8, R50, R110), what R173 asks of a run whose
commands did what their rules say, the states a unit can reach, and the frames that statements about commands speak
of. -/

namespace Sys2Proof.Machine

/-! ### The invariant -/

/-- The row that FAC, RCP, AMP and DIST hold under a CFG value (R31, R100, R101): all +0.0 when unconfigured. -/
def tableRow (t : FacTable) : Option Setting → Word × Word × Word × Word
  | none => (0, 0, 0, 0)
  | some st => (facOf t st.order, rcpOf t st.order, ampOf t st.order, distOf t st.order)

/-- The amplitude registers hold the row of the configured order (R40). -/
abbrev State.tableOk (s : State) : Prop := (s.fac, s.rcp, s.amp, s.dist) = tableRow s.config.facTable s.cfg

/-- FAULT, ERRCODE and FAULTCMD agree, and ERRCODE holds no reserved code (R40, R150). -/
abbrev State.recordOk (s : State) : Prop :=
  (s.fault = false → s.errcode = 0 ∧ s.faultcmd = 0) ∧
  (s.fault = true → 1 ≤ s.errcode.toNat ∧ s.errcode.toNat ≤ 9)

/-- The code buffer is in canonical form and lists only offsets of its cells (R34). -/
abbrev State.memOk (s : State) : Prop :=
  Memory.wf s.mem ∧ ∀ c ∈ s.mem, codeBase ≤ c.1 ∧ c.1 < codeBase + 8 * s.config.cells

/-- The invariant (R40). -/
abbrev State.Inv (s : State) : Prop := s.tableOk ∧ s.recordOk ∧ s.memOk

/-! ### Parameters -/

/-- The value of a finite binary64 as a multiple of 2^-1074, exact. -/
def fpValue (w : Word) : Int := fpScaled w 1

/-- The bipolar code words of a length: every list of -1 and +1. -/
def allBipolar : Nat → List (List Int)
  | 0 => [[]]
  | n + 1 => (allBipolar n).map (fun b => (-1) :: b) ++ (allBipolar n).map (fun b => 1 :: b)

/-- The squared magnitude of the symbol of a code word, in units of 2^-2148, exact (R109). -/
def energy (amp : Word) (b : List Int) : Int :=
  fpValue (axisLevel amp (realCodes b)) ^ 2 + fpValue (axisLevel amp (imagCodes b)) ^ 2

/-- R109, R110: with this AMP the mean energy over all code words of the order is 1 within 1e-9. -/
def MeanEnergyNearOne (o : QamOrder) (amp : Word) : Prop :=
  (((allBipolar o.bits).map (energy amp)).sum - 2 ^ o.bits * 2 ^ 2148).natAbs * 10 ^ 9 ≤ 2 ^ o.bits * 2 ^ 2148

/-- R110: what a model that substitutes another AMP_TABLE must keep, at every order. -/
def normalized (t : FacTable) : Prop := ∀ o : QamOrder, MeanEnergyNearOne o (ampOf t o)

/-- The values the spec gives the parameters: a base aligned to 0x10000 (R50), 1 to 4096 cells (R8), and an
AMP_TABLE that keeps the normalization (R110). -/
def wfConfig (c : Config) : Prop :=
  c.base % 0x10000 = 0 ∧ 1 ≤ c.cells ∧ c.cells ≤ 4096 ∧ normalized c.facTable

/-! ### Runs -/

/-- A unit with parameters `c` right after reset, to which the port will deliver `events`: one such state for
every host program and every schedule of several hosts (R63, R79). -/
def State.start (c : Config) (events : List HostEvent) : State :=
  { State.reset with config := c, port := events }

/-- The states that steps lead to. -/
inductive Reaches (s : State) : State → Prop where
  | refl : Reaches s s
  | tail {t u : State} : Reaches s t → step t = .next u → Reaches s u

/-- R173: no command of the run recorded a fault. -/
abbrev State.faultFree (s : State) : Prop := s.fault = false ∧ s.multi = false

/-! ### Frames -/

/-- STATUS and FAULTCMD hold what they held. -/
abbrev SameStatus (s t : State) : Prop :=
  t.fault = s.fault ∧ t.multi = s.multi ∧ t.buserr = s.buserr ∧ t.errcode = s.errcode ∧ t.faultcmd = s.faultcmd

/-- CFG and the amplitude registers hold what they held. -/
abbrev SameSetting (s t : State) : Prop :=
  t.cfg = s.cfg ∧ t.fac = s.fac ∧ t.rcp = s.rcp ∧ t.amp = s.amp ∧ t.dist = s.dist

/-- The operand registers hold what they held. -/
abbrev SameOperands (s t : State) : Prop := t.symRe = s.symRe ∧ t.symIm = s.symIm ∧ t.prec = s.prec

/-- What lies around the unit is as it was: parameters, reset input, reset draw, port and answer. -/
abbrev SameAround (s t : State) : Prop :=
  t.config = s.config ∧ t.resetAsserted = s.resetAsserted ∧ t.epoch = s.epoch ∧ t.port = s.port ∧ t.reply = s.reply

/-- Every byte of the code buffer reads as it did. -/
abbrev SameBuffer (s t : State) : Prop := ∀ off, t.readByte off = s.readByte off

/-- The offset lies in none of the `n` code slots (R15), eight bytes each. -/
abbrev OutsideSlots (base stride n off : Nat) : Prop :=
  ∀ c, c < n → off < cellOffset (codeSlot base stride c) ∨ cellOffset (codeSlot base stride c) + 8 ≤ off

/-- Every byte outside the code slots reads as it did. -/
abbrev SameOutsideSlots (base stride n : Nat) (s t : State) : Prop :=
  ∀ off, OutsideSlots base stride n off → t.readByte off = s.readByte off

/-- The slots of a data command are in the buffer (the checks of R120 pass). -/
abbrev SlotsFit (s : State) (st : Setting) (base stride : Nat) : Prop :=
  stride ≠ 0 ∧ base + (st.order.bits - 1) * stride < s.config.cells

/-- Everything but STATUS and FAULTCMD is as it was: what a fault leaves (R160). -/
abbrev SameButStatus (s t : State) : Prop :=
  SameSetting s t ∧ SameOperands s t ∧ t.result = s.result ∧ SameBuffer s t ∧ SameAround s t

/-! ### Host accesses -/

/-- An 8-byte write of `v` at an offset of the window (R57, R79). -/
abbrev hostWrite (s : State) (off : Nat) (v : Word) : HostEvent := .write (s.config.base + off) (bytesOfWord v)

/-- An 8-byte read at an offset of the window (R56, R79). -/
abbrev hostRead (s : State) (off : Nat) : HostEvent := .read (s.config.base + off) 8

/-- The port delivers `e` next, and reset is released. -/
abbrev Delivers (s : State) (e : HostEvent) (rest : List HostEvent) : Prop :=
  s.resetAsserted = false ∧ s.port = e :: rest

/-- The state in which an event acts: it is off the port, and no answer stands yet. -/
abbrev taken (s : State) (rest : List HostEvent) : State := { s with port := rest, reply := none }

/-- An access that R54 does not admit, by its offset and width. -/
abbrev NotAdmitted (cells off width : Nat) : Prop :=
  width ≠ 8 ∨ off % 8 ≠ 0 ∨ (0x60 ≤ off ∧ off < 0x1000) ∨ 0x1000 + 8 * cells ≤ off

/-- The offsets of CFG, RESULT, FAULTCMD, FAC, RCP, AMP and DIST (R20, R55). -/
def readOnlyOffsets : List Nat := [0x010, 0x018, 0x020, 0x040, 0x048, 0x050, 0x058]

/-- The refused accesses of R55: in the window, and not admitted or a write to a read-only register. -/
def RefusedAccess (s : State) : HostEvent → Prop
  | .read addr width =>
    s.config.base ≤ addr ∧ addr < s.config.base + 0x10000 ∧ NotAdmitted s.config.cells (addr - s.config.base) width
  | .write addr data =>
    s.config.base ≤ addr ∧ addr < s.config.base + 0x10000 ∧
      (NotAdmitted s.config.cells (addr - s.config.base) data.length ∨
        (data.length = 8 ∧ addr - s.config.base ∈ readOnlyOffsets))
  | .assertReset => False
  | .releaseReset => False

/-- A host access, as against an edge of reset. -/
def HostEvent.isAccess : HostEvent → Bool
  | .read _ _ => true
  | .write _ _ => true
  | .assertReset => false
  | .releaseReset => false

/-! ### Tables of the spec -/

/-- The opcode map of R75: mask and match of CFG, BITS, HARD, SOFT, MAP. -/
def opcodeMap : List (Word × Word) :=
  [(0xFFFFFFFFFFFFFC0F, 0x0000000000000001), (0xFFFFFFFFFFFFFFFF, 0x0000000000000002),
   (0xFFFFFFFFF000000F, 0x0000000000000003), (0xFFFFFFFFF000000F, 0x0000000000000004),
   (0xFFFFFFFFF000000F, 0x0000000000000005)]

/-- FAC, RCP, AMP and DIST of R100 by log2(N), and +0.0 for the unconfigured 0 (R31). -/
def specRow : Nat → Word × Word × Word × Word
  | 4 => (0x3FF0DD90273C3CE1, 0x40094C583ADA5B52, 0x3FD43D136248490F, 0x3FE43D136248490F)
  | 6 => (0x3FEDA05179501506, 0x4019EC474A261265, 0x3FC3C03650E00E02, 0x3FD3C03650E00E02)
  | 8 => (0x3FEBD0B51D706D23, 0x402A13A9CB996651, 0x3FB3A261BA6D7A36, 0x3FC3A261BA6D7A36)
  | 10 => (0x3FEAF52235C448EB, 0x403A1D79241626A4, 0x3FA39B019B777AD9, 0x3FB39B019B777AD9)
  | _ => (0, 0, 0, 0)

/-! ### Reading results -/

/-- The magnitude, in units of 2^-1074, at which rounding to nearest overflows: 2^1024 less half a last place. -/
def overflowUnits : Nat := 2 ^ 2098 - 2 ^ 2044

/-- `r` is `num / den` units of 2^-1074 rounded to nearest, ties to even (R9): an infinity from the magnitude at
which rounding overflows, else a binary64 to which no other is nearer, with last bit 0 if another is as near. -/
def RoundsTo (num : Int) (den : Nat) (r : Word) : Prop :=
  (isFinite r = true ↔ num.natAbs < overflowUnits * den) ∧
  (isFinite r = false → r = fpInf (decide (num < 0))) ∧
  (isFinite r = true → ∀ w : Word, isFinite w = true →
    (fpValue r * den - num).natAbs ≤ (fpValue w * den - num).natAbs ∧
    ((fpValue r * den - num).natAbs = (fpValue w * den - num).natAbs → fpValue w ≠ fpValue r →
      r.getLsbD 0 = false))

/-- Two lists of codes differ at exactly one index. -/
abbrev DifferOnce (a b : List Int) : Prop :=
  ∃ j : Nat, a[j]? ≠ b[j]? ∧ ∀ i : Nat, i ≠ j → a[i]? = b[i]?

/-- The word is -1 or +1 in the format (R140): the two binary64 values, or the low bits of the integers. -/
def BipolarWord : CodeFormat → Word → Prop
  | .f64, w => w = 0x3FF0000000000000 ∨ w = 0xBFF0000000000000
  | .i8sat, w => w.extractLsb' 0 8 = 0x01#8 ∨ w.extractLsb' 0 8 = 0xFF#8
  | .i32, w => w.extractLsb' 0 32 = 0x00000001#32 ∨ w.extractLsb' 0 32 = 0xFFFFFFFF#32

/-- The level of code index `c` of the symbol in SYM_RE and SYM_IM (R14, R121). -/
def codeLevel? (st : Setting) (s : State) (c : Nat) : Option Level :=
  (fold s.amp st.order.depth (if c % 2 = 0 then s.symRe else s.symIm))[c / 2]?

end Sys2Proof.Machine
end

