-- ==== Sys2Proof/Certificates/Slice0/Obligations.lean ====
section
/-! DEFINITION. The statements about the model, for the provers. Each docstring names the rule of spec/ it
formalises, or the log entry where a clause is the model's own choice. -/

open Sys2Proof Sys2Proof.Machine

/-! ### Encoding -/

/-- R70 to R74: decoding an encoded well-formed command gives it back, every operand at every value. -/
def Obligations.DecodeOfEncodeReturnsInstr : Prop :=
  ∀ i : Instr, WellFormed i = true → decodeWord (encode i) = .ok i

/-- R70 to R74: a word that decodes is the encoding of what it decodes to, and its operands fit their fields; so
FAULTCMD, recorded from the command, is the word written (R28, log 10). -/
def Obligations.EncodeOfDecodeReturnsWord : Prop :=
  ∀ (w : Word) (i : Instr), decodeWord w = .ok i → WellFormed i = true ∧ encode i = w

/-- R81: the encodings the spec lists, read and written. -/
def Obligations.SpecEncodingExamples : Prop :=
  ∀ p ∈ ([(0x0000000000000041, .cfg 4 0), (0x0000000000000161, .cfg 6 1), (0x0000000000000281, .cfg 8 2),
      (0x00000000000000A1, .cfg 10 0), (0x0000000000000002, .bits), (0x0000000000010003, .hard 0 1),
      (0x0000000000020104, .soft 16 2), (0x0000000000010005, .map 0 1),
      (0x000000000FFFFFF5, .map 4095 4095)] : List (Word × Instr)),
    decodeWord p.1 = .ok p.2 ∧ encode p.2 = p.1

/-- R75: a word is a command exactly when it matches one row of the opcode map, that row's command, and at most
one row matches it. -/
def Obligations.CommandWordsMatchOpcodeMap : Prop :=
  ∀ w : Word,
    ((∃ o f, decodeWord w = .ok (.cfg o f)) ↔ w &&& 0xFFFFFFFFFFFFFC0F = 0x0000000000000001) ∧
    (decodeWord w = .ok .bits ↔ w &&& 0xFFFFFFFFFFFFFFFF = 0x0000000000000002) ∧
    ((∃ b d, decodeWord w = .ok (.hard b d)) ↔ w &&& 0xFFFFFFFFF000000F = 0x0000000000000003) ∧
    ((∃ b d, decodeWord w = .ok (.soft b d)) ↔ w &&& 0xFFFFFFFFF000000F = 0x0000000000000004) ∧
    ((∃ b d, decodeWord w = .ok (.map b d)) ↔ w &&& 0xFFFFFFFFF000000F = 0x0000000000000005) ∧
    (∀ r₁ ∈ opcodeMap, ∀ r₂ ∈ opcodeMap, w &&& r₁.1 = r₁.2 → w &&& r₂.1 = r₂.2 → r₁ = r₂)

/-- R70, R76: a CMD write whose OP is none of 1 to 5, or one of whose reserved bits is 1, raises ILLEGAL_CMD and
makes no change but the fault record. -/
def Obligations.IllegalWordsRecordIllegalCmd : Prop :=
  ∀ (s : State) (rest : List HostEvent) (v : Word), Delivers s (hostWrite s 0 v) rest →
    (v.extractLsb' 0 4 = 0#4 ∨ 6#4 ≤ v.extractLsb' 0 4 ∨
      (v.extractLsb' 0 4 = 1#4 ∧ v.extractLsb' 10 54 ≠ 0) ∨
      (v.extractLsb' 0 4 = 2#4 ∧ v.extractLsb' 4 60 ≠ 0) ∨
      (3#4 ≤ v.extractLsb' 0 4 ∧ v.extractLsb' 0 4 ≤ 5#4 ∧ v.extractLsb' 28 36 ≠ 0)) →
    step s = .next ((taken s rest).recordFault v .illegalCmd)

/-! ### Steps -/

/-- R18, R32, R59: a CMD write of a word that decodes is one step, and that step is the command, on the state from
which the write has been taken (the model's port, log 1). -/
def Obligations.StepRunsDecodedCommand : Prop :=
  ∀ (s : State) (rest : List HostEvent) (v : Word) (i : Instr), Delivers s (hostWrite s 0 v) rest →
    decodeWord v = .ok i → step s = exec i (taken s rest)

/-- The model's interface (log 9): `withFetchWord` makes the next step the table word's command. -/
def Obligations.FetchWordRunsTableWord : Prop :=
  ∀ (s : State) (w : Nat) (i : Instr), decodeTableWord 64 w = some i →
    step (s.withFetchWord 64 w) = exec i { s with resetAsserted := false, reply := none }

/-- R162, R160: every command ends in a next state, whatever the state and its operands; a recorded fault blocks
none. -/
def Obligations.EveryCommandCompletes : Prop :=
  ∀ (i : Instr) (s : State), ∃ t, exec i s = .next t

/-- R181 (log 7): the machine stops exactly on a host access while reset is asserted, and no step is refused. -/
def Obligations.StepStopsOnlyDuringReset : Prop :=
  ∀ s : State,
    ((∃ f, step s = .fault f) ↔
      s.resetAsserted = true ∧ ∃ e rest, s.port = e :: rest ∧ e.isAccess = true) ∧
    ∀ r, step s ≠ .refused r

/-- The model's choices (logs 1 and 6): with nothing on the port nothing changes, and an access outside the window
changes nothing of the unit and gets no answer from it. -/
def Obligations.NothingAddressedChangesNothing : Prop :=
  (∀ s : State, s.port = [] → step s = .next s) ∧
  ∀ (s : State) (e : HostEvent) (rest : List HostEvent), Delivers s e rest →
    (∃ addr, (addr < s.config.base ∨ s.config.base + 0x10000 ≤ addr) ∧
      ((∃ width, e = .read addr width) ∨ ∃ data, e = .write addr data)) →
    step s = .next (taken s rest)

/-- R8: no step changes a parameter. -/
def Obligations.ParametersNeverChange : Prop :=
  ∀ s t : State, step s = .next t → t.config = s.config

/-! ### Reset -/

/-- R39: every register reads 0 after reset. The model's choice (log 3) is that a code cell reads the draw
`codememReset 0 i`, of which nothing is known. -/
def Obligations.ResetValues : Prop :=
  (∀ r : Reg, State.reset.readReg r = 0) ∧
  ∀ i, i < Config.defaults.cells → State.reset.readCell i = Config.codememReset 0 i

/-- R180, R181: asserting reset, in any state, sets every register to its reset value; it is the only way back to the
unconfigured state; and releasing it changes nothing of the unit but the level of the input, which is then low, so
that accesses are steps again. The model's choices: every cell takes a new draw (log 3), the draws of SOFT go on
(log 4), and reset is a level with two edges that leave the rest of the port as it was (log 7). -/
def Obligations.AssertedResetRestoresResetValues : Prop :=
  (∀ (s : State) (rest : List HostEvent), s.port = .assertReset :: rest →
    ∃ t, step s = .next t ∧ (∀ r : Reg, t.readReg r = 0) ∧
      (∀ i, t.readCell i = Config.codememReset (s.epoch + 1) i) ∧
      t.config = s.config ∧ t.resetAsserted = true ∧ t.port = rest ∧ t.draws = s.draws) ∧
  (∀ s t : State, s.cfg ≠ none → step s = .next t → t.cfg = none → ∃ rest, s.port = .assertReset :: rest) ∧
  ∀ (s : State) (rest : List HostEvent), s.port = .releaseReset :: rest →
    step s = .next { taken s rest with resetAsserted := false }

/-! ### Invariants -/

/-- R40 at reset: the invariant holds of every unit right after reset, whatever its parameters and whatever the
hosts will do. -/
def Obligations.InvariantAtReset : Prop :=
  ∀ (c : Config) (events : List HostEvent), (State.start c events).Inv

/-- R40: every step keeps the invariant, from every state that meets it. -/
def Obligations.StepKeepsInvariant : Prop :=
  ∀ s t : State, s.Inv → step s = .next t → t.Inv

/-- R40 as the host reads it: in every state that any host program reaches from reset, with the amplitude table of
R100. -/
def Obligations.ReachableRegistersAgree : Prop :=
  ∀ (c : Config) (events : List HostEvent) (t : State), c.facTable = Config.defaultFacTable →
    Reaches (State.start c events) t →
    (cfgWord t.cfg).extractLsb' 0 4 ∈ [0#4, 4#4, 6#4, 8#4, 10#4] ∧
    (cfgWord t.cfg).extractLsb' 4 2 ∈ [0#2, 1#2, 2#2] ∧
    ((cfgWord t.cfg).extractLsb' 0 4 = 0#4 → (cfgWord t.cfg).extractLsb' 4 2 = 0#2) ∧
    (t.fac, t.rcp, t.amp, t.dist) = specRow ((cfgWord t.cfg).extractLsb' 0 4).toNat ∧
    (t.fault = false → t.errcode = 0 ∧ t.faultcmd = 0) ∧
    (t.fault = true → t.errcode ≠ 0)

/-! ### Configuration -/

/-- R100: the amplitude table, all sixteen values, as R101 computes them from the default FAC column. -/
def Obligations.AmplitudeTableIsTheSpecs : Prop :=
  ∀ o : QamOrder, (facOf Config.defaultFacTable o, rcpOf Config.defaultFacTable o,
    ampOf Config.defaultFacTable o, distOf Config.defaultFacTable o) = specRow o.bits

/-- R90: CFG completes with the order, the format and the row of its order, computed as R101 says, and changes
nothing else; an illegal order raises BAD_ORDER, and with a legal order FMT = 3 raises BAD_FMT. -/
def Obligations.CfgSelectsOrderAndFormat : Prop :=
  ∀ (s : State) (order fmt : Nat),
    (order ∉ [4, 6, 8, 10] →
      exec (.cfg order fmt) s = .next (s.recordFault (encode (.cfg order fmt)) .badOrder)) ∧
    (order ∈ [4, 6, 8, 10] → fmt = 3 →
      exec (.cfg order fmt) s = .next (s.recordFault (encode (.cfg order fmt)) .badFmt)) ∧
    (order ∈ [4, 6, 8, 10] → fmt < 3 →
      ∃ t, exec (.cfg order fmt) s = .next t ∧
        cfgWord t.cfg = BitVec.ofNat 64 (fmt * 16 + order) ∧
        (∀ o : QamOrder, o.bits = order → t.fac = facOf s.config.facTable o) ∧
        t.rcp = fmul (f64 (2 ^ (order / 2) - 1)) t.fac ∧ t.amp = fdiv (f64 1) t.rcp ∧
        t.dist = fmul (f64 2) t.amp ∧
        SameStatus s t ∧ SameOperands s t ∧ t.result = s.result ∧ t.draws = s.draws ∧
        SameBuffer s t ∧ SameAround s t)

/-- R92: a CFG that faults leaves CFG and the amplitude registers as they were, and repeating a successful CFG
changes nothing. -/
def Obligations.CfgFaultKeepsAndRepeatIsIdle : Prop :=
  ∀ (s t : State) (order fmt : Nat), exec (.cfg order fmt) s = .next t →
    (¬ (order ∈ [4, 6, 8, 10] ∧ fmt < 3) → SameButStatus s t) ∧
    (order ∈ [4, 6, 8, 10] ∧ fmt < 3 → exec (.cfg order fmt) t = .next t)

/-- R93: BITS completes with the bit count in RESULT and nothing else changed; unconfigured it raises
NOT_CONFIGURED. -/
def Obligations.BitsReportsBitCount : Prop :=
  ∀ s : State,
    (s.cfg = none → exec .bits s = .next (s.recordFault 0x2 .notConfigured)) ∧
    (∀ st, s.cfg = some st → exec .bits s = .next { s with result := BitVec.ofNat 64 st.order.bits })

/-- R94: after CFG of a supported order, BITS sets RESULT to log2(N), in every format. -/
def Obligations.BitsAfterCfgIsLog2 : Prop :=
  ∀ (s : State) (order fmt : Nat), order ∈ [4, 6, 8, 10] → fmt < 3 →
    ∃ t u, exec (.cfg order fmt) s = .next t ∧ exec .bits t = .next u ∧ u.result = BitVec.ofNat 64 order

/-! ### Faults and STATUS -/

/-- R120, R161: the checks that HARD, SOFT and MAP share, in their order, and that every code slot is a cell once
they pass. -/
def Obligations.DataChecksFaultInOrder : Prop :=
  ∀ (s : State) (base stride : Nat) (i : Instr),
    i ∈ [Instr.hard base stride, Instr.soft base stride, Instr.map base stride] →
    (s.cfg = none → exec i s = .next (s.recordFault (encode i) .notConfigured)) ∧
    (∀ st, s.cfg = some st → stride = 0 → exec i s = .next (s.recordFault (encode i) .badStride)) ∧
    (∀ st, s.cfg = some st → stride ≠ 0 → s.config.cells ≤ base + (st.order.bits - 1) * stride →
      exec i s = .next (s.recordFault (encode i) .range)) ∧
    (∀ st c, SlotsFit s st base stride → c < st.order.bits → codeSlot base stride c < s.config.cells)

/-- R122, R126: an infinity or a NaN in SYM_RE or SYM_IM makes HARD and SOFT raise NON_FINITE, one in PREC makes
SOFT raise it. -/
def Obligations.NonFiniteOperandsFault : Prop :=
  ∀ (s : State) (st : Setting) (base stride : Nat), s.cfg = some st → SlotsFit s st base stride →
    ((isFinite s.symRe = false ∨ isFinite s.symIm = false) →
      exec (.hard base stride) s = .next (s.recordFault (encode (.hard base stride)) .nonFinite)) ∧
    ((isFinite s.symRe = false ∨ isFinite s.symIm = false ∨ isFinite s.prec = false) →
      exec (.soft base stride) s = .next (s.recordFault (encode (.soft base stride)) .nonFinite))

/-- R140: a code that is not exactly -1 or +1 makes MAP raise NON_BIPOLAR. -/
def Obligations.NonBipolarCodeFaults : Prop :=
  ∀ (s : State) (st : Setting) (base stride : Nat), s.cfg = some st → SlotsFit s st base stride →
    (∃ c, c < st.order.bits ∧ ¬ BipolarWord st.fmt (s.readCell (codeSlot base stride c))) →
    exec (.map base stride) s = .next (s.recordFault (encode (.map base stride)) .nonBipolar)

/-- R106, R126: under I32_OVERFLOW = FAULT, a SOFT one of whose codes overflows raises INT_OVERFLOW and writes no
code. -/
def Obligations.SoftOverflowFaults : Prop :=
  ∀ (s : State) (st : Setting) (base stride : Nat), s.cfg = some st → SlotsFit s st base stride →
    isFinite s.symRe = true → isFinite s.symIm = true → isFinite s.prec = true → s.config.overflow = .fault →
    (∃ c l r, codeLevel? st s c = some l ∧ quantize s.config.tie st.fmt s.dist s.prec l.dist = .overflow r) →
    exec (.soft base stride) s = .next (s.recordFault (encode (.soft base stride)) .intOverflow)

/-- R160: a CMD write faults or not whatever STATUS and FAULTCMD hold, so as it does with them clear. If it does not,
it leaves them as they were. If it does, it changes nothing but the record: FAULT, the code and the word written for
a first fault, MULTI alone for a later one, also where MULTI is already set. -/
def Obligations.FaultsArePreciseAndRecorded : Prop :=
  ∀ (s t : State) (rest : List HostEvent) (v : Word), Delivers s (hostWrite s 0 v) rest → step s = .next t →
    ∃ u, step { s with fault := false, multi := false, errcode := 0, faultcmd := 0 } = .next u ∧
      (u.fault = false → SameStatus s t ∧
        t = { u with fault := s.fault, multi := s.multi, errcode := s.errcode, faultcmd := s.faultcmd }) ∧
      (u.fault = true → ∃ c : FaultCode, u.errcode = c.code ∧
        (s.fault = false → t = { taken s rest with fault := true, errcode := c.code, faultcmd := v }) ∧
        (s.fault = true → t = { taken s rest with multi := true }))

/-- R164: while FAULT is set, every step keeps it and keeps ERRCODE and FAULTCMD, except reset and a STATUS write
that clears it. -/
def Obligations.FirstFaultIsKept : Prop :=
  ∀ (s t : State) (e : HostEvent) (rest : List HostEvent), s.fault = true → s.port = e :: rest → step s = .next t →
    e ≠ .assertReset →
    (∀ data, e = .write (s.config.base + 8) data → data.length = 8 → (wordOfBytes data).getLsbD 0 = false) →
    t.fault = true ∧ t.errcode = s.errcode ∧ t.faultcmd = s.faultcmd

/-- R26: what can change FAULT, MULTI, ERRCODE and FAULTCMD (a command, a STATUS write, reset), and what can change
BUSERR (a refused access, a STATUS write, reset). -/
def Obligations.StatusHasNoOtherWriters : Prop :=
  ∀ (s t : State) (e : HostEvent) (rest : List HostEvent), s.port = e :: rest → step s = .next t →
    (¬ (t.fault = s.fault ∧ t.multi = s.multi ∧ t.errcode = s.errcode ∧ t.faultcmd = s.faultcmd) →
      (∃ data, e = .write s.config.base data ∧ data.length = 8) ∨
      (∃ data, e = .write (s.config.base + 8) data ∧ data.length = 8) ∨ e = .assertReset) ∧
    (t.buserr ≠ s.buserr →
      RefusedAccess s e ∨ (∃ data, e = .write (s.config.base + 8) data ∧ data.length = 8) ∨ e = .assertReset)

/-- R165: no step records two faults, or a fault and a bus error. -/
def Obligations.NoFaultAndBusErrorTogether : Prop :=
  ∀ s t : State, step s = .next t →
    ¬ (((s.fault = false ∧ t.fault = true) ∨ (s.multi = false ∧ t.multi = true)) ∧
      s.buserr = false ∧ t.buserr = true) ∧
    ¬ ((s.fault = false ∧ t.fault = true) ∧ s.multi = false ∧ t.multi = true)

/-- R163: a host write of `v` to STATUS clears what its bits 0 to 2 select and changes nothing else. -/
def Obligations.StatusWriteClears : Prop :=
  ∀ (s : State) (rest : List HostEvent) (v : Word), Delivers s (hostWrite s 8 v) rest →
    ∃ t, step s = .next t ∧ SameButStatus (taken s rest) t ∧ t.draws = s.draws ∧
      (v.getLsbD 0 = true → t.fault = false ∧ t.errcode = 0 ∧ t.faultcmd = 0) ∧
      (v.getLsbD 0 = false → t.fault = s.fault ∧ t.errcode = s.errcode ∧ t.faultcmd = s.faultcmd) ∧
      t.multi = (if v.getLsbD 1 then false else s.multi) ∧
      t.buserr = (if v.getLsbD 2 then false else s.buserr)

/-- R24, R25: the fields of STATUS as the host reads it; the reserved bits read 0. -/
def Obligations.StatusWordLayout : Prop :=
  ∀ s : State,
    s.status.getLsbD 0 = s.fault ∧ s.status.getLsbD 1 = s.multi ∧ s.status.getLsbD 2 = s.buserr ∧
    (s.status.getLsbD 3 = true ↔ (cfgWord s.cfg).extractLsb' 0 4 ≠ 0) ∧
    s.status.extractLsb' 4 4 = 0 ∧ s.status.extractLsb' 8 8 = s.errcode ∧ s.status.extractLsb' 16 48 = 0

/-! ### Host accesses and the code buffer -/

/-- R55: a refused access returns 0 if it is a read, sets BUSERR, and affects nothing else. -/
def Obligations.RefusedAccessOnlySetsBuserr : Prop :=
  ∀ (s : State) (e : HostEvent) (rest : List HostEvent), Delivers s e rest → RefusedAccess s e →
    ∃ v, step s = .next { s with port := rest, reply := v, buserr := true } ∧
      (∀ addr width, e = .read addr width → v = some 0) ∧ (∀ addr data, e = .write addr data → v = none)

/-- R56: what an admitted read returns, register by register and for every cell; no read changes any state. -/
def Obligations.AdmittedReadsReturnState : Prop :=
  ∀ (s : State) (rest : List HostEvent),
    (∀ p ∈ [(0x000, 0), (0x008, s.status), (0x010, cfgWord s.cfg), (0x018, s.result), (0x020, s.faultcmd),
        (0x028, s.symRe), (0x030, s.symIm), (0x038, s.prec), (0x040, s.fac), (0x048, s.rcp), (0x050, s.amp),
        (0x058, s.dist)],
      Delivers s (hostRead s p.1) rest → step s = .next { s with port := rest, reply := some p.2 }) ∧
    (∀ i, i < s.config.cells → s.config.cells ≤ 4096 → Delivers s (hostRead s (0x1000 + 8 * i)) rest →
      step s = .next { s with port := rest, reply := some (s.readCell i) })

/-- R38, R57: SYM_RE, SYM_IM and PREC are stored verbatim, and nothing else changes. -/
def Obligations.OperandWritesAreVerbatim : Prop :=
  ∀ (s : State) (rest : List HostEvent) (v : Word),
    (Delivers s (hostWrite s 0x028 v) rest → step s = .next { taken s rest with symRe := v }) ∧
    (Delivers s (hostWrite s 0x030 v) rest → step s = .next { taken s rest with symIm := v }) ∧
    (Delivers s (hostWrite s 0x038 v) rest → step s = .next { taken s rest with prec := v })

/-- R57, R60, R64: a read of a cell returns what the write before it left: the word written to that cell, and
what it held for every other cell; the registers hold what they held. -/
def Obligations.CellWriteIsReadBack : Prop :=
  ∀ (s : State) (rest : List HostEvent) (i j : Nat) (v : Word), i < s.config.cells → j < s.config.cells →
    s.config.cells ≤ 4096 → Delivers s (hostWrite s (0x1000 + 8 * i) v) (hostRead s (0x1000 + 8 * j) :: rest) →
    ∃ t u, step s = .next t ∧ step t = .next u ∧ u.reply = some (if j = i then v else s.readCell j) ∧
      SameStatus s u ∧ SameSetting s u ∧ SameOperands s u ∧ u.result = s.result

/-- R53: byte order. Byte b of a cell is bits `[8*b+7 : 8*b]` of it, and byte b of a written access is those bits
of the word it carries. -/
def Obligations.BytesAreLittleEndian : Prop :=
  (∀ (s : State) (i b : Nat), b < 8 → s.readByte (0x1000 + 8 * i + b) = (s.readCell i).extractLsb' (8 * b) 8) ∧
  ∀ (data : List Byte) (b : Nat) (x : Byte), data.length = 8 → data[b]? = some x →
    (wordOfBytes data).extractLsb' (8 * b) 8 = x

/-- R36, R37, R140: a bipolar code reads back from the cell word that HARD writes for it, and the words are the
ones R36 lists. -/
def Obligations.BipolarCodesReadBack : Prop :=
  (∀ fmt : CodeFormat, ∀ z : Int, z = 1 ∨ z = -1 → (decodeCode fmt (encodeCode fmt (.int z))).bipolar? = some z) ∧
  encodeCode .f64 (.int 1) = 0x3FF0000000000000 ∧ encodeCode .f64 (.int (-1)) = 0xBFF0000000000000 ∧
  (∀ fmt, fmt ≠ .f64 → encodeCode fmt (.int 1) = 1 ∧ encodeCode fmt (.int (-1)) = 0xFFFFFFFFFFFFFFFF)

/-- R36, R37: an integer code in the range of its format reads back as itself. -/
def Obligations.IntegerCodesReadBack : Prop :=
  (∀ z : Int, -128 ≤ z → z ≤ 127 → decodeCode .i8sat (encodeCode .i8sat (.int z)) = .int z ∧
    (encodeCode .i8sat (.int z)).toInt = z) ∧
  ∀ z : Int, -2 ^ 31 ≤ z → z ≤ 2 ^ 31 - 1 → decodeCode .i32 (encodeCode .i32 (.int z)) = .int z ∧
    (encodeCode .i32 (.int z)).toInt = z

/-! ### The slicer -/

/-- R121: the fold of an axis value at depth k: k levels, level 0 at threshold 0, and at level j the threshold
amp(2^(k-j)) and the residual that the level before leaves. -/
def Obligations.FoldFollowsItsRecurrence : Prop :=
  ∀ (amp x : Word) (k : Nat), 1 ≤ k →
    (fold amp k x).length = k ∧ (fold amp k x)[0]? = some { lt := flt x 0, dist := x } ∧
    ∀ j l₀, (fold amp k x)[j]? = some l₀ → j + 1 < k →
      (fold amp k x)[j + 1]? = some
        { lt := flt (fabs l₀.dist) (fmul amp (f64 (2 ^ (k - (j + 1)))))
          dist := fsub (fabs l₀.dist) (fmul amp (f64 (2 ^ (k - (j + 1))))) }

/-- R122: HARD completes when the unit is configured, the slots fit and the symbol is finite, whatever PREC is: it
writes the code of its level to every slot, and nothing else changes. -/
def Obligations.HardDecidesEverySlot : Prop :=
  ∀ (s : State) (st : Setting) (base stride : Nat), s.cfg = some st → SlotsFit s st base stride →
    isFinite s.symRe = true → isFinite s.symIm = true →
    ∃ t, exec (.hard base stride) s = .next t ∧
      (∀ c, c < st.order.bits → ∃ l, codeLevel? st s c = some l ∧
        t.readCell (codeSlot base stride c) = encodeCode st.fmt (.int (if l.lt then -1 else 1))) ∧
      SameOutsideSlots base stride st.order.bits s t ∧ SameStatus s t ∧ SameSetting s t ∧ SameOperands s t ∧
      t.result = s.result ∧ t.draws = s.draws ∧ SameAround s t

/-- R126: SOFT completes when the unit is configured, the slots fit, its operands are finite and no overflow is to
fault: it writes the quantized distance of its level to every slot, and nothing else of the unit changes. An
overflow under ANY takes a draw of its own (log 4), for every value of the draw. -/
def Obligations.SoftQuantizesEverySlot : Prop :=
  ∀ (s : State) (st : Setting) (base stride : Nat), s.cfg = some st → SlotsFit s st base stride →
    isFinite s.symRe = true → isFinite s.symIm = true → isFinite s.prec = true →
    (s.config.overflow = .fault → ∀ c l r, codeLevel? st s c = some l →
      quantize s.config.tie st.fmt s.dist s.prec l.dist ≠ .overflow r) →
    ∃ t, exec (.soft base stride) s = .next t ∧
      (∀ c, c < st.order.bits → ∃ l, codeLevel? st s c = some l ∧
        t.readCell (codeSlot base stride c) = encodeCode st.fmt (resolveCode s.config.overflow (s.draws + c)
          (quantize s.config.tie st.fmt s.dist s.prec l.dist))) ∧
      SameOutsideSlots base stride st.order.bits s t ∧ SameStatus s t ∧ SameSetting s t ∧ SameOperands s t ∧
      t.result = s.result ∧ t.draws = s.draws + st.order.bits ∧ SameAround s t

/-- R128: HARD and SOFT, faulting or not, change no operand register, not RESULT, no configuration, and no byte
outside their slots. -/
def Obligations.SlicerTouchesOnlyItsSlots : Prop :=
  ∀ (s t : State) (base stride : Nat) (i : Instr), i ∈ [Instr.hard base stride, Instr.soft base stride] →
    exec i s = .next t →
    SameOperands s t ∧ t.result = s.result ∧ SameSetting s t ∧ SameAround s t ∧ t.buserr = s.buserr ∧
    (s.cfg = none → SameBuffer s t) ∧
    ∀ st, s.cfg = some st → SameOutsideSlots base stride st.order.bits s t

/-- R123: a level whose residual equals its threshold decodes to +1, and so does a zero of either sign at level 0:
the cell holds the +1 of the format. -/
def Obligations.BoundariesDecodeToPlusOne : Prop :=
  ∀ (s t : State) (st : Setting) (base stride c : Nat) (l : Level), s.cfg = some st → SlotsFit s st base stride →
    isFinite s.symRe = true → isFinite s.symIm = true → exec (.hard base stride) s = .next t →
    codeLevel? st s c = some l → fpMag l.dist = 0 →
    t.readCell (codeSlot base stride c) = encodeCode st.fmt (.int 1)

/-- R124: for a finite axis value and finite thresholds, a level's comparison is the sign of its distance. -/
def Obligations.HardDecisionIsSignOfDistance : Prop :=
  ∀ (amp x : Word) (k : Nat), isFinite x = true → (∀ a ∈ thresholds amp k, isFinite a = true) →
    ∀ l ∈ fold amp k x, l.lt = flt l.dist 0

/-- R125: the noiseless round trip. With the table of R100, for every order, format and bipolar code word, MAP
followed by HARD gives the code word back, from any slots to any slots. -/
def Obligations.NoiselessRoundTrip : Prop :=
  ∀ (s : State) (st : Setting) (base stride base' stride' : Nat) (b : List Int), s.cfg = some st →
    s.amp = (specRow st.order.bits).2.2.1 → SlotsFit s st base stride → SlotsFit s st base' stride' →
    bipolarCodes? st.fmt (readSlots s base stride st.order.bits) = some b →
    ∃ t u, exec (.map base stride) s = .next t ∧ exec (.hard base' stride') t = .next u ∧
      bipolarCodes? st.fmt (readSlots u base' stride' st.order.bits) = some b

/-! ### Quantize -/

/-- R107: an I8SAT soft code beyond the range, an infinity included, saturates to exactly -128 or 127. -/
def Obligations.SoftI8CodesSaturate : Prop :=
  ∀ (tie : TieRule) (dist prec val : Word),
    (flt (f64 127) (rint tie (fmul val (fmul dist prec))) = true → quantize tie .i8sat dist prec val = .int 127) ∧
    (flt (rint tie (fmul val (fmul dist prec))) (f64 (-128)) = true → quantize tie .i8sat dist prec val = .int (-128))

/-- R104, R107: every I8SAT soft code of finite operands with |DIST| < 1 (as in every row of R100) lies in
[-128, 127]: it never wraps. -/
def Obligations.SoftI8CodesStayInRange : Prop :=
  ∀ (tie : TieRule) (dist prec val : Word) (z : Int), isFinite prec = true → isFinite val = true →
    flt (fabs dist) (f64 1) = true → quantize tie .i8sat dist prec val = .int z → -128 ≤ z ∧ z ≤ 127

/-- R108: quantize never produces a NaN from finite operands, since |DIST| < 1. -/
def Obligations.QuantizeOfFiniteIsNeverNaN : Prop :=
  ∀ (dist prec val : Word), isFinite prec = true → isFinite val = true → flt (fabs dist) (f64 1) = true →
    isFinite (fmul dist prec) = true ∧ isNaN (fmul val (fmul dist prec)) = false

/-- R105: a zero precision makes every code a zero: the integer 0, or a zero with the sign of val × t. -/
def Obligations.ZeroPrecisionGivesZeroCodes : Prop :=
  ∀ (tie : TieRule) (dist prec val : Word), isFinite dist = true → isFinite val = true → fpMag prec = 0 →
    quantize tie .i8sat dist prec val = .int 0 ∧ quantize tie .i32 dist prec val = .int 0 ∧
    quantize tie .f64 dist prec val = .real (fpZero (fpSign val != fpSign (fmul dist prec)))

/-- R105, R127: the sign of the precision is the sign of the codes: flipping it flips an F64 code's sign bit and
negates an integer code that is not at the end of its range. -/
def Obligations.NegatedPrecisionNegatesCodes : Prop :=
  ∀ (tie : TieRule) (dist prec val : Word), isFinite dist = true → isFinite prec = true → isFinite val = true →
    isFinite (fmul dist prec) = true →
    quantize tie .f64 dist (fneg prec) val = .real (fneg (fmul val (fmul dist prec))) ∧
    (∀ z, quantize tie .i8sat dist prec val = .int z → -128 < z → z < 127 →
      quantize tie .i8sat dist (fneg prec) val = .int (-z)) ∧
    (∀ z, quantize tie .i32 dist prec val = .int z → -2 ^ 31 < z →
      quantize tie .i32 dist (fneg prec) val = .int (-z))

/-- R106: an I32 value that fits is the rounded integer; one that does not is clamped under SATURATE and is the
free draw under ANY, whatever the draw is (log 4). -/
def Obligations.I32OverflowFollowsParameter : Prop :=
  ∀ (tie : TieRule) (dist prec val r : Word) (n : Nat), r = rint tie (fmul val (fmul dist prec)) → isNaN r = false →
    (isFinite r = true ∧ -2 ^ 31 ≤ toInt r ∧ toInt r ≤ 2 ^ 31 - 1 →
      quantize tie .i32 dist prec val = .int (toInt r)) ∧
    (¬ (isFinite r = true ∧ -2 ^ 31 ≤ toInt r ∧ toInt r ≤ 2 ^ 31 - 1) →
      quantize tie .i32 dist prec val = .overflow r ∧
      resolveCode .saturate n (.overflow r) = .int (if fpSign r then -2 ^ 31 else 2 ^ 31 - 1) ∧
      resolveCode .any n (.overflow r) = .int (Config.freeI32 n).toInt)

/-! ### The mapper -/

/-- R142: MAP completes when the unit is configured, the slots fit and every code is bipolar: it writes the two
axis levels to SYM_RE and SYM_IM and changes nothing else. -/
def Obligations.MapReconstructsSymbol : Prop :=
  ∀ (s : State) (st : Setting) (base stride : Nat) (b : List Int), s.cfg = some st → SlotsFit s st base stride →
    (∀ c, c < st.order.bits → BipolarWord st.fmt (s.readCell (codeSlot base stride c))) →
    b = (List.range st.order.bits).map (fun c =>
      if (s.readCell (codeSlot base stride c)).getLsbD (if st.fmt = .f64 then 63 else 1) then -1 else 1) →
    exec (.map base stride) s = .next { s with
      symRe := fmul s.amp (f64 (composeAxis (realCodes b)))
      symIm := fmul s.amp (f64 (composeAxis (imagCodes b))) }

/-- R141, R143: the composition of an axis is the source's listing at every supported depth. -/
def Obligations.ComposeAxisIsTheListings : Prop :=
  ∀ b0 b2 b4 b6 b8 : Int,
    composeAxis [b0, b2] = b0 * (b2 + 2) ∧
    composeAxis [b0, b2, b4] = b0 * (b2 * (b4 + 2) + 4) ∧
    composeAxis [b0, b2, b4, b6] = b0 * (b2 * (b4 * (b6 + 2) + 4) + 8) ∧
    composeAxis [b0, b2, b4, b6, b8] = b0 * (b2 * (b4 * (b6 * (b8 + 2) + 4) + 8) + 16)

/-- R145: at every depth k the composition takes every odd integer of [-(2^k - 1), 2^k - 1] exactly once over the
bipolar patterns, and consecutive levels differ in exactly one code. -/
def Obligations.ConstellationIsGrayCoded : Prop :=
  ∀ k : Nat, 1 ≤ k →
    (∀ a ∈ allBipolar k, composeAxis a % 2 = 1 ∧ (composeAxis a).natAbs < 2 ^ k) ∧
    (∀ m : Int, m % 2 = 1 → m.natAbs < 2 ^ k → ∃ a ∈ allBipolar k, composeAxis a = m) ∧
    (∀ a ∈ allBipolar k, ∀ b ∈ allBipolar k, composeAxis a = composeAxis b → a = b) ∧
    (∀ a ∈ allBipolar k, ∀ b ∈ allBipolar k, composeAxis b = composeAxis a + 2 → DifferOnce a b)

/-- R109, R110: the mean squared magnitude of the symbols, over all code words of an order, is 1 within 1e-9 (in exact
arithmetic): with the table of R100, and with every table a platform may substitute, in every configured state that
meets the invariant. -/
def Obligations.MeanEnergyIsOne : Prop :=
  (∀ o : QamOrder, MeanEnergyNearOne o (specRow o.bits).2.2.1) ∧
  ∀ (s : State) (st : Setting), wfConfig s.config → s.Inv → s.cfg = some st → MeanEnergyNearOne st.order s.amp

/-! ### Binary64 -/

/-- R9, R13: the difference of finite operands is the exact one rounded to nearest, ties to even, and overflows to the
infinity of its sign (log 8). -/
def Obligations.DifferenceIsNearest : Prop :=
  ∀ a b : Word, isFinite a = true → isFinite b = true → RoundsTo (fpValue a - fpValue b) 1 (fsub a b)

/-- R9, R13: the product of finite operands is the exact one rounded to nearest, ties to even, and so is their
quotient, by which CFG computes AMP (R101), where the divisor is not a zero. Both take the exclusive or of the signs.
By a zero, a value that is none gives the infinity of that sign, and a zero gives a NaN (log 8). -/
def Obligations.ProductIsNearest : Prop :=
  ∀ a b : Word, isFinite a = true → isFinite b = true →
    RoundsTo (fpValue a * fpValue b) (2 ^ 1074) (fmul a b) ∧ fpSign (fmul a b) = (fpSign a != fpSign b) ∧
    (fpMag b ≠ 0 →
      RoundsTo (fpValue a * 2 ^ 1074 * (fpValue b).sign) (fpValue b).natAbs (fdiv a b) ∧
      fpSign (fdiv a b) = (fpSign a != fpSign b)) ∧
    (fpMag b = 0 → fpMag a ≠ 0 → fdiv a b = fpInf (fpSign a != fpSign b)) ∧
    (fpMag b = 0 → fpMag a = 0 → isNaN (fdiv a b) = true)

/-- R13: `rint` gives a nearest integer, with the tie rule of QUANT_TIE, and `toInt` is that integer. -/
def Obligations.RintIsNearestInteger : Prop :=
  ∀ (tie : TieRule) (a : Word), isFinite a = true →
    isFinite (rint tie a) = true ∧ fpValue (rint tie a) = toInt (rint tie a) * 2 ^ 1074 ∧
    2 * (fpValue (rint tie a) - fpValue a).natAbs ≤ 2 ^ 1074 ∧
    (2 * (fpValue (rint tie a) - fpValue a).natAbs = 2 ^ 1074 →
      (tie = .even → toInt (rint tie a) % 2 = 0) ∧
      (tie = .away → (fpValue a).natAbs < (fpValue (rint tie a)).natAbs))

/-- R13: `f64` is exact on every integer of magnitude at most 2^53, and `toInt` inverts it. -/
def Obligations.IntegersConvertExactly : Prop :=
  ∀ n : Int, n.natAbs ≤ 2 ^ 53 → isFinite (f64 n) = true ∧ fpValue (f64 n) = n * 2 ^ 1074 ∧ toInt (f64 n) = n

/-- R13: `flt` orders the finite values, puts the infinities at their ends, as the comparisons of R107 ask, is false on
a NaN, and does not tell the zeros apart; `fabs` clears the sign bit alone. -/
def Obligations.ComparisonOrdersValues : Prop :=
  (∀ a b : Word, isFinite a = true → isFinite b = true → (flt a b = true ↔ fpValue a < fpValue b)) ∧
  (∀ a : Word, flt a (fpInf false) = (!isNaN a && a != fpInf false)) ∧
  (∀ a : Word, flt (fpInf true) a = (!isNaN a && a != fpInf true)) ∧
  (∀ a : Word, flt (fpInf false) a = false ∧ flt a (fpInf true) = false) ∧
  (∀ a b : Word, isNaN a = true ∨ isNaN b = true → flt a b = false) ∧
  flt 0x8000000000000000 0 = false ∧
  ∀ (a : Word) (j : Nat), (fabs a).getLsbD j = (if j = 63 then false else a.getLsbD j)
end

