-- ==== Sys2Proof/Laws/State.lean ====
section
/-! SUPPORT. One lemma per field of State per named update of it, so that no later proof unfolds a record
update. -/

namespace Sys2Proof.Machine

variable (s : State)

/-! ### recordFault -/

@[simp] theorem State.recordFault_config (v : Word) (c : FaultCode) : (s.recordFault v c).config = s.config := by unfold State.recordFault; split <;> rfl
@[simp] theorem State.recordFault_cfg (v : Word) (c : FaultCode) : (s.recordFault v c).cfg = s.cfg := by unfold State.recordFault; split <;> rfl
@[simp] theorem State.recordFault_fault (v : Word) (c : FaultCode) : (s.recordFault v c).fault = true := by unfold State.recordFault; cases s.fault <;> simp
@[simp] theorem State.recordFault_multi (v : Word) (c : FaultCode) : (s.recordFault v c).multi = (s.multi || s.fault) := by unfold State.recordFault; cases s.fault <;> simp
@[simp] theorem State.recordFault_buserr (v : Word) (c : FaultCode) : (s.recordFault v c).buserr = s.buserr := by unfold State.recordFault; split <;> rfl
@[simp] theorem State.recordFault_errcode (v : Word) (c : FaultCode) : (s.recordFault v c).errcode = (if s.fault then s.errcode else c.code) := by unfold State.recordFault; cases s.fault <;> simp
@[simp] theorem State.recordFault_result (v : Word) (c : FaultCode) : (s.recordFault v c).result = s.result := by unfold State.recordFault; split <;> rfl
@[simp] theorem State.recordFault_faultcmd (v : Word) (c : FaultCode) : (s.recordFault v c).faultcmd = (if s.fault then s.faultcmd else v) := by unfold State.recordFault; cases s.fault <;> simp
@[simp] theorem State.recordFault_symRe (v : Word) (c : FaultCode) : (s.recordFault v c).symRe = s.symRe := by unfold State.recordFault; split <;> rfl
@[simp] theorem State.recordFault_symIm (v : Word) (c : FaultCode) : (s.recordFault v c).symIm = s.symIm := by unfold State.recordFault; split <;> rfl
@[simp] theorem State.recordFault_prec (v : Word) (c : FaultCode) : (s.recordFault v c).prec = s.prec := by unfold State.recordFault; split <;> rfl
@[simp] theorem State.recordFault_fac (v : Word) (c : FaultCode) : (s.recordFault v c).fac = s.fac := by unfold State.recordFault; split <;> rfl
@[simp] theorem State.recordFault_rcp (v : Word) (c : FaultCode) : (s.recordFault v c).rcp = s.rcp := by unfold State.recordFault; split <;> rfl
@[simp] theorem State.recordFault_amp (v : Word) (c : FaultCode) : (s.recordFault v c).amp = s.amp := by unfold State.recordFault; split <;> rfl
@[simp] theorem State.recordFault_dist (v : Word) (c : FaultCode) : (s.recordFault v c).dist = s.dist := by unfold State.recordFault; split <;> rfl
@[simp] theorem State.recordFault_mem (v : Word) (c : FaultCode) : (s.recordFault v c).mem = s.mem := by unfold State.recordFault; split <;> rfl
@[simp] theorem State.recordFault_resetAsserted (v : Word) (c : FaultCode) : (s.recordFault v c).resetAsserted = s.resetAsserted := by unfold State.recordFault; split <;> rfl
@[simp] theorem State.recordFault_epoch (v : Word) (c : FaultCode) : (s.recordFault v c).epoch = s.epoch := by unfold State.recordFault; split <;> rfl
@[simp] theorem State.recordFault_draws (v : Word) (c : FaultCode) : (s.recordFault v c).draws = s.draws := by unfold State.recordFault; split <;> rfl
@[simp] theorem State.recordFault_port (v : Word) (c : FaultCode) : (s.recordFault v c).port = s.port := by unfold State.recordFault; split <;> rfl
@[simp] theorem State.recordFault_reply (v : Word) (c : FaultCode) : (s.recordFault v c).reply = s.reply := by unfold State.recordFault; split <;> rfl

/-! ### clearStatus -/

@[simp] theorem State.clearStatus_config (v : Word) : (s.clearStatus v).config = s.config := rfl
@[simp] theorem State.clearStatus_cfg (v : Word) : (s.clearStatus v).cfg = s.cfg := rfl
@[simp] theorem State.clearStatus_fault (v : Word) : (s.clearStatus v).fault = (s.fault && !v.getLsbD 0) := rfl
@[simp] theorem State.clearStatus_multi (v : Word) : (s.clearStatus v).multi = (s.multi && !v.getLsbD 1) := rfl
@[simp] theorem State.clearStatus_buserr (v : Word) : (s.clearStatus v).buserr = (s.buserr && !v.getLsbD 2) := rfl
@[simp] theorem State.clearStatus_errcode (v : Word) : (s.clearStatus v).errcode = (if v.getLsbD 0 then 0 else s.errcode) := rfl
@[simp] theorem State.clearStatus_result (v : Word) : (s.clearStatus v).result = s.result := rfl
@[simp] theorem State.clearStatus_faultcmd (v : Word) : (s.clearStatus v).faultcmd = (if v.getLsbD 0 then 0 else s.faultcmd) := rfl
@[simp] theorem State.clearStatus_symRe (v : Word) : (s.clearStatus v).symRe = s.symRe := rfl
@[simp] theorem State.clearStatus_symIm (v : Word) : (s.clearStatus v).symIm = s.symIm := rfl
@[simp] theorem State.clearStatus_prec (v : Word) : (s.clearStatus v).prec = s.prec := rfl
@[simp] theorem State.clearStatus_fac (v : Word) : (s.clearStatus v).fac = s.fac := rfl
@[simp] theorem State.clearStatus_rcp (v : Word) : (s.clearStatus v).rcp = s.rcp := rfl
@[simp] theorem State.clearStatus_amp (v : Word) : (s.clearStatus v).amp = s.amp := rfl
@[simp] theorem State.clearStatus_dist (v : Word) : (s.clearStatus v).dist = s.dist := rfl
@[simp] theorem State.clearStatus_mem (v : Word) : (s.clearStatus v).mem = s.mem := rfl
@[simp] theorem State.clearStatus_resetAsserted (v : Word) : (s.clearStatus v).resetAsserted = s.resetAsserted := rfl
@[simp] theorem State.clearStatus_epoch (v : Word) : (s.clearStatus v).epoch = s.epoch := rfl
@[simp] theorem State.clearStatus_draws (v : Word) : (s.clearStatus v).draws = s.draws := rfl
@[simp] theorem State.clearStatus_port (v : Word) : (s.clearStatus v).port = s.port := rfl
@[simp] theorem State.clearStatus_reply (v : Word) : (s.clearStatus v).reply = s.reply := rfl

/-! ### setBuserr -/

@[simp] theorem State.setBuserr_config : (s.setBuserr).config = s.config := rfl
@[simp] theorem State.setBuserr_cfg : (s.setBuserr).cfg = s.cfg := rfl
@[simp] theorem State.setBuserr_fault : (s.setBuserr).fault = s.fault := rfl
@[simp] theorem State.setBuserr_multi : (s.setBuserr).multi = s.multi := rfl
@[simp] theorem State.setBuserr_buserr : (s.setBuserr).buserr = true := rfl
@[simp] theorem State.setBuserr_errcode : (s.setBuserr).errcode = s.errcode := rfl
@[simp] theorem State.setBuserr_result : (s.setBuserr).result = s.result := rfl
@[simp] theorem State.setBuserr_faultcmd : (s.setBuserr).faultcmd = s.faultcmd := rfl
@[simp] theorem State.setBuserr_symRe : (s.setBuserr).symRe = s.symRe := rfl
@[simp] theorem State.setBuserr_symIm : (s.setBuserr).symIm = s.symIm := rfl
@[simp] theorem State.setBuserr_prec : (s.setBuserr).prec = s.prec := rfl
@[simp] theorem State.setBuserr_fac : (s.setBuserr).fac = s.fac := rfl
@[simp] theorem State.setBuserr_rcp : (s.setBuserr).rcp = s.rcp := rfl
@[simp] theorem State.setBuserr_amp : (s.setBuserr).amp = s.amp := rfl
@[simp] theorem State.setBuserr_dist : (s.setBuserr).dist = s.dist := rfl
@[simp] theorem State.setBuserr_mem : (s.setBuserr).mem = s.mem := rfl
@[simp] theorem State.setBuserr_resetAsserted : (s.setBuserr).resetAsserted = s.resetAsserted := rfl
@[simp] theorem State.setBuserr_epoch : (s.setBuserr).epoch = s.epoch := rfl
@[simp] theorem State.setBuserr_draws : (s.setBuserr).draws = s.draws := rfl
@[simp] theorem State.setBuserr_port : (s.setBuserr).port = s.port := rfl
@[simp] theorem State.setBuserr_reply : (s.setBuserr).reply = s.reply := rfl

/-! ### setResult -/

@[simp] theorem State.setResult_config (v : Word) : (s.setResult v).config = s.config := rfl
@[simp] theorem State.setResult_cfg (v : Word) : (s.setResult v).cfg = s.cfg := rfl
@[simp] theorem State.setResult_fault (v : Word) : (s.setResult v).fault = s.fault := rfl
@[simp] theorem State.setResult_multi (v : Word) : (s.setResult v).multi = s.multi := rfl
@[simp] theorem State.setResult_buserr (v : Word) : (s.setResult v).buserr = s.buserr := rfl
@[simp] theorem State.setResult_errcode (v : Word) : (s.setResult v).errcode = s.errcode := rfl
@[simp] theorem State.setResult_result (v : Word) : (s.setResult v).result = v := rfl
@[simp] theorem State.setResult_faultcmd (v : Word) : (s.setResult v).faultcmd = s.faultcmd := rfl
@[simp] theorem State.setResult_symRe (v : Word) : (s.setResult v).symRe = s.symRe := rfl
@[simp] theorem State.setResult_symIm (v : Word) : (s.setResult v).symIm = s.symIm := rfl
@[simp] theorem State.setResult_prec (v : Word) : (s.setResult v).prec = s.prec := rfl
@[simp] theorem State.setResult_fac (v : Word) : (s.setResult v).fac = s.fac := rfl
@[simp] theorem State.setResult_rcp (v : Word) : (s.setResult v).rcp = s.rcp := rfl
@[simp] theorem State.setResult_amp (v : Word) : (s.setResult v).amp = s.amp := rfl
@[simp] theorem State.setResult_dist (v : Word) : (s.setResult v).dist = s.dist := rfl
@[simp] theorem State.setResult_mem (v : Word) : (s.setResult v).mem = s.mem := rfl
@[simp] theorem State.setResult_resetAsserted (v : Word) : (s.setResult v).resetAsserted = s.resetAsserted := rfl
@[simp] theorem State.setResult_epoch (v : Word) : (s.setResult v).epoch = s.epoch := rfl
@[simp] theorem State.setResult_draws (v : Word) : (s.setResult v).draws = s.draws := rfl
@[simp] theorem State.setResult_port (v : Word) : (s.setResult v).port = s.port := rfl
@[simp] theorem State.setResult_reply (v : Word) : (s.setResult v).reply = s.reply := rfl

/-! ### setSymbol -/

@[simp] theorem State.setSymbol_config (re im : Word) : (s.setSymbol re im).config = s.config := rfl
@[simp] theorem State.setSymbol_cfg (re im : Word) : (s.setSymbol re im).cfg = s.cfg := rfl
@[simp] theorem State.setSymbol_fault (re im : Word) : (s.setSymbol re im).fault = s.fault := rfl
@[simp] theorem State.setSymbol_multi (re im : Word) : (s.setSymbol re im).multi = s.multi := rfl
@[simp] theorem State.setSymbol_buserr (re im : Word) : (s.setSymbol re im).buserr = s.buserr := rfl
@[simp] theorem State.setSymbol_errcode (re im : Word) : (s.setSymbol re im).errcode = s.errcode := rfl
@[simp] theorem State.setSymbol_result (re im : Word) : (s.setSymbol re im).result = s.result := rfl
@[simp] theorem State.setSymbol_faultcmd (re im : Word) : (s.setSymbol re im).faultcmd = s.faultcmd := rfl
@[simp] theorem State.setSymbol_symRe (re im : Word) : (s.setSymbol re im).symRe = re := rfl
@[simp] theorem State.setSymbol_symIm (re im : Word) : (s.setSymbol re im).symIm = im := rfl
@[simp] theorem State.setSymbol_prec (re im : Word) : (s.setSymbol re im).prec = s.prec := rfl
@[simp] theorem State.setSymbol_fac (re im : Word) : (s.setSymbol re im).fac = s.fac := rfl
@[simp] theorem State.setSymbol_rcp (re im : Word) : (s.setSymbol re im).rcp = s.rcp := rfl
@[simp] theorem State.setSymbol_amp (re im : Word) : (s.setSymbol re im).amp = s.amp := rfl
@[simp] theorem State.setSymbol_dist (re im : Word) : (s.setSymbol re im).dist = s.dist := rfl
@[simp] theorem State.setSymbol_mem (re im : Word) : (s.setSymbol re im).mem = s.mem := rfl
@[simp] theorem State.setSymbol_resetAsserted (re im : Word) : (s.setSymbol re im).resetAsserted = s.resetAsserted := rfl
@[simp] theorem State.setSymbol_epoch (re im : Word) : (s.setSymbol re im).epoch = s.epoch := rfl
@[simp] theorem State.setSymbol_draws (re im : Word) : (s.setSymbol re im).draws = s.draws := rfl
@[simp] theorem State.setSymbol_port (re im : Word) : (s.setSymbol re im).port = s.port := rfl
@[simp] theorem State.setSymbol_reply (re im : Word) : (s.setSymbol re im).reply = s.reply := rfl

/-! ### setPrec -/

@[simp] theorem State.setPrec_config (v : Word) : (s.setPrec v).config = s.config := rfl
@[simp] theorem State.setPrec_cfg (v : Word) : (s.setPrec v).cfg = s.cfg := rfl
@[simp] theorem State.setPrec_fault (v : Word) : (s.setPrec v).fault = s.fault := rfl
@[simp] theorem State.setPrec_multi (v : Word) : (s.setPrec v).multi = s.multi := rfl
@[simp] theorem State.setPrec_buserr (v : Word) : (s.setPrec v).buserr = s.buserr := rfl
@[simp] theorem State.setPrec_errcode (v : Word) : (s.setPrec v).errcode = s.errcode := rfl
@[simp] theorem State.setPrec_result (v : Word) : (s.setPrec v).result = s.result := rfl
@[simp] theorem State.setPrec_faultcmd (v : Word) : (s.setPrec v).faultcmd = s.faultcmd := rfl
@[simp] theorem State.setPrec_symRe (v : Word) : (s.setPrec v).symRe = s.symRe := rfl
@[simp] theorem State.setPrec_symIm (v : Word) : (s.setPrec v).symIm = s.symIm := rfl
@[simp] theorem State.setPrec_prec (v : Word) : (s.setPrec v).prec = v := rfl
@[simp] theorem State.setPrec_fac (v : Word) : (s.setPrec v).fac = s.fac := rfl
@[simp] theorem State.setPrec_rcp (v : Word) : (s.setPrec v).rcp = s.rcp := rfl
@[simp] theorem State.setPrec_amp (v : Word) : (s.setPrec v).amp = s.amp := rfl
@[simp] theorem State.setPrec_dist (v : Word) : (s.setPrec v).dist = s.dist := rfl
@[simp] theorem State.setPrec_mem (v : Word) : (s.setPrec v).mem = s.mem := rfl
@[simp] theorem State.setPrec_resetAsserted (v : Word) : (s.setPrec v).resetAsserted = s.resetAsserted := rfl
@[simp] theorem State.setPrec_epoch (v : Word) : (s.setPrec v).epoch = s.epoch := rfl
@[simp] theorem State.setPrec_draws (v : Word) : (s.setPrec v).draws = s.draws := rfl
@[simp] theorem State.setPrec_port (v : Word) : (s.setPrec v).port = s.port := rfl
@[simp] theorem State.setPrec_reply (v : Word) : (s.setPrec v).reply = s.reply := rfl

/-! ### loadSetting -/

@[simp] theorem State.loadSetting_config (st : Setting) : (s.loadSetting st).config = s.config := rfl
@[simp] theorem State.loadSetting_cfg (st : Setting) : (s.loadSetting st).cfg = some st := rfl
@[simp] theorem State.loadSetting_fault (st : Setting) : (s.loadSetting st).fault = s.fault := rfl
@[simp] theorem State.loadSetting_multi (st : Setting) : (s.loadSetting st).multi = s.multi := rfl
@[simp] theorem State.loadSetting_buserr (st : Setting) : (s.loadSetting st).buserr = s.buserr := rfl
@[simp] theorem State.loadSetting_errcode (st : Setting) : (s.loadSetting st).errcode = s.errcode := rfl
@[simp] theorem State.loadSetting_result (st : Setting) : (s.loadSetting st).result = s.result := rfl
@[simp] theorem State.loadSetting_faultcmd (st : Setting) : (s.loadSetting st).faultcmd = s.faultcmd := rfl
@[simp] theorem State.loadSetting_symRe (st : Setting) : (s.loadSetting st).symRe = s.symRe := rfl
@[simp] theorem State.loadSetting_symIm (st : Setting) : (s.loadSetting st).symIm = s.symIm := rfl
@[simp] theorem State.loadSetting_prec (st : Setting) : (s.loadSetting st).prec = s.prec := rfl
@[simp] theorem State.loadSetting_fac (st : Setting) : (s.loadSetting st).fac = facOf s.config.facTable st.order := rfl
@[simp] theorem State.loadSetting_rcp (st : Setting) : (s.loadSetting st).rcp = rcpOf s.config.facTable st.order := rfl
@[simp] theorem State.loadSetting_amp (st : Setting) : (s.loadSetting st).amp = ampOf s.config.facTable st.order := rfl
@[simp] theorem State.loadSetting_dist (st : Setting) : (s.loadSetting st).dist = distOf s.config.facTable st.order := rfl
@[simp] theorem State.loadSetting_mem (st : Setting) : (s.loadSetting st).mem = s.mem := rfl
@[simp] theorem State.loadSetting_resetAsserted (st : Setting) : (s.loadSetting st).resetAsserted = s.resetAsserted := rfl
@[simp] theorem State.loadSetting_epoch (st : Setting) : (s.loadSetting st).epoch = s.epoch := rfl
@[simp] theorem State.loadSetting_draws (st : Setting) : (s.loadSetting st).draws = s.draws := rfl
@[simp] theorem State.loadSetting_port (st : Setting) : (s.loadSetting st).port = s.port := rfl
@[simp] theorem State.loadSetting_reply (st : Setting) : (s.loadSetting st).reply = s.reply := rfl

/-! ### writeCell -/

@[simp] theorem State.writeCell_config (i : Nat) (w : Word) : (s.writeCell i w).config = s.config := rfl
@[simp] theorem State.writeCell_cfg (i : Nat) (w : Word) : (s.writeCell i w).cfg = s.cfg := rfl
@[simp] theorem State.writeCell_fault (i : Nat) (w : Word) : (s.writeCell i w).fault = s.fault := rfl
@[simp] theorem State.writeCell_multi (i : Nat) (w : Word) : (s.writeCell i w).multi = s.multi := rfl
@[simp] theorem State.writeCell_buserr (i : Nat) (w : Word) : (s.writeCell i w).buserr = s.buserr := rfl
@[simp] theorem State.writeCell_errcode (i : Nat) (w : Word) : (s.writeCell i w).errcode = s.errcode := rfl
@[simp] theorem State.writeCell_result (i : Nat) (w : Word) : (s.writeCell i w).result = s.result := rfl
@[simp] theorem State.writeCell_faultcmd (i : Nat) (w : Word) : (s.writeCell i w).faultcmd = s.faultcmd := rfl
@[simp] theorem State.writeCell_symRe (i : Nat) (w : Word) : (s.writeCell i w).symRe = s.symRe := rfl
@[simp] theorem State.writeCell_symIm (i : Nat) (w : Word) : (s.writeCell i w).symIm = s.symIm := rfl
@[simp] theorem State.writeCell_prec (i : Nat) (w : Word) : (s.writeCell i w).prec = s.prec := rfl
@[simp] theorem State.writeCell_fac (i : Nat) (w : Word) : (s.writeCell i w).fac = s.fac := rfl
@[simp] theorem State.writeCell_rcp (i : Nat) (w : Word) : (s.writeCell i w).rcp = s.rcp := rfl
@[simp] theorem State.writeCell_amp (i : Nat) (w : Word) : (s.writeCell i w).amp = s.amp := rfl
@[simp] theorem State.writeCell_dist (i : Nat) (w : Word) : (s.writeCell i w).dist = s.dist := rfl
@[simp] theorem State.writeCell_mem (i : Nat) (w : Word) : (s.writeCell i w).mem = memWriteCell s.mem i w := rfl
@[simp] theorem State.writeCell_resetAsserted (i : Nat) (w : Word) : (s.writeCell i w).resetAsserted = s.resetAsserted := rfl
@[simp] theorem State.writeCell_epoch (i : Nat) (w : Word) : (s.writeCell i w).epoch = s.epoch := rfl
@[simp] theorem State.writeCell_draws (i : Nat) (w : Word) : (s.writeCell i w).draws = s.draws := rfl
@[simp] theorem State.writeCell_port (i : Nat) (w : Word) : (s.writeCell i w).port = s.port := rfl
@[simp] theorem State.writeCell_reply (i : Nat) (w : Word) : (s.writeCell i w).reply = s.reply := rfl

/-! ### writeCells -/

@[simp] theorem State.writeCells_config (ws : List (Nat × Word)) : (s.writeCells ws).config = s.config := rfl
@[simp] theorem State.writeCells_cfg (ws : List (Nat × Word)) : (s.writeCells ws).cfg = s.cfg := rfl
@[simp] theorem State.writeCells_fault (ws : List (Nat × Word)) : (s.writeCells ws).fault = s.fault := rfl
@[simp] theorem State.writeCells_multi (ws : List (Nat × Word)) : (s.writeCells ws).multi = s.multi := rfl
@[simp] theorem State.writeCells_buserr (ws : List (Nat × Word)) : (s.writeCells ws).buserr = s.buserr := rfl
@[simp] theorem State.writeCells_errcode (ws : List (Nat × Word)) : (s.writeCells ws).errcode = s.errcode := rfl
@[simp] theorem State.writeCells_result (ws : List (Nat × Word)) : (s.writeCells ws).result = s.result := rfl
@[simp] theorem State.writeCells_faultcmd (ws : List (Nat × Word)) : (s.writeCells ws).faultcmd = s.faultcmd := rfl
@[simp] theorem State.writeCells_symRe (ws : List (Nat × Word)) : (s.writeCells ws).symRe = s.symRe := rfl
@[simp] theorem State.writeCells_symIm (ws : List (Nat × Word)) : (s.writeCells ws).symIm = s.symIm := rfl
@[simp] theorem State.writeCells_prec (ws : List (Nat × Word)) : (s.writeCells ws).prec = s.prec := rfl
@[simp] theorem State.writeCells_fac (ws : List (Nat × Word)) : (s.writeCells ws).fac = s.fac := rfl
@[simp] theorem State.writeCells_rcp (ws : List (Nat × Word)) : (s.writeCells ws).rcp = s.rcp := rfl
@[simp] theorem State.writeCells_amp (ws : List (Nat × Word)) : (s.writeCells ws).amp = s.amp := rfl
@[simp] theorem State.writeCells_dist (ws : List (Nat × Word)) : (s.writeCells ws).dist = s.dist := rfl
@[simp] theorem State.writeCells_mem (ws : List (Nat × Word)) : (s.writeCells ws).mem = memWriteCells s.mem ws := rfl
@[simp] theorem State.writeCells_resetAsserted (ws : List (Nat × Word)) : (s.writeCells ws).resetAsserted = s.resetAsserted := rfl
@[simp] theorem State.writeCells_epoch (ws : List (Nat × Word)) : (s.writeCells ws).epoch = s.epoch := rfl
@[simp] theorem State.writeCells_draws (ws : List (Nat × Word)) : (s.writeCells ws).draws = s.draws := rfl
@[simp] theorem State.writeCells_port (ws : List (Nat × Word)) : (s.writeCells ws).port = s.port := rfl
@[simp] theorem State.writeCells_reply (ws : List (Nat × Word)) : (s.writeCells ws).reply = s.reply := rfl

/-! ### answer -/

@[simp] theorem State.answer_config (v : Word) : (s.answer v).config = s.config := rfl
@[simp] theorem State.answer_cfg (v : Word) : (s.answer v).cfg = s.cfg := rfl
@[simp] theorem State.answer_fault (v : Word) : (s.answer v).fault = s.fault := rfl
@[simp] theorem State.answer_multi (v : Word) : (s.answer v).multi = s.multi := rfl
@[simp] theorem State.answer_buserr (v : Word) : (s.answer v).buserr = s.buserr := rfl
@[simp] theorem State.answer_errcode (v : Word) : (s.answer v).errcode = s.errcode := rfl
@[simp] theorem State.answer_result (v : Word) : (s.answer v).result = s.result := rfl
@[simp] theorem State.answer_faultcmd (v : Word) : (s.answer v).faultcmd = s.faultcmd := rfl
@[simp] theorem State.answer_symRe (v : Word) : (s.answer v).symRe = s.symRe := rfl
@[simp] theorem State.answer_symIm (v : Word) : (s.answer v).symIm = s.symIm := rfl
@[simp] theorem State.answer_prec (v : Word) : (s.answer v).prec = s.prec := rfl
@[simp] theorem State.answer_fac (v : Word) : (s.answer v).fac = s.fac := rfl
@[simp] theorem State.answer_rcp (v : Word) : (s.answer v).rcp = s.rcp := rfl
@[simp] theorem State.answer_amp (v : Word) : (s.answer v).amp = s.amp := rfl
@[simp] theorem State.answer_dist (v : Word) : (s.answer v).dist = s.dist := rfl
@[simp] theorem State.answer_mem (v : Word) : (s.answer v).mem = s.mem := rfl
@[simp] theorem State.answer_resetAsserted (v : Word) : (s.answer v).resetAsserted = s.resetAsserted := rfl
@[simp] theorem State.answer_epoch (v : Word) : (s.answer v).epoch = s.epoch := rfl
@[simp] theorem State.answer_draws (v : Word) : (s.answer v).draws = s.draws := rfl
@[simp] theorem State.answer_port (v : Word) : (s.answer v).port = s.port := rfl
@[simp] theorem State.answer_reply (v : Word) : (s.answer v).reply = some v := rfl

/-! ### takeEvent -/

@[simp] theorem State.takeEvent_config (rest : List HostEvent) : (s.takeEvent rest).config = s.config := rfl
@[simp] theorem State.takeEvent_cfg (rest : List HostEvent) : (s.takeEvent rest).cfg = s.cfg := rfl
@[simp] theorem State.takeEvent_fault (rest : List HostEvent) : (s.takeEvent rest).fault = s.fault := rfl
@[simp] theorem State.takeEvent_multi (rest : List HostEvent) : (s.takeEvent rest).multi = s.multi := rfl
@[simp] theorem State.takeEvent_buserr (rest : List HostEvent) : (s.takeEvent rest).buserr = s.buserr := rfl
@[simp] theorem State.takeEvent_errcode (rest : List HostEvent) : (s.takeEvent rest).errcode = s.errcode := rfl
@[simp] theorem State.takeEvent_result (rest : List HostEvent) : (s.takeEvent rest).result = s.result := rfl
@[simp] theorem State.takeEvent_faultcmd (rest : List HostEvent) : (s.takeEvent rest).faultcmd = s.faultcmd := rfl
@[simp] theorem State.takeEvent_symRe (rest : List HostEvent) : (s.takeEvent rest).symRe = s.symRe := rfl
@[simp] theorem State.takeEvent_symIm (rest : List HostEvent) : (s.takeEvent rest).symIm = s.symIm := rfl
@[simp] theorem State.takeEvent_prec (rest : List HostEvent) : (s.takeEvent rest).prec = s.prec := rfl
@[simp] theorem State.takeEvent_fac (rest : List HostEvent) : (s.takeEvent rest).fac = s.fac := rfl
@[simp] theorem State.takeEvent_rcp (rest : List HostEvent) : (s.takeEvent rest).rcp = s.rcp := rfl
@[simp] theorem State.takeEvent_amp (rest : List HostEvent) : (s.takeEvent rest).amp = s.amp := rfl
@[simp] theorem State.takeEvent_dist (rest : List HostEvent) : (s.takeEvent rest).dist = s.dist := rfl
@[simp] theorem State.takeEvent_mem (rest : List HostEvent) : (s.takeEvent rest).mem = s.mem := rfl
@[simp] theorem State.takeEvent_resetAsserted (rest : List HostEvent) : (s.takeEvent rest).resetAsserted = s.resetAsserted := rfl
@[simp] theorem State.takeEvent_epoch (rest : List HostEvent) : (s.takeEvent rest).epoch = s.epoch := rfl
@[simp] theorem State.takeEvent_draws (rest : List HostEvent) : (s.takeEvent rest).draws = s.draws := rfl
@[simp] theorem State.takeEvent_port (rest : List HostEvent) : (s.takeEvent rest).port = rest := rfl
@[simp] theorem State.takeEvent_reply (rest : List HostEvent) : (s.takeEvent rest).reply = none := rfl

/-! ### resetUnit -/

@[simp] theorem State.resetUnit_config : (s.resetUnit).config = s.config := rfl
@[simp] theorem State.resetUnit_cfg : (s.resetUnit).cfg = none := rfl
@[simp] theorem State.resetUnit_fault : (s.resetUnit).fault = false := rfl
@[simp] theorem State.resetUnit_multi : (s.resetUnit).multi = false := rfl
@[simp] theorem State.resetUnit_buserr : (s.resetUnit).buserr = false := rfl
@[simp] theorem State.resetUnit_errcode : (s.resetUnit).errcode = 0 := rfl
@[simp] theorem State.resetUnit_result : (s.resetUnit).result = 0 := rfl
@[simp] theorem State.resetUnit_faultcmd : (s.resetUnit).faultcmd = 0 := rfl
@[simp] theorem State.resetUnit_symRe : (s.resetUnit).symRe = 0 := rfl
@[simp] theorem State.resetUnit_symIm : (s.resetUnit).symIm = 0 := rfl
@[simp] theorem State.resetUnit_prec : (s.resetUnit).prec = 0 := rfl
@[simp] theorem State.resetUnit_fac : (s.resetUnit).fac = 0 := rfl
@[simp] theorem State.resetUnit_rcp : (s.resetUnit).rcp = 0 := rfl
@[simp] theorem State.resetUnit_amp : (s.resetUnit).amp = 0 := rfl
@[simp] theorem State.resetUnit_dist : (s.resetUnit).dist = 0 := rfl
@[simp] theorem State.resetUnit_mem : (s.resetUnit).mem = [] := rfl
@[simp] theorem State.resetUnit_resetAsserted : (s.resetUnit).resetAsserted = true := rfl
@[simp] theorem State.resetUnit_epoch : (s.resetUnit).epoch = s.epoch + 1 := rfl
@[simp] theorem State.resetUnit_draws : (s.resetUnit).draws = s.draws := rfl
@[simp] theorem State.resetUnit_port : (s.resetUnit).port = s.port := rfl
@[simp] theorem State.resetUnit_reply : (s.resetUnit).reply = s.reply := rfl

end Sys2Proof.Machine
end

