-- ==== Sys2Proof/Laws/Memory.lean ====
section
/-! SUPPORT. The laws of the code buffer: a read after a write, the bytes a write leaves alone, and that every
memory operation keeps the canonical form and the bounds of the buffer. -/

namespace Sys2Proof.Machine

/-! ### Little-endian bytes -/

@[simp] theorem leBytes_length (n v : Nat) : (leBytes n v).length = n := by
  induction n generalizing v with
  | zero => rfl
  | succ n ih => simp [leBytes, ih]

theorem leNat_leBytes (n v : Nat) : leNat (leBytes n v) = v % 256 ^ n := by
  induction n generalizing v with
  | zero => simp [leBytes, leNat, Nat.mod_one]
  | succ n ih =>
    rw [leBytes, leNat, ih, BitVec.toNat_ofNat, show 256 ^ (n + 1) = 256 * 256 ^ n from Nat.pow_succ', Nat.mod_mul]

@[simp] theorem bytesOfWord_length (w : Word) : (bytesOfWord w).length = 8 := leBytes_length 8 _

@[simp] theorem wordOfBytes_bytesOfWord (w : Word) : wordOfBytes (bytesOfWord w) = w := by
  apply BitVec.eq_of_toNat_eq
  have h := w.isLt
  simp only [wordOfBytes, bytesOfWord, leNat_leBytes, BitVec.toNat_ofNat]
  omega

/-! ### One byte -/

theorem memLookup_memInsert_same (m : Memory) (off : Nat) (v : Byte) :
    memLookup (memInsert m off v) off = some v := by
  induction m with
  | nil => simp [memInsert, memLookup]
  | cons c m ih =>
    obtain ⟨a, b⟩ := c
    simp only [memInsert]
    split
    · simp [memLookup]
    · split
      · simp [memLookup]
      · rw [memLookup, if_neg (by omega), ih]

theorem memLookup_memInsert_other (m : Memory) {off x : Nat} (v : Byte) (h : x ≠ off) :
    memLookup (memInsert m off v) x = memLookup m x := by
  induction m with
  | nil => simp [memInsert, memLookup, Ne.symm h]
  | cons c m ih =>
    obtain ⟨a, b⟩ := c
    simp only [memInsert]
    split
    · simp [memLookup, Ne.symm h]
    · split
      · rename_i h1 h2
        subst h2
        simp [memLookup, Ne.symm h]
      · simp only [memLookup, ih]

theorem mem_of_mem_memInsert {m : Memory} {off : Nat} {v : Byte} {c : Host.Cell}
    (h : c ∈ memInsert m off v) : c = (off, v) ∨ c ∈ m := by
  induction m with
  | nil => simpa [memInsert] using h
  | cons d m ih =>
    obtain ⟨a, b⟩ := d
    simp only [memInsert] at h
    split at h
    · simpa using h
    · split at h
      · rcases List.mem_cons.1 h with h | h
        · exact .inl h
        · exact .inr (List.mem_cons_of_mem _ h)
      · rcases List.mem_cons.1 h with h | h
        · exact .inr (h ▸ List.mem_cons_self)
        · exact (ih h).imp id (List.mem_cons_of_mem _)

theorem memInsert_rising {m : Memory} (h : m.Pairwise fun x y => x.1 < y.1) (off : Nat) (v : Byte) :
    (memInsert m off v).Pairwise fun x y => x.1 < y.1 := by
  induction m with
  | nil => simp [memInsert]
  | cons d m ih =>
    obtain ⟨a, b⟩ := d
    obtain ⟨hd, hm⟩ := List.pairwise_cons.1 h
    simp only [memInsert]
    split
    · refine List.pairwise_cons.2 ⟨fun c hc => ?_, h⟩
      rcases List.mem_cons.1 hc with rfl | hc
      · assumption
      · exact Nat.lt_trans ‹_› (hd c hc)
    · split
      · rename_i h1 h2
        subst h2
        exact List.pairwise_cons.2 ⟨hd, hm⟩
      · refine List.pairwise_cons.2 ⟨fun c hc => ?_, ih hm⟩
        rcases mem_of_mem_memInsert hc with rfl | hc
        · show a < off
          omega
        · exact hd c hc

/-- A write keeps the canonical form. -/
theorem memInsert_wf {m : Memory} (h : Memory.wf m) (off : Nat) (v : Byte) : Memory.wf (memInsert m off v) :=
  ⟨memInsert_rising h.1 off v, fun c _ => by simp [Memory.unlisted]⟩

/-! ### Bytes in a row -/

theorem memLookup_memInsertAll_outside (m : Memory) (off : Nat) (bs : List Byte) {x : Nat}
    (h : x < off ∨ off + bs.length ≤ x) : memLookup (memInsertAll m off bs) x = memLookup m x := by
  induction bs generalizing m off with
  | nil => rfl
  | cons b bs ih =>
    simp only [List.length_cons] at h
    rw [memInsertAll, ih _ _ (by omega), memLookup_memInsert_other _ _ (by omega)]

theorem memLookup_memInsertAll_inside (m : Memory) (off : Nat) (bs : List Byte) {k : Nat} (h : k < bs.length) :
    memLookup (memInsertAll m off bs) (off + k) = some bs[k] := by
  induction bs generalizing m off k with
  | nil => simp at h
  | cons b bs ih =>
    rw [memInsertAll]
    cases k with
    | zero =>
      rw [memLookup_memInsertAll_outside _ _ _ (by omega)]
      exact memLookup_memInsert_same _ _ _
    | succ k =>
      have hk : k < bs.length := by simpa using h
      have := ih (memInsert m off b) (off + 1) hk
      rw [show off + (k + 1) = off + 1 + k by omega, this]
      rfl

theorem memInsertAll_wf {m : Memory} (h : Memory.wf m) (off : Nat) (bs : List Byte) :
    Memory.wf (memInsertAll m off bs) := by
  induction bs generalizing m off with
  | nil => exact h
  | cons b bs ih => exact ih (memInsert_wf h off b) _

theorem mem_of_mem_memInsertAll {m : Memory} {off : Nat} {bs : List Byte} {c : Host.Cell}
    (h : c ∈ memInsertAll m off bs) : (off ≤ c.1 ∧ c.1 < off + bs.length) ∨ c ∈ m := by
  induction bs generalizing m off with
  | nil => exact .inr h
  | cons b bs ih =>
    simp only [List.length_cons]
    rcases ih h with h | h
    · exact .inl (by omega)
    · rcases mem_of_mem_memInsert h with rfl | h
      · exact .inl (by simp)
      · exact .inr h

/-! ### Cells -/

theorem memWriteCells_wf {m : Memory} (h : Memory.wf m) (ws : List (Nat × Word)) :
    Memory.wf (memWriteCells m ws) := by
  induction ws generalizing m with
  | nil => exact h
  | cons p ws ih => exact ih (memInsertAll_wf h _ _)

theorem mem_of_mem_memWriteCells {m : Memory} {ws : List (Nat × Word)} {c : Host.Cell}
    (h : c ∈ memWriteCells m ws) :
    (∃ p ∈ ws, cellOffset p.1 ≤ c.1 ∧ c.1 < cellOffset p.1 + 8) ∨ c ∈ m := by
  induction ws generalizing m with
  | nil => exact .inr h
  | cons p ws ih =>
    rcases ih h with ⟨q, hq, hc⟩ | h
    · exact .inl ⟨q, List.mem_cons_of_mem _ hq, hc⟩
    · rcases mem_of_mem_memInsertAll h with h | h
      · exact .inl ⟨p, List.mem_cons_self, by simpa using h⟩
      · exact .inr h

theorem memLookup_memWriteCells_outside (m : Memory) (ws : List (Nat × Word)) {x : Nat}
    (h : ∀ p ∈ ws, x < cellOffset p.1 ∨ cellOffset p.1 + 8 ≤ x) :
    memLookup (memWriteCells m ws) x = memLookup m x := by
  induction ws generalizing m with
  | nil => rfl
  | cons p ws ih =>
    rw [memWriteCells, ih _ fun q hq => h q (List.mem_cons_of_mem _ hq)]
    exact memLookup_memInsertAll_outside _ _ _ (by simpa using h p List.mem_cons_self)

/-- A byte outside the cells written reads as before. -/
theorem readByte_writeCells_outside (s : State) (ws : List (Nat × Word)) {off : Nat}
    (h : ∀ p ∈ ws, off < cellOffset p.1 ∨ cellOffset p.1 + 8 ≤ off) :
    (s.writeCells ws).readByte off = s.readByte off := by
  unfold State.readByte
  rw [State.writeCells_mem, memLookup_memWriteCells_outside _ _ h, State.writeCells_epoch]

theorem readBytes_congr {s t : State} {off : Nat} (n : Nat)
    (h : ∀ x, off ≤ x → x < off + n → t.readByte x = s.readByte x) : t.readBytes n off = s.readBytes n off := by
  induction n generalizing off with
  | zero => rfl
  | succ n ih =>
    rw [State.readBytes, State.readBytes, h off (by omega) (by omega), ih fun x h1 h2 => h x (by omega) (by omega)]

theorem readBytes_of_lookup {s : State} {off : Nat} (bs : List Byte)
    (h : ∀ k (hk : k < bs.length), memLookup s.mem (off + k) = some bs[k]) : s.readBytes bs.length off = bs := by
  induction bs generalizing off with
  | nil => rfl
  | cons b bs ih =>
    rw [List.length_cons, State.readBytes, ih fun k hk => ?_]
    · have h0 := h 0 (by simp)
      simp only [Nat.add_zero, List.getElem_cons_zero] at h0
      simp [State.readByte, h0]
    · have := h (k + 1) (by simpa using hk)
      rwa [show off + (k + 1) = off + 1 + k by omega] at this

/-- A cell reads back what was written to it. -/
@[simp] theorem readCell_writeCell_same (s : State) (i : Nat) (w : Word) : (s.writeCell i w).readCell i = w := by
  have h : (s.writeCell i w).readBytes (bytesOfWord w).length (cellOffset i) = bytesOfWord w :=
    readBytes_of_lookup _ fun k hk => memLookup_memInsertAll_inside _ _ _ hk
  rw [bytesOfWord_length] at h
  rw [State.readCell, h, wordOfBytes_bytesOfWord]

theorem readByte_writeCell_outside (s : State) (i : Nat) (w : Word) {off : Nat}
    (h : off < cellOffset i ∨ cellOffset i + 8 ≤ off) : (s.writeCell i w).readByte off = s.readByte off := by
  unfold State.readByte
  rw [State.writeCell_mem, State.writeCell_epoch, memWriteCell,
    memLookup_memInsertAll_outside _ _ _ (by simpa using h)]

/-- A write to one cell leaves every other cell alone. -/
theorem readCell_writeCell_other (s : State) {i j : Nat} (w : Word) (h : j ≠ i) :
    (s.writeCell i w).readCell j = s.readCell j := by
  unfold State.readCell
  rw [readBytes_congr 8 fun x h1 h2 => readByte_writeCell_outside s i w (by unfold cellOffset at *; omega)]

theorem writeCells_cons (s : State) (p : Nat × Word) (ws : List (Nat × Word)) :
    s.writeCells (p :: ws) = (s.writeCell p.1 p.2).writeCells ws := rfl

theorem readCell_writeCells_other (s : State) (ws : List (Nat × Word)) {j : Nat} (h : ∀ p ∈ ws, p.1 ≠ j) :
    (s.writeCells ws).readCell j = s.readCell j := by
  induction ws generalizing s with
  | nil => rfl
  | cons p ws ih =>
    rw [writeCells_cons, ih _ fun q hq => h q (List.mem_cons_of_mem _ hq),
      readCell_writeCell_other _ _ (Ne.symm (h p List.mem_cons_self))]

/-! ### Code slots -/

theorem slot_of_mem_slotWrites {base stride c : Nat} {ws : List Word} {p : Nat × Word}
    (h : p ∈ slotWrites base stride c ws) : ∃ d, c ≤ d ∧ d < c + ws.length ∧ p.1 = codeSlot base stride d := by
  induction ws generalizing c with
  | nil => simp [slotWrites] at h
  | cons w ws ih =>
    simp only [slotWrites, List.mem_cons] at h
    rcases h with rfl | h
    · exact ⟨c, by simp⟩
    · obtain ⟨d, h1, h2, h3⟩ := ih h
      exact ⟨d, by omega, by simp only [List.length_cons]; omega, h3⟩

theorem codeSlot_inj {base stride c d : Nat} (hs : stride ≠ 0) (h : codeSlot base stride c = codeSlot base stride d) :
    c = d := by
  unfold codeSlot at h
  exact Nat.eq_of_mul_eq_mul_right (Nat.pos_of_ne_zero hs) (by omega)

/-- Each code slot reads the word written to it: the slots of one command are distinct (R193). -/
theorem readCell_slotWrites (s : State) {base stride : Nat} (hs : stride ≠ 0) (c : Nat) (ws : List Word) {k : Nat}
    (hk : k < ws.length) :
    (s.writeCells (slotWrites base stride c ws)).readCell (codeSlot base stride (c + k)) = ws[k] := by
  induction ws generalizing s c k with
  | nil => simp at hk
  | cons w ws ih =>
    rw [slotWrites, writeCells_cons]
    cases k with
    | zero =>
      rw [readCell_writeCells_other]
      · simp
      · intro p hp heq
        obtain ⟨d, h1, _, h3⟩ := slot_of_mem_slotWrites hp
        have := codeSlot_inj hs (h3 ▸ heq)
        omega
    | succ k =>
      have hk' : k < ws.length := by simpa using hk
      rw [show c + (k + 1) = c + 1 + k by omega, ih _ (c + 1) hk']
      rfl

/-- Bytes outside the code slots are as before. -/
theorem readByte_slotWrites_outside (s : State) {base stride n off : Nat} (ws : List Word) (hn : ws.length ≤ n)
    (h : OutsideSlots base stride n off) : (s.writeCells (slotWrites base stride 0 ws)).readByte off = s.readByte off := by
  refine readByte_writeCells_outside _ _ fun p hp => ?_
  obtain ⟨d, _, h2, h3⟩ := slot_of_mem_slotWrites hp
  rw [h3]
  exact h d (by omega)

end Sys2Proof.Machine
end

