-- ==== Sys2Proof/Laws/Ops.lean ====
section
/-! SUPPORT. What each shared operation can do, said once: recording a fault, the end of a command, the checks of
the data commands, and which bytes an update of a register leaves alone (all of them). -/

namespace Sys2Proof.Machine

/-! ### Bytes under an update -/

/-- The bytes of the code buffer depend on memory and the reset draw alone. -/
theorem readByte_congr {s t : State} (hm : t.mem = s.mem) (he : t.epoch = s.epoch) : SameBuffer s t := fun off => by
  unfold State.readByte
  rw [hm, he]

theorem readCell_congr {s t : State} (hm : t.mem = s.mem) (he : t.epoch = s.epoch) (i : Nat) :
    t.readCell i = s.readCell i := by
  unfold State.readCell
  rw [readBytes_congr 8 fun x _ _ => readByte_congr hm he x]

/-! ### Faults -/

/-- The first fault is recorded with its code and word (R160). -/
theorem recordFault_first {s : State} (h : s.fault = false) (v : Word) (c : FaultCode) :
    s.recordFault v c = { s with fault := true, errcode := c.code, faultcmd := v } := by
  simp [State.recordFault, h]

/-- A later fault sets MULTI and nothing else (R160, R164). -/
theorem recordFault_later {s : State} (h : s.fault = true) (v : Word) (c : FaultCode) :
    s.recordFault v c = { s with multi := true } := by
  simp [State.recordFault, h]

/-- ERRCODE never gets a reserved code (R150). -/
theorem faultCode_range (c : FaultCode) : 1 ≤ c.code.toNat ∧ c.code.toNat ≤ 9 := by
  cases c <;> decide

/-- A command ends in a next state: its effect, or the record of its fault. -/
theorem complete_next (i : Instr) (s : State) (r : Except FaultCode State) :
    ∃ t, complete i s r = .next t ∧ ((r = .ok t) ∨ ∃ c, r = .error c ∧ t = s.recordFault (encode i) c) := by
  cases r with
  | ok t => exact ⟨t, rfl, .inl rfl⟩
  | error c => exact ⟨_, rfl, .inr ⟨c, rfl, rfl⟩⟩

@[simp] theorem complete_ok (i : Instr) (s t : State) : complete i s (.ok t) = .next t := rfl

@[simp] theorem complete_error (i : Instr) (s : State) (c : FaultCode) :
    complete i s (.error c) = .next (s.recordFault (encode i) c) := rfl

/-! ### The checks of the data commands -/

/-- The checks pass exactly when the unit is configured and the slots fit (R120). -/
theorem checkData_eq_ok {base stride : Nat} {s : State} {st : Setting} :
    checkData base stride s = .ok st ↔ s.cfg = some st ∧ SlotsFit s st base stride := by
  unfold checkData SlotsFit
  cases s.cfg with
  | none => simp
  | some st' =>
    dsimp only
    split
    · simp [*]
    · split
      · simp only [reduceCtorEq, false_iff]
        rintro ⟨h, -, h'⟩
        cases h
        omega
      · simp only [Except.ok.injEq, Option.some.injEq]
        constructor
        · rintro rfl
          exact ⟨rfl, by assumption, by omega⟩
        · exact fun h => h.1

theorem bits_pos (o : QamOrder) : 1 ≤ o.bits := by cases o <;> decide

theorem bits_eq_two_mul_depth (o : QamOrder) : o.bits = 2 * o.depth := by cases o <;> rfl

/-- Every slot of a command whose checks pass is a cell (R120). -/
theorem codeSlot_lt_cells {s : State} {st : Setting} {base stride c : Nat} (h : SlotsFit s st base stride)
    (hc : c < st.order.bits) : codeSlot base stride c < s.config.cells := by
  have : c * stride ≤ (st.order.bits - 1) * stride := Nat.mul_le_mul_right _ (by omega)
  unfold codeSlot
  omega

/-- `cfgFormat` is the format whose code the FMT field of CFG holds (R22). -/
theorem cfgWord_fmt (c : Option Setting) : (cfgWord c).extractLsb' 4 2 = BitVec.ofNat 2 (cfgFormat c).code := by
  obtain _ | ⟨o, f⟩ := c
  · decide
  · cases o <;> cases f <;> decide

end Sys2Proof.Machine
end

