-- ==== Sys2Proof/Laws/Slicer.lean ====
section
/-! SUPPORT. Shapes of the slicer and the mapper: how many levels a fold has, where a code index finds its level,
and how many words a command writes. -/

namespace Sys2Proof.Machine

@[simp] theorem stepSizes_length (k : Nat) : (stepSizes k).length = k - 1 := by
  induction k using stepSizes.induct with
  | case1 => rfl
  | case2 => rfl
  | case3 k ih => simp [stepSizes, ih]

@[simp] theorem thresholds_length (amp : Word) (k : Nat) : (thresholds amp k).length = k - 1 := by
  simp [thresholds]

@[simp] theorem foldLevels_length (r : Word) (as : List Word) : (foldLevels r as).length = as.length := by
  induction as generalizing r with
  | nil => rfl
  | cons a as ih => simp [foldLevels, ih]

/-- A fold at depth k has k levels (R121). -/
theorem fold_length (amp : Word) {k : Nat} (hk : 1 ≤ k) (x : Word) : (fold amp k x).length = k := by
  simp [fold]
  omega

theorem depth_pos (o : QamOrder) : 1 ≤ o.depth := by cases o <;> decide

theorem interleave_length {α : Type} (xs ys : List α) (h : xs.length = ys.length) :
    (interleave xs ys).length = 2 * xs.length := by
  induction xs generalizing ys with
  | nil => simp [interleave]
  | cons x xs ih =>
    cases ys with
    | nil => simp at h
    | cons y ys =>
      have := ih ys (by simpa using h)
      simp [interleave, this]
      omega

/-- Even indices come from the first list, odd ones from the second (R14). -/
theorem interleave_get? {α : Type} (xs ys : List α) (h : xs.length = ys.length) (c : Nat) :
    (interleave xs ys)[c]? = (if c % 2 = 0 then xs else ys)[c / 2]? := by
  induction xs generalizing ys c with
  | nil =>
    cases ys with
    | nil => simp [interleave]
    | cons y ys => simp at h
  | cons x xs ih =>
    cases ys with
    | nil => simp at h
    | cons y ys =>
      match c with
      | 0 => simp [interleave]
      | 1 => simp [interleave]
      | c + 2 =>
        have := ih ys (by simpa using h) c
        simp only [interleave, List.getElem?_cons_succ, this]
        have h1 : (c + 2) % 2 = c % 2 := by omega
        have h2 : (c + 2) / 2 = c / 2 + 1 := by omega
        rw [h1, h2]
        split <;> simp

/-- One level per code index. -/
theorem foldSymbol_length (amp re im : Word) (o : QamOrder) : (foldSymbol amp o.depth re im).length = o.bits := by
  unfold foldSymbol
  rw [interleave_length, fold_length _ (depth_pos o), bits_eq_two_mul_depth]
  rw [fold_length _ (depth_pos o), fold_length _ (depth_pos o)]

/-- Code index c finds the level of its axis (R14). -/
theorem foldSymbol_get? (st : Setting) (s : State) (c : Nat) :
    (foldSymbol s.amp st.order.depth s.symRe s.symIm)[c]? = codeLevel? st s c := by
  unfold foldSymbol codeLevel?
  rw [interleave_get?]
  · split <;> rfl
  · rw [fold_length _ (depth_pos _), fold_length _ (depth_pos _)]

@[simp] theorem hardWords_length (st : Setting) (s : State) : (hardWords st s).length = st.order.bits := by
  simp [hardWords, foldSymbol_length]

@[simp] theorem resolveCodes_length (rule : OverflowRule) (n : Nat) (qs : List Quantized) :
    (resolveCodes rule n qs).length = qs.length := by
  induction qs generalizing n with
  | nil => rfl
  | cons q qs ih => simp [resolveCodes, ih]

@[simp] theorem softWords_length (st : Setting) (s : State) : (softWords st s).length = st.order.bits := by
  simp [softWords, softQuantized, foldSymbol_length]

/-- The codes of the two axes, put together again, are the codes (R14). -/
theorem interleave_realCodes_imagCodes {α : Type} (k : Nat) (b : List α) (h : b.length = 2 * k) :
    interleave (realCodes b) (imagCodes b) = b := by
  induction k generalizing b with
  | zero => simp [List.length_eq_zero_iff.1 h, realCodes, imagCodes, interleave]
  | succ k ih =>
    match b, h with
    | x :: y :: rest, h =>
      simp only [realCodes, imagCodes, interleave]
      rw [ih rest (by simp at h; omega)]

end Sys2Proof.Machine
end

