-- ==== Sys2Proof/Laws/Exec.lean ====
section
/-! SUPPORT. What a command can do, said once: every invariant of commands is derived from it and not from the
meanings. -/

namespace Sys2Proof.Machine

/-- What a command leaves: the record of one fault, or one of the four effects. -/
inductive CommandResult (i : Instr) (s : State) : State → Prop where
  | faulted (c : FaultCode) : CommandResult i s (s.recordFault (encode i) c)
  | configured (st : Setting) : CommandResult i s (s.loadSetting st)
  | reported (st : Setting) (h : s.cfg = some st) : CommandResult i s (s.setResult (BitVec.ofNat 64 st.order.bits))
  | sliced (ws : List (Nat × Word)) (d : Nat) (h : ∀ p ∈ ws, p.1 < s.config.cells) :
      CommandResult i s { s.writeCells ws with draws := d }
  | mapped (re im : Word) : CommandResult i s (s.setSymbol re im)

theorem slotWrites_lt_cells {s : State} {st : Setting} {base stride : Nat} (h : SlotsFit s st base stride)
    {ws : List Word} (hw : ws.length = st.order.bits) : ∀ p ∈ slotWrites base stride 0 ws, p.1 < s.config.cells := by
  intro p hp
  obtain ⟨d, -, hd, hp⟩ := slot_of_mem_slotWrites hp
  exact hp ▸ codeSlot_lt_cells h (by omega)

/-- The effects of the five commands. -/
theorem exec_cases {i : Instr} {s t : State} (h : exec i s = .next t) : CommandResult i s t := by
  have key : ∀ {r : Except FaultCode State}, complete i s r = .next t → (∀ u, r = .ok u → CommandResult i s u) →
      CommandResult i s t := by
    intro r hr hok
    cases r with
    | ok u => cases hr; exact hok _ rfl
    | error c => cases hr; exact .faulted c
  cases i with
  | cfg order fmt =>
    refine key h fun u hu => ?_
    unfold cfgEffect at hu
    split at hu <;> try cases hu
    split at hu <;> cases hu
    exact .configured _
  | bits =>
    refine key h fun u hu => ?_
    unfold bitsEffect at hu
    split at hu <;> cases hu
    exact .reported _ ‹_›
  | hard base stride =>
    refine key h fun u hu => ?_
    unfold hardEffect at hu
    split at hu
    · cases hu
    · rename_i st hc
      split at hu <;> cases hu
      have hw := slotWrites_lt_cells (checkData_eq_ok.1 hc).2 (hardWords_length st s)
      generalize slotWrites base stride 0 (hardWords st s) = ws at hw ⊢
      exact CommandResult.sliced ws s.draws hw
  | soft base stride =>
    refine key h fun u hu => ?_
    unfold softEffect at hu
    split at hu
    · cases hu
    · rename_i st hc
      split at hu
      · split at hu <;> cases hu
        have hw := slotWrites_lt_cells (checkData_eq_ok.1 hc).2 (softWords_length st s)
        generalize slotWrites base stride 0 (softWords st s) = ws at hw ⊢
        exact CommandResult.sliced ws _ hw
      · cases hu
  | map base stride =>
    refine key h fun u hu => ?_
    unfold mapEffect at hu
    split at hu
    · cases hu
    · split at hu <;> cases hu
      exact .mapped _ _

/-- STATUS and FAULTCMD as given, all else as in `s`. -/
abbrev withRecord (s : State) (f m : Bool) (e : Byte) (w : Word) : State :=
  { s with fault := f, multi := m, errcode := e, faultcmd := w }

/-- A command does the same whatever STATUS and FAULTCMD hold (R162): it records the same fault, or it has the same
effect and leaves them as they were. -/
theorem exec_ignores_record (i : Instr) (s : State) (f m : Bool) (e : Byte) (w : Word) :
    (∃ c, (exec i s = .next (s.recordFault (encode i) c)) ∧
      exec i (withRecord s f m e w) = .next ((withRecord s f m e w).recordFault (encode i) c)) ∨
    (∃ t, exec i s = .next t ∧ SameStatus s t ∧ exec i (withRecord s f m e w) = .next (withRecord t f m e w)) := by
  have key : ∀ (r r' : Except FaultCode State),
      ((∃ c, r = .error c ∧ r' = .error c) ∨ ∃ t, r = .ok t ∧ SameStatus s t ∧ r' = .ok (withRecord t f m e w)) →
      (∃ c, complete i s r = .next (s.recordFault (encode i) c) ∧
        complete i (withRecord s f m e w) r' = .next ((withRecord s f m e w).recordFault (encode i) c)) ∨
      ∃ t, complete i s r = .next t ∧ SameStatus s t ∧ complete i (withRecord s f m e w) r' = .next (withRecord t f m e w) := by
    rintro _ _ (⟨c, rfl, rfl⟩ | ⟨t, rfl, h, rfl⟩)
    · exact .inl ⟨c, rfl, rfl⟩
    · exact .inr ⟨t, rfl, h, rfl⟩
  have hc : ∀ b d, checkData b d (withRecord s f m e w) = checkData b d s := fun _ _ => rfl
  cases i with
  | cfg o g =>
    refine key _ _ ?_
    unfold cfgEffect
    split
    · exact .inl ⟨_, rfl, rfl⟩
    · split
      · exact .inl ⟨_, rfl, rfl⟩
      · exact .inr ⟨_, rfl, ⟨rfl, rfl, rfl, rfl, rfl⟩, rfl⟩
  | bits =>
    refine key _ _ ?_
    unfold bitsEffect
    cases hs : s.cfg with
    | none => exact .inl ⟨_, rfl, rfl⟩
    | some st => exact .inr ⟨_, rfl, ⟨rfl, rfl, rfl, rfl, rfl⟩, rfl⟩
  | hard b d =>
    refine key _ _ ?_
    unfold hardEffect
    rw [hc]
    cases checkData b d s with
    | error c => exact .inl ⟨_, rfl, rfl⟩
    | ok st =>
      have hw : hardWords st (withRecord s f m e w) = hardWords st s := rfl
      dsimp only
      rw [hw]
      generalize slotWrites b d 0 (hardWords st s) = ws
      split
      · exact .inr ⟨_, rfl, ⟨rfl, rfl, rfl, rfl, rfl⟩, rfl⟩
      · exact .inl ⟨_, rfl, rfl⟩
  | soft b d =>
    refine key _ _ ?_
    unfold softEffect
    rw [hc]
    cases checkData b d s with
    | error c => exact .inl ⟨_, rfl, rfl⟩
    | ok st =>
      have hq : softQuantized st (withRecord s f m e w) = softQuantized st s := rfl
      have hw : softWords st (withRecord s f m e w) = softWords st s := rfl
      dsimp only
      rw [hq, hw]
      generalize slotWrites b d 0 (softWords st s) = ws
      split
      · split
        · exact .inl ⟨_, rfl, rfl⟩
        · exact .inr ⟨_, rfl, ⟨rfl, rfl, rfl, rfl, rfl⟩, rfl⟩
      · exact .inl ⟨_, rfl, rfl⟩
  | map b d =>
    refine key _ _ ?_
    have hr : ∀ n, readSlots (withRecord s f m e w) b d n = readSlots s b d n := fun _ => rfl
    unfold mapEffect
    rw [hc]
    cases checkData b d s with
    | error c => exact .inl ⟨_, rfl, rfl⟩
    | ok st =>
      dsimp only
      rw [hr]
      cases bipolarCodes? st.fmt (readSlots s b d st.order.bits) with
      | none => exact .inl ⟨_, rfl, rfl⟩
      | some b => exact .inr ⟨_, rfl, ⟨rfl, rfl, rfl, rfl, rfl⟩, rfl⟩

end Sys2Proof.Machine
end

