-- ==== Sys2Proof/Laws/Normalization.lean ====
section
/-! SUPPORT. The mean energy of R109 by axes: the sum over all code words of an order is a sum over the bipolar
patterns of one axis; and the amplitude registers that CFG leaves. -/

namespace Sys2Proof.Machine

/-- Over the code words of length 2k, a function of the real codes and one of the imaginary codes sum to 2^k times
their sums over the patterns of length k. -/
theorem sum_allBipolar_axes (f g : List Int → Int) (k : Nat) :
    ((allBipolar (2 * k)).map fun b => f (realCodes b) + g (imagCodes b)).sum =
      2 ^ k * (((allBipolar k).map f).sum + ((allBipolar k).map g).sum) := by
  induction k generalizing f g with
  | zero => simp [allBipolar, realCodes, imagCodes]
  | succ k ih =>
    have step := fun a b : Int => ih (fun r => f (a :: r)) (fun r => g (b :: r))
    simp only [Nat.mul_add, Nat.mul_one, allBipolar, List.map_append, List.map_map, List.sum_append,
      Function.comp_def, realCodes, imagCodes] at step ⊢
    rw [step, step, step, step]
    ring

/-- R109: twice 2^k times the squared levels of one axis. -/
theorem sum_energy (amp : Word) (o : QamOrder) :
    ((allBipolar o.bits).map (energy amp)).sum =
      2 ^ (o.depth + 1) * ((allBipolar o.depth).map fun a => fpValue (axisLevel amp a) ^ 2).sum := by
  have h : o.bits = 2 * o.depth := by cases o <;> rfl
  have axes := sum_allBipolar_axes (fun a => fpValue (axisLevel amp a) ^ 2)
    (fun a => fpValue (axisLevel amp a) ^ 2) o.depth
  rw [h]
  exact axes.trans (by ring)

/-- A successful CFG leaves the amplitude registers at the row of its order (R40, R90). -/
theorem loadSetting_tableOk (s : State) (st : Setting) : (s.loadSetting st).tableOk := rfl

end Sys2Proof.Machine
end

