-- ==== Sys2Proof/Laws/PerInstr.lean ====
section
/-! SUPPORT. Families of statements about every command as syntax, one lemma per constructor. -/

namespace Sys2Proof.Laws

/-- The mask and match of a command's row in the opcode map (R75). -/
def opcodeRow : Instr → Word × Word
  | .cfg _ _ => (0xFFFFFFFFFFFFFC0F, 0x0000000000000001)
  | .bits => (0xFFFFFFFFFFFFFFFF, 0x0000000000000002)
  | .hard _ _ => (0xFFFFFFFFF000000F, 0x0000000000000003)
  | .soft _ _ => (0xFFFFFFFFF000000F, 0x0000000000000004)
  | .map _ _ => (0xFFFFFFFFF000000F, 0x0000000000000005)

/-- Every encoded command matches its own row of the opcode map, whatever its operands. -/
def EncodeMatchesRow.Statement (i : Instr) : Prop := encode i &&& (opcodeRow i).1 = (opcodeRow i).2

theorem encodeD_matches (op : BitVec 4) (base stride : Nat) :
    encodeD op base stride &&& 0xFFFFFFFFF000000F = op.zeroExtend 64 := by
  unfold encodeD
  generalize BitVec.ofNat 12 stride = s
  generalize BitVec.ofNat 12 base = b
  ext j hj
  simp only [BitVec.getElem_and, BitVec.getElem_append, BitVec.getElem_setWidth]
  interval_cases j <;> simp

theorem EncodeMatchesRow.cfg (order fmt : Nat) : EncodeMatchesRow.Statement (.cfg order fmt) := by
  unfold EncodeMatchesRow.Statement encode opcodeRow encodeC
  generalize BitVec.ofNat 2 fmt = f
  generalize BitVec.ofNat 4 order = o
  ext j hj
  simp only [BitVec.getElem_and, BitVec.getElem_append]
  interval_cases j <;> simp

theorem EncodeMatchesRow.bits : EncodeMatchesRow.Statement .bits := by
  unfold EncodeMatchesRow.Statement
  decide

theorem EncodeMatchesRow.hard (base stride : Nat) : EncodeMatchesRow.Statement (.hard base stride) :=
  encodeD_matches 0x3#4 base stride

theorem EncodeMatchesRow.soft (base stride : Nat) : EncodeMatchesRow.Statement (.soft base stride) :=
  encodeD_matches 0x4#4 base stride

theorem EncodeMatchesRow.map (base stride : Nat) : EncodeMatchesRow.Statement (.map base stride) :=
  encodeD_matches 0x5#4 base stride

end Sys2Proof.Laws
end

