-- ==== Sys2Proof/Laws/Step.lean ====
section
/-! SUPPORT. What the bus admits, and what a step can do, said once: every invariant of steps is derived from it
and not from the step function. -/

namespace Sys2Proof.Machine

/-! ### Admission -/

theorem regAt?_regOffset (r : Reg) : regAt? (regOffset r) = some r := by cases r <;> rfl

theorem regAt?_eq_some {off : Nat} {r : Reg} : regAt? off = some r ↔ off = regOffset r := by
  constructor
  · intro h
    unfold regAt? at h
    split at h <;> cases h <;> rfl
  · rintro rfl
    exact regAt?_regOffset r

theorem regAt?_of_ge {off : Nat} (h : 0x60 ≤ off) : regAt? off = none := by
  cases hr : regAt? off with
  | none => rfl
  | some r =>
    have := regAt?_eq_some.1 hr
    cases r <;> simp only [regOffset] at this <;> omega

theorem regAt?_isSome {off : Nat} (h : off < 0x60) (h8 : off % 8 = 0) : (regAt? off).isSome = true := by
  interval_cases off <;> first | rfl | omega

/-- An access reaches a register exactly when it is 8 bytes wide at the register's offset (R54, R20). -/
theorem admitted?_reg {cells off width : Nat} {r : Reg} :
    admitted? cells off width = some (.reg r) ↔ width = 8 ∧ off = regOffset r := by
  have h8 : regOffset r % 8 = 0 := by cases r <;> rfl
  unfold admitted? targetAt?
  constructor
  · intro h
    split at h
    · split at h
      · cases h
        exact ⟨by omega, regAt?_eq_some.1 ‹_›⟩
      · split at h <;> cases h
    · cases h
  · rintro ⟨rfl, rfl⟩
    simp [h8, regAt?_regOffset]

/-- An access reaches cell i exactly when it is 8 bytes wide at the cell's offset (R54, R34). -/
theorem admitted?_cell {cells off width i : Nat} :
    admitted? cells off width = some (.cell i) ↔ width = 8 ∧ off = cellOffset i ∧ i < cells := by
  unfold admitted? targetAt? cellOffset codeBase
  constructor
  · intro h
    split at h
    · split at h
      · cases h
      · split at h <;> cases h
        omega
    · cases h
  · rintro ⟨rfl, rfl, hi⟩
    rw [if_pos (by omega), regAt?_of_ge (by omega)]
    dsimp only
    rw [if_pos (by omega)]
    congr 2
    omega

/-- The accesses that R54 does not admit. -/
theorem admitted?_none {cells off width : Nat} : admitted? cells off width = none ↔ NotAdmitted cells off width := by
  unfold admitted? targetAt? NotAdmitted codeBase
  by_cases h8 : width = 8 ∧ off % 8 = 0
  · rw [if_pos h8]
    by_cases hlo : off < 0x60
    · obtain ⟨r, hr⟩ := Option.isSome_iff_exists.1 (regAt?_isSome hlo h8.2)
      rw [hr]
      simp only [reduceCtorEq, false_iff]
      omega
    · rw [regAt?_of_ge (by omega)]
      dsimp only
      split
      · simp only [reduceCtorEq, false_iff]
        omega
      · simp only [true_iff]
        omega
  · rw [if_neg h8]
    simp only [true_iff]
    omega

theorem inWindow_iff {s : State} {addr : Nat} :
    inWindow s addr = true ↔ s.config.base ≤ addr ∧ addr < s.config.base + 0x10000 := by
  simp [inWindow]

/-! ### Steps -/

/-- What a step leaves: nothing (empty port), an edge of reset, an access to other parts of the platform, a read, a
write, a command, or the record of a word that is none. -/
inductive StepResult (s : State) : State → Prop where
  | idle (h : s.port = []) : StepResult s s
  | asserted (rest : List HostEvent) (h : s.port = .assertReset :: rest) : StepResult s (s.takeEvent rest).resetUnit
  | released (rest : List HostEvent) (h : s.port = .releaseReset :: rest) :
      StepResult s { s.takeEvent rest with resetAsserted := false }
  | elsewhereRead (addr width : Nat) (rest : List HostEvent) (h : s.port = .read addr width :: rest)
      (hr : s.resetAsserted = false) (hw : inWindow s addr = false) : StepResult s (s.takeEvent rest)
  | elsewhereWrite (addr : Nat) (data : List Byte) (rest : List HostEvent) (h : s.port = .write addr data :: rest)
      (hr : s.resetAsserted = false) (hw : inWindow s addr = false) : StepResult s (s.takeEvent rest)
  | read (addr width : Nat) (rest : List HostEvent) (h : s.port = .read addr width :: rest)
      (hr : s.resetAsserted = false) (hw : inWindow s addr = true) :
      StepResult s ((s.takeEvent rest).busRead (addr - s.config.base) width)
  | write (addr : Nat) (data : List Byte) (rest : List HostEvent) (h : s.port = .write addr data :: rest)
      (hr : s.resetAsserted = false) (hw : inWindow s addr = true)
      (hc : admitted? s.config.cells (addr - s.config.base) data.length ≠ some (.reg .cmd)) :
      StepResult s ((s.takeEvent rest).busWrite (addr - s.config.base) data)
  | command (data : List Byte) (rest : List HostEvent) (h : s.port = .write s.config.base data :: rest)
      (hr : s.resetAsserted = false) (hl : data.length = 8) (i : Instr)
      (hi : decodeWord (wordOfBytes data) = .ok i) (t : State) (ht : exec i (s.takeEvent rest) = .next t) :
      StepResult s t
  | illegal (data : List Byte) (rest : List HostEvent) (h : s.port = .write s.config.base data :: rest)
      (hr : s.resetAsserted = false) (hl : data.length = 8) (e : DecodeError)
      (hi : decodeWord (wordOfBytes data) = .error e) :
      StepResult s ((s.takeEvent rest).recordFault (wordOfBytes data) .illegalCmd)

theorem inWindow_takeEvent (s : State) (rest : List HostEvent) (addr : Nat) :
    inWindow (s.takeEvent rest) addr = inWindow s addr := rfl

theorem decodeBytes_eight {data : List Byte} (h : data.length = 8) :
    decodeBytes data = decodeWord (wordOfBytes data) := by
  simp [decodeBytes, h]

/-- A write of eight bytes to CMD is the next command. -/
theorem nextDelivery_command {s : State} {data : List Byte} {rest : List HostEvent} (hr : s.resetAsserted = false)
    (hp : s.port = .write s.config.base data :: rest) (hl : data.length = 8) :
    nextDelivery s = .command data (s.takeEvent rest) := by
  have hw : inWindow (s.takeEvent rest) s.config.base = true := by simp [inWindow]
  have ha : admitted? s.config.cells 0 8 = some (.reg .cmd) := admitted?_reg.2 ⟨rfl, rfl⟩
  simp [nextDelivery, hp, deliver, hr, hw, hl, ha]

theorem step_cases {s t : State} (h : step s = .next t) : StepResult s t := by
  cases hp : s.port with
  | nil =>
    simp only [step, nextDelivery, hp] at h
    cases h
    exact .idle hp
  | cons e rest =>
    cases e with
    | assertReset =>
      simp only [step, nextDelivery, hp, deliver] at h
      cases h
      exact .asserted rest hp
    | releaseReset =>
      simp only [step, nextDelivery, hp, deliver] at h
      cases h
      exact .released rest hp
    | read addr width =>
      simp only [step, nextDelivery, hp, deliver, State.takeEvent_resetAsserted, inWindow_takeEvent] at h
      cases hr : s.resetAsserted with
      | true => simp [hr] at h
      | false =>
        cases hw : inWindow s addr with
        | true =>
          simp only [hr, hw, Bool.false_eq_true, if_false, if_true] at h
          cases h
          exact .read addr width rest hp hr hw
        | false =>
          simp only [hr, hw, Bool.false_eq_true, if_false] at h
          cases h
          exact .elsewhereRead addr width rest hp hr hw
    | write addr data =>
      cases hr : s.resetAsserted with
      | true => simp [step, nextDelivery, hp, deliver, hr] at h
      | false =>
        cases hw : inWindow s addr with
        | false =>
          simp only [step, nextDelivery, hp, deliver, State.takeEvent_resetAsserted, inWindow_takeEvent, hr, hw,
            Bool.false_eq_true, if_false] at h
          cases h
          exact .elsewhereWrite addr data rest hp hr hw
        | true =>
          by_cases hc : admitted? s.config.cells (addr - s.config.base) data.length = some (.reg .cmd)
          · obtain ⟨hl, ho⟩ := admitted?_reg.1 hc
            have hb := inWindow_iff.1 hw
            have ha : addr = s.config.base := by simp only [regOffset] at ho; omega
            subst ha
            rw [step, nextDelivery_command hr hp hl] at h
            simp only [decodeBytes_eight hl] at h
            split at h
            · exact .command data rest hp hr hl _ ‹_› _ h
            · cases h
              exact .illegal data rest hp hr hl _ ‹_›
          · simp only [step, nextDelivery, hp, deliver, State.takeEvent_resetAsserted, inWindow_takeEvent, hr, hw,
              State.takeEvent_config, Bool.false_eq_true, if_false, if_true, hc] at h
            cases h
            exact .write addr data rest hp hr hw hc

end Sys2Proof.Machine
end

