-- ==== Sys2Proof/Machine/Assembler.lean ====
section
/-! DEFINITION. The command syntax and the host-program syntax of spec/30_encoding.md R78 to R80, as structured
terms (their text is in Machine/Text.lean): which command word a line stands for, and which host access a program
line is. The machine does not use them; they say what a program of spec/95_test_vectors.md puts on the
port. -/

namespace Sys2Proof.Machine

/-! ### Commands -/

/-- A line of command syntax (R78). `stride` is absent in the pseudo-instructions of R80. -/
inductive AsmCommand where
  | cfg (n : Nat) (fmt : CodeFormat)
  | bits
  | hard (base : Nat) (stride : Option Nat)
  | soft (base : Nat) (stride : Option Nat)
  | map (base : Nat) (stride : Option Nat)
  | raw (v : Word)
deriving DecidableEq, Repr

/-- log2 of the orders the assembler takes (R78). -/
def asmOrder? : Nat → Option Nat
  | 16 => some 4
  | 64 => some 6
  | 256 => some 8
  | 1024 => some 10
  | _ => none

/-- The stride written, or the default 1 (R80). -/
def asmStride (stride : Option Nat) : Nat := stride.getD 1

/-- A data command the assembler takes: base 0 .. 4095 and stride 1 .. 4095 (R78). -/
def asmData? (i : Nat → Nat → Instr) (base : Nat) (stride : Option Nat) : Option Word :=
  if base ≤ 4095 ∧ 1 ≤ asmStride stride ∧ asmStride stride ≤ 4095 then some (encode (i base (asmStride stride)))
  else none

/-- The word a line assembles to, or none where the assembler refuses it (R78). -/
def assemble? : AsmCommand → Option Word
  | .cfg n fmt => (asmOrder? n).map fun order => encode (.cfg order fmt.code)
  | .bits => some (encode .bits)
  | .hard base stride => asmData? .hard base stride
  | .soft base stride => asmData? .soft base stride
  | .map base stride => asmData? .map base stride
  | .raw v => some v

/-! ### Host programs -/

/-- The binary64 nearest to the decimal `± digits * 10 ^ exp10` (R79 `f:x`, R13): the quotient by a power of ten
to 128 bits and more, and a last bit that is 1 when the division leaves a remainder. -/
def ofDecimal (neg : Bool) (digits : Nat) (exp10 : Int) : Word :=
  let d : Nat := 10 ^ (-exp10).toNat
  let k : Nat := d.log2 + 128
  let n : Nat := digits * 10 ^ exp10.toNat * 2 ^ k
  pack neg (2 * (n / d) + (if n % d = 0 then 0 else 1)) (-(k : Int) - 1)

/-- A value of a program line (R79): a word, `f:x` with x in decimal, or `c:x`. -/
inductive HostValue where
  | word (v : Word)
  | decimal (neg : Bool) (digits : Nat) (exp10 : Int)
  | code (x : CodeValue)
deriving DecidableEq, Repr

/-- A line of a host program (R79). -/
inductive HostLine where
  | wr (t : Target) (v : HostValue)
  | rd (t : Target)
  | cmd (c : AsmCommand)
deriving DecidableEq, Repr

/-- The offset of a register or a cell (R20, R34). -/
def targetOffset : Target → Nat
  | .reg r => regOffset r
  | .cell i => cellOffset i

/-- The 64 bits of a value; `c:x` takes the format in CFG at that point (R79). DEDUCED (log 14): while
unconfigured that is F64, which FMT = 0 names. DESIGN CHOICE (log 14): where R36 gives x no code in the format (a fraction or an integer out
of range in I8SAT or I32) there is none, and the line makes no access. -/
def hostValue? (s : State) : HostValue → Option Word
  | .word v => some v
  | .decimal neg digits exp10 => some (ofDecimal neg digits exp10)
  | .code x => if isCodeOf (cfgFormat s.cfg) x then some (encodeCode (cfgFormat s.cfg) x) else none

/-- The access a line makes at state `s` (R79). -/
def hostEvent? (s : State) : HostLine → Option HostEvent
  | .wr t v => (hostValue? s v).map fun w => .write (s.config.base + targetOffset t) (bytesOfWord w)
  | .rd t => some (.read (s.config.base + targetOffset t) 8)
  | .cmd c => (assemble? c).map fun w => .write (s.config.base + regOffset .cmd) (bytesOfWord w)

end Sys2Proof.Machine
end

