-- ==== Sys2Proof/Machine/Text.lean ====
section
/-! DEFINITION. The text of the command syntax and of the host-program syntax (spec/30_encoding.md R78 to R80): what
a line of letters stands for, and the word or the access it makes. What R78 and R79 leave open about blanks and
decimals is in log 15. -/

namespace Sys2Proof.Machine

/-! ### Splitting -/

/-- A blank. -/
def isBlank (c : Char) : Bool := c == ' ' || c == '\t'

/-- The text without the blanks around it. -/
def trimBlanks (s : List Char) : List Char := ((s.dropWhile isBlank).reverse.dropWhile isBlank).reverse

/-- The parts of a text between the occurrences of a letter. -/
def splitAtChar (sep : Char) : List Char → List (List Char)
  | [] => [[]]
  | c :: cs =>
    match splitAtChar sep cs with
    | [] => [[c]]
    | p :: ps => if c = sep then [] :: p :: ps else (c :: p) :: ps

/-- The first word of a line, and its operands: what stands between the commas of the rest. -/
def lineParts (s : List Char) : List Char × List (List Char) :=
  let rest := (trimBlanks s).dropWhile fun c => !isBlank c
  ((trimBlanks s).takeWhile fun c => !isBlank c,
    if trimBlanks rest = [] then [] else (splitAtChar ',' rest).map trimBlanks)

/-! ### Numbers -/

/-- The value of a digit in base 16. -/
def digit? (c : Char) : Option Nat :=
  if '0' ≤ c ∧ c ≤ '9' then some (c.toNat - '0'.toNat)
  else if 'a' ≤ c ∧ c ≤ 'f' then some (c.toNat - 'a'.toNat + 10)
  else if 'A' ≤ c ∧ c ≤ 'F' then some (c.toNat - 'A'.toNat + 10)
  else none

/-- The digits of a text in a base, read on from a value. -/
def digits? (radix acc : Nat) : List Char → Option Nat
  | [] => some acc
  | c :: cs => do
    let d ← digit? c
    if d < radix then digits? radix (radix * acc + d) cs else none

/-- A decimal or `0x` hexadecimal integer (R78). -/
def natural? : List Char → Option Nat
  | [] => none
  | '0' :: 'x' :: c :: cs => digits? 16 0 (c :: cs)
  | s => digits? 10 0 s

/-- An integer of 64 bits. -/
def word? (s : List Char) : Option Word := do
  let n ← natural? s
  if n < 2 ^ 64 then some (BitVec.ofNat 64 n) else none

/-- The sign in front of a number, and the rest. -/
def signOf : List Char → Bool × List Char
  | '-' :: s => (true, s)
  | '+' :: s => (false, s)
  | s => (false, s)

/-- A signed decimal integer. -/
def integer? (s : List Char) : Option Int := do
  let (neg, digits) := signOf s
  if digits = [] then none
  else
    let n ← digits? 10 0 digits
    some (if neg then -(n : Int) else n)

/-- A decimal number: sign, digits, fraction, exponent. Its value is `± digits * 10 ^ exp10`. -/
def decimal? (s : List Char) : Option (Bool × Nat × Int) := do
  let (neg, rest) := signOf s
  let mantissa := rest.takeWhile fun c => c != 'e'
  let exponent ← match rest.dropWhile fun c => c != 'e' with
    | [] => some 0
    | _ :: e => integer? e
  let whole := mantissa.takeWhile fun c => c != '.'
  let fraction := (mantissa.dropWhile fun c => c != '.').drop 1
  if whole = [] then none
  else
    let n ← digits? 10 0 (whole ++ fraction)
    some (neg, n, exponent - fraction.length)

/-! ### Commands -/

/-- A format as R78 names it. -/
def formatNamed? (s : List Char) : Option CodeFormat :=
  if s = "F64".toList then some .f64
  else if s = "I8SAT".toList then some .i8sat
  else if s = "I32".toList then some .i32
  else none

/-- The operands of a data command: `base, stride`, or the pseudo-form `base` (R78, R80). -/
def dataOperands? (mk : Nat → Option Nat → AsmCommand) : List (List Char) → Option AsmCommand
  | [base] => (natural? base).map fun b => mk b none
  | [base, stride] => do
    let b ← natural? base
    let d ← natural? stride
    some (mk b (some d))
  | _ => none

/-- A line of command syntax (R78): the mnemonic in either case, then its operands. -/
def parseCommand? (s : List Char) : Option AsmCommand :=
  let (name, operands) := lineParts s
  let mnemonic := name.map Char.toUpper
  if mnemonic = "CFG".toList then
    match operands with
    | [n, fmt] => do
      let n ← natural? n
      let fmt ← formatNamed? fmt
      some (.cfg n fmt)
    | _ => none
  else if mnemonic = "BITS".toList then
    match operands with
    | [] => some .bits
    | _ => none
  else if mnemonic = "HARD".toList then dataOperands? .hard operands
  else if mnemonic = "SOFT".toList then dataOperands? .soft operands
  else if mnemonic = "MAP".toList then dataOperands? .map operands
  else if mnemonic = ".CMD".toList then
    match operands with
    | [v] => (word? v).map .raw
    | _ => none
  else none

/-- The word that a line of command syntax assembles to, or none where the assembler refuses it (R78, R80). -/
def assembleText? (s : List Char) : Option Word := (parseCommand? s).bind assemble?

/-! ### Host programs -/

/-- The registers by their names (R20). -/
def registerNames : List (List Char × Reg) :=
  [("CMD".toList, .cmd), ("STATUS".toList, .status), ("CFG".toList, .cfg), ("RESULT".toList, .result),
    ("FAULTCMD".toList, .faultcmd), ("SYM_RE".toList, .symRe), ("SYM_IM".toList, .symIm), ("PREC".toList, .prec),
    ("FAC".toList, .fac), ("RCP".toList, .rcp), ("AMP".toList, .amp), ("DIST".toList, .dist)]

/-- A register name of R20, or `CODE[i]` (R79). -/
def parseTarget? (s : List Char) : Option Target :=
  match registerNames.find? fun p => p.1 == s with
  | some p => some (.reg p.2)
  | none =>
    if s.take 5 = "CODE[".toList ∧ s.getLast? = some ']' then (natural? (s.drop 5).dropLast).map .cell else none

/-- A value of a host program (R79): an integer, `f:x` or `c:x`. -/
def parseValue? : List Char → Option HostValue
  | 'f' :: ':' :: x => (decimal? x).map fun (neg, digits, exp10) => .decimal neg digits exp10
  | 'c' :: ':' :: x =>
    match integer? x with
    | some z => some (.code (.int z))
    | none => (decimal? x).map fun (neg, digits, exp10) => .code (.real (ofDecimal neg digits exp10))
  | s => (word? s).map .word

/-- A line of a host program (R79). -/
def parseLine? (s : List Char) : Option HostLine :=
  let (name, operands) := lineParts s
  let mnemonic := name.map Char.toUpper
  if mnemonic = "WR".toList then
    match operands with
    | [target, value] => do
      let t ← parseTarget? target
      let v ← parseValue? value
      some (.wr t v)
    | _ => none
  else if mnemonic = "RD".toList then
    match operands with
    | [target] => (parseTarget? target).map .rd
    | _ => none
  else if mnemonic = "CMD".toList then
    (parseCommand? ((trimBlanks s).dropWhile fun c => !isBlank c)).map .cmd
  else none

/-- The access that a line of a host program makes at state `s` (R79). -/
def hostTextEvent? (s : State) (line : List Char) : Option HostEvent := (parseLine? line).bind (hostEvent? s)

end Sys2Proof.Machine
end

