-- ==== Sys2Proof/Tests/Slice0.lean ====
section
/-! SUPPORT. Tests on single steps, their expected values from spec/30_encoding.md R81 and the vectors of
spec/95_test_vectors.md (named in each comment), and for every obligation with hypotheses a witness that meets
them. -/

namespace Sys2Proof.Tests

open Sys2Proof Sys2Proof.Machine

/-! ### Small states -/

/-- A unit that CFG has configured, from reset. -/
def unit (o : QamOrder) (f : CodeFormat) : State := State.reset.loadSetting { order := o, fmt := f }

/-- The port will deliver `events`. -/
def withPort (s : State) (events : List HostEvent) : State := { s with port := events }

/-- The outcome is a next state with a property. -/
def nextIs (o : Host.Outcome State Fault Refusal) (p : State → Bool) : Bool :=
  match o with
  | .next t => p t
  | .fault _ => false
  | .refused _ => false

/-- Cells 0 .. as CODE is written in the vectors. -/
def withCells (s : State) (ws : List Word) : State := s.writeCells (slotWrites 0 1 0 ws)

/-! ### WellFormed: one ill-formed term for each check -/

theorem test_wellFormed_cfg_order : WellFormed (.cfg 16 0) = false := by decide
theorem test_wellFormed_cfg_fmt : WellFormed (.cfg 4 4) = false := by decide
theorem test_wellFormed_hard_base : WellFormed (.hard 4096 1) = false := by decide
theorem test_wellFormed_hard_stride : WellFormed (.hard 0 4096) = false := by decide
theorem test_wellFormed_soft_base : WellFormed (.soft 4096 1) = false := by decide
theorem test_wellFormed_soft_stride : WellFormed (.soft 0 4096) = false := by decide
theorem test_wellFormed_map_base : WellFormed (.map 4096 1) = false := by decide
theorem test_wellFormed_map_stride : WellFormed (.map 0 4096) = false := by decide

/-! ### Decode: words written out from R71 to R73, one group of digits a field (reserved, then the operands, then OP) -/

/-- Format C: FMT 10, ORDER 1000, OP 0001 (E3). -/
theorem test_decode_cfg : decodeWord 0b10_1000_0001 = .ok (.cfg 8 2) := by decide
/-- Format N: OP 0010 (E6). -/
theorem test_decode_bits : decodeWord 0b0010 = .ok .bits := by decide
/-- Format D: STRIDE 3, BASE 100, OP 0011 (H31). -/
theorem test_decode_hard : decodeWord 0b000000000011_000001100100_0011 = .ok (.hard 100 3) := by decide
/-- Format D: STRIDE 2, BASE 16, OP 0100 (E8). -/
theorem test_decode_soft : decodeWord 0b000000000010_000000010000_0100 = .ok (.soft 16 2) := by decide
/-- Format D: the largest operands, OP 0101 (E10). -/
theorem test_decode_map : decodeWord 0b111111111111_111111111111_0101 = .ok (.map 4095 4095) := by decide
/-- The same word as the eight bytes of a CMD write, lowest address first (R53, E8). -/
theorem test_decode_bytes : decodeBytes [0x04, 0x01, 0x02, 0, 0, 0, 0, 0] = .ok (.soft 16 2) := by decide
/-- E5, E11: values that fit and are not legal decode. -/
theorem test_decode_illegal_values :
    decodeWord 0x351 = .ok (.cfg 5 3) ∧ decodeWord 0x3 = .ok (.hard 0 0) := by decide
/-- E12, E13. -/
theorem test_decode_illegal_ops :
    ([0x0, 0x6, 0x7, 0x8, 0x9, 0xA, 0xB, 0xC, 0xD, 0xE, 0xF] : List Word).all
      (fun v => decide (decodeWord v = .error .illegalOp)) = true := by decide +kernel
/-- E14 to E17. -/
theorem test_decode_reserved_bits :
    ([0x441, 0x12, 0x10010003, 0x8000000000000005] : List Word).all
      (fun v => decide (decodeWord v = .error .reservedBit)) = true := by decide +kernel
theorem test_decode_length : decodeBytes [0x02, 0, 0, 0] = .error .badLength := by decide
theorem test_decodeTableWord : decodeTableWord 64 0x20104 = some (.soft 16 2) ∧ decodeTableWord 64 0x441 = none := by
  decide

/-! ### The five commands -/

/-- C4: CFG 1024, F64. -/
theorem test_cfg : nextIs (exec (.cfg 10 0) State.reset) (fun t =>
    cfgWord t.cfg == 0x0A && t.fac == 0x3FEAF52235C448EB && t.amp == 0x3FA39B019B777AD9 && t.status == 0x8) = true := by
  decide +kernel
/-- C7: a CFG that faults keeps the configuration. -/
theorem test_cfg_fault : nextIs (exec (.cfg 7 0) (unit .qam16 .f64)) (fun t =>
    cfgWord t.cfg == 0x04 && t.amp == 0x3FD43D136248490F && t.status == 0x209 && t.faultcmd == 0x71) = true := by
  decide +kernel
/-- C3. -/
theorem test_bits : nextIs (exec .bits (unit .qam256 .i32)) (fun t => t.result == 8 && t.status == 0x8) = true := by
  decide +kernel
/-- C11. -/
theorem test_bits_fault : nextIs (exec .bits State.reset) (fun t => t.result == 0 && t.status == 0x401) = true := by
  decide +kernel
/-- H31, from the symbol of H2. -/
theorem test_hard : nextIs (exec (.hard 100 3)
    ((unit .qam16 .i8sat).setSymbol 0x3FEE5B9D136C6D96 0xBFD43D136248490F)) (fun t =>
      readSlots t 100 3 4 == [0x1, 0xFFFFFFFFFFFFFFFF, 0x1, 0xFFFFFFFFFFFFFFFF] && t.status == 0x8) = true := by
  decide +kernel
/-- H30: the recursive residual, SYM_RE = 13A (spec/90_conflicts.md C4). -/
theorem test_hard_residual : nextIs (exec (.hard 0 1)
    ((unit .qam256 .i32).setSymbol (fmul 0x3FB3A261BA6D7A36 (f64 13)) 0)) (fun t =>
      bipolarCodes? .i32 (readSlots t 0 1 8) == some [1, 1, 1, -1, 1, 1, -1, 1]) = true := by
  decide +kernel
/-- S16: SYM = (0.5, -0.5), PREC = 1000.0, saturating. -/
theorem test_soft : nextIs (exec (.soft 0 1)
    (((unit .qam16 .i8sat).setSymbol 0x3FE0000000000000 0xBFE0000000000000).setPrec 0x408F400000000000)) (fun t =>
      (readSlots t 0 1 4).map BitVec.toInt == [127, -128, -84, -84] && t.status == 0x8) = true := by
  decide +kernel
/-- S28: SYM = (1, -1), PREC = 1e10 in I32 under SATURATE. -/
theorem test_soft_i32 : nextIs (exec (.soft 0 1)
    (((unit .qam16 .i32).setSymbol 0x3FF0000000000000 0xBFF0000000000000).setPrec 0x4202A05F20000000)) (fun t =>
      readSlots t 0 1 4 == [0x7FFFFFFF, 0xFFFFFFFF80000000, 0x7FFFFFFF, 0x7FFFFFFF]) = true := by
  decide +kernel
/-- M20. -/
theorem test_map : nextIs (exec (.map 0 1) (withCells (unit .qam1024 .i32)
    ([1, -1, 1, -1, -1, 1, -1, 1, 1, 1].map fun z => encodeCode .i32 (.int z)))) (fun t =>
      t.symRe == 0x3FEC2ED24F7BC098 && t.symIm == 0xBFA39B019B777AD9) = true := by
  decide +kernel
/-- F25: -0.0 is no bipolar code. -/
theorem test_map_fault : nextIs (exec (.map 0 1) (withCells (unit .qam16 .f64)
    [0x3FF0000000000000, 0x8000000000000000, 0x3FF0000000000000, 0x3FF0000000000000])) (fun t =>
      t.status == 0x809 && t.symRe == 0) = true := by
  decide +kernel

/-! ### Steps on the bus -/

/-- F29: a second fault sets MULTI and keeps the record. -/
theorem test_step_second_fault : nextIs (step (withPort (State.reset.recordFault 0x2 .notConfigured)
    [.write 0 [0, 0, 0, 0, 0, 0, 0, 0]])) (fun t => t.status == 0x403 && t.faultcmd == 0x2) = true := by
  decide +kernel
/-- B2: a 4-byte read is refused. -/
theorem test_step_narrow_read : nextIs (step (withPort State.reset [.read 0x008 4])) (fun t =>
    t.reply == some 0 && t.status == 0x4) = true := by
  decide +kernel
/-- B8: a 4-byte write to CMD runs nothing. -/
theorem test_step_narrow_command : nextIs (step (withPort State.reset [.write 0 [0x41, 0, 0, 0]])) (fun t =>
    t.status == 0x4 && t.cfg == none) = true := by
  decide +kernel
/-- B7: FAC is read only. -/
theorem test_step_read_only : nextIs (step (withPort (unit .qam16 .f64) [.write 0x040 (bytesOfWord 0)])) (fun t =>
    t.fac == 0x3FF0DD90273C3CE1 && t.status == 0xC) = true := by
  decide +kernel
/-- B14: with 16 cells, 0x1080 is unmapped. -/
theorem test_step_unmapped : nextIs (step (withPort
    { State.reset with config := { Config.defaults with cells := 16 } } [.read 0x1080 8])) (fun t =>
      t.reply == some 0 && t.buserr) = true := by
  decide +kernel
/-- P3 step 17: clearing FAULT alone keeps BUSERR. -/
theorem test_step_clear_fault : nextIs (step (withPort
    ((unit .qam256 .i32).recordFault 0x3 .badStride).setBuserr [.write 0x008 (bytesOfWord 0x1)])) (fun t =>
      t.status == 0xC && t.faultcmd == 0) = true := by
  decide +kernel
/-- P1 step 1: the first command after reset, on the state that the host's check builds. -/
theorem test_step_fetch_word : nextIs (step (State.reset.withFetchWord 64 0x41)) (fun t =>
    cfgWord t.cfg == 0x04 && t.port == []) = true := by
  decide +kernel

/-! ### Assembler and host programs -/

/-- R81, and the refusals of R78. -/
theorem test_assemble :
    assemble? (.cfg 64 .i8sat) = some 0x161 ∧ assemble? (.hard 0 none) = some 0x10003 ∧
    assemble? (.map 4095 (some 4095)) = some 0xFFFFFF5 ∧ assemble? (.cfg 4 .f64) = none ∧
    assemble? (.soft 0 (some 0)) = none := by decide
/-- P2 step 3: `WR SYM_RE, f:0.77`. -/
theorem test_host_line : hostEvent? State.reset (.wr (.reg .symRe) (.decimal false 77 (-2))) =
    some (.write 0x028 (bytesOfWord 0x3FE8A3D70A3D70A4)) := by decide +kernel
/-- H7: 5e-324 is the least subnormal; H8: 1e300. -/
theorem test_ofDecimal :
    ofDecimal false 5 (-324) = 0x0000000000000001 ∧ ofDecimal true 1 300 = 0xFE37E43C8800759C := by decide +kernel

/-- R81, the nine lines, and a pseudo-form, a raw word and the refusals of R78. -/
theorem test_assembleText :
    ["CFG 16, F64", "CFG 64, I8SAT", "CFG 256, I32", "CFG 1024, F64", "BITS", "HARD 0, 1", "SOFT 16, 2", "MAP 0, 1",
      "MAP 4095, 4095", "hard 0", ".cmd 0x71", "CFG 4, F64", "MAP 4096", "SOFT 0, 0"].map
      (fun line => assembleText? line.toList) =
    [some 0x41, some 0x161, some 0x281, some 0xA1, some 0x2, some 0x10003, some 0x20104, some 0x10005,
      some 0xFFFFFF5, some 0x10003, some 0x71, none, none, none] := by decide +kernel
/-- P1 steps 1, 3 (also while unconfigured, in the F64 that FMT = 0 names) and 7, and P2 steps 4 and 7: the lines of
host programs. -/
theorem test_hostText :
    [hostTextEvent? State.reset "CMD CFG 16, F64".toList,
      hostTextEvent? { State.reset with cfg := some ⟨.qam16, .f64⟩ } "WR CODE[1], c:-1".toList,
      hostTextEvent? State.reset "WR CODE[1], c:-1".toList,
      hostTextEvent? State.reset "RD SYM_RE".toList, hostTextEvent? State.reset "WR SYM_IM, f:-0.2".toList,
      hostTextEvent? State.reset "WR SYM_IM, f:5e-2".toList] =
    [some (.write 0x0000 (bytesOfWord 0x41)), some (.write 0x1008 (bytesOfWord 0xBFF0000000000000)),
      some (.write 0x1008 (bytesOfWord 0xBFF0000000000000)), some (.read 0x0028 8),
      some (.write 0x0030 (bytesOfWord 0xBFC999999999999A)),
      some (.write 0x0030 (bytesOfWord 0x3FA999999999999A))] := by decide +kernel

/-- A value that R36 gives no code in I8SAT or I32 makes no access (log 14): fractions and integers out of range. -/
theorem test_uncodedValues :
    ["c:-128", "c:127", "c:1.0", "c:0.5", "c:128", "c:-129"].map (fun x => (parseValue? x.toList).bind
      (hostValue? { State.reset with cfg := some ⟨.qam16, .i8sat⟩ })) =
    [some 0xFFFFFFFFFFFFFF80, some 0x7F, some 1, none, none, none] := by decide +kernel

/-! ### Witnesses of the encoding statements -/

theorem witness_DecodeOfEncodeReturnsInstr :
    ∀ i ∈ [Instr.cfg 15 3, .bits, .hard 4095 4095, .soft 4095 0, .map 0 4095], WellFormed i = true := by decide
theorem witness_EncodeOfDecodeReturnsWord : decodeWord 0x000000000FFFFFF5 = .ok (.map 4095 4095) := by decide
theorem witness_CommandWordsMatchOpcodeMap :
    (0x3F1 : Word) &&& 0xFFFFFFFFFFFFFC0F = 0x0000000000000001 ∧ (0x2 : Word) &&& 0xFFFFFFFFFFFFFFFF = 2 ∧
    (0xFFFFFF3 : Word) &&& 0xFFFFFFFFF000000F = 3 ∧ (0xFFFFFF4 : Word) &&& 0xFFFFFFFFF000000F = 4 ∧
    (0xFFFFFF5 : Word) &&& 0xFFFFFFFFF000000F = 5 := by decide +kernel

/-- A unit right after reset to which the port delivers one write of a word at an offset. -/
def written (s : State) (off : Nat) (v : Word) : State := withPort s [hostWrite s off v]

theorem written_delivers (s : State) (off : Nat) (v : Word) (h : s.resetAsserted = false) :
    Delivers (written s off v) (hostWrite (written s off v) off v) [] := ⟨h, rfl⟩

/-- One word for each way to be illegal: OP 0, OP 6 and 15, and a reserved bit of each format. -/
theorem witness_IllegalWordsRecordIllegalCmd :
    (∀ v, Delivers (written State.reset 0 v) (hostWrite (written State.reset 0 v) 0 v) []) ∧
    (0x0 : Word).extractLsb' 0 4 = 0#4 ∧ 6#4 ≤ (0x6 : Word).extractLsb' 0 4 ∧ 6#4 ≤ (0xF : Word).extractLsb' 0 4 ∧
    ((0x441 : Word).extractLsb' 0 4 = 1#4 ∧ (0x441 : Word).extractLsb' 10 54 ≠ 0) ∧
    ((0x12 : Word).extractLsb' 0 4 = 2#4 ∧ (0x12 : Word).extractLsb' 4 60 ≠ 0) ∧
    (3#4 ≤ (0x10010003 : Word).extractLsb' 0 4 ∧ (0x10010003 : Word).extractLsb' 0 4 ≤ 5#4 ∧
      (0x10010003 : Word).extractLsb' 28 36 ≠ 0) ∧
    (3#4 ≤ (0x8000000000000005 : Word).extractLsb' 0 4 ∧ (0x8000000000000005 : Word).extractLsb' 0 4 ≤ 5#4 ∧
      (0x8000000000000005 : Word).extractLsb' 28 36 ≠ 0) :=
  ⟨fun _ => written_delivers _ _ _ rfl, by decide +kernel⟩

/-! ### Witnesses of the step and reset statements -/

theorem witness_StepRunsDecodedCommand :
    Delivers (written State.reset 0 0x10003) (hostWrite (written State.reset 0 0x10003) 0 0x10003) [] ∧
    decodeWord 0x10003 = .ok (.hard 0 1) := ⟨written_delivers _ _ _ rfl, by decide⟩
theorem witness_FetchWordRunsTableWord : decodeTableWord 64 0x10003 = some (.hard 0 1) := by decide
/-- Both sides of the equivalence: an access during reset, and the fault it ends in. -/
theorem witness_StepStopsOnlyDuringReset :
    step { State.reset with resetAsserted := true, port := [.read 0 8] } = .fault .accessDuringReset := rfl

/-- A unit whose window starts at 0x10000. -/
def shifted : State := { State.reset with config := { Config.defaults with base := 0x10000 } }

theorem witness_NothingAddressedChangesNothing :
    State.reset.port = [] ∧
    Delivers (withPort shifted [.read 0xFFFF 8]) (.read 0xFFFF 8) [] ∧ 0xFFFF < shifted.config.base ∧
    Delivers (withPort shifted [.write 0x20000 [1]]) (.write 0x20000 [1]) [] ∧
    shifted.config.base + 0x10000 ≤ 0x20000 := by decide
theorem witness_ParametersNeverChange : step State.reset = .next State.reset := rfl
theorem witness_ResetValues : 0 < Config.defaults.cells ∧ 4095 < Config.defaults.cells := by decide
theorem witness_AssertedResetRestoresResetValues :
    (withPort (unit .qam16 .f64) [.assertReset]).port = [.assertReset] ∧
    (withPort (unit .qam16 .f64) [.assertReset]).cfg ≠ none ∧
    (∃ t, step (withPort (unit .qam16 .f64) [.assertReset]) = .next t ∧ t.cfg = none) ∧
    (withPort State.reset.resetUnit [.releaseReset]).port = [.releaseReset] :=
  ⟨rfl, by decide, ⟨_, rfl, rfl⟩, rfl⟩

theorem start_inv (c : Config) (events : List HostEvent) : State.Inv (State.start c events) :=
  ⟨rfl, ⟨fun _ => ⟨rfl, rfl⟩, fun h => by cases h⟩, ⟨List.Pairwise.nil, by simp [State.start, State.reset]⟩,
    by simp [State.start, State.reset]⟩

/-- A unit right after reset to which the host sends one CFG. -/
def configuring : State := State.start Config.defaults [.write 0 [0x41, 0, 0, 0, 0, 0, 0, 0]]

theorem configuring_step : step configuring = .next (State.reset.loadSetting { order := .qam16, fmt := .f64 }) := rfl

theorem witness_StepKeepsInvariant : State.Inv configuring ∧ ∃ t, step configuring = .next t :=
  ⟨start_inv _ _, _, configuring_step⟩
/-- A state that a host program reaches: configured. -/
theorem witness_ReachableRegistersAgree :
    Config.defaults.facTable = Config.defaultFacTable ∧
    Reaches configuring (State.reset.loadSetting { order := .qam16, fmt := .f64 }) :=
  ⟨rfl, .tail .refl configuring_step⟩

/-! ### Witnesses of the statements on CFG and BITS -/

theorem witness_CfgSelectsOrderAndFormat :
    (5 ∉ [4, 6, 8, 10] ∧ 11 ∉ [4, 6, 8, 10]) ∧ (10 ∈ [4, 6, 8, 10] ∧ 3 = 3) ∧ (4 ∈ [4, 6, 8, 10] ∧ 2 < 3) := by decide
theorem witness_CfgFaultKeepsAndRepeatIsIdle :
    (∃ t, exec (.cfg 4 3) State.reset = .next t) ∧ ¬ (4 ∈ [4, 6, 8, 10] ∧ 3 < 3) ∧
    (∃ t, exec (.cfg 10 2) State.reset = .next t) ∧ (10 ∈ [4, 6, 8, 10] ∧ 2 < 3) :=
  ⟨⟨_, rfl⟩, by decide, ⟨_, rfl⟩, by decide⟩
theorem witness_BitsReportsBitCount :
    State.reset.cfg = none ∧ (unit .qam1024 .i32).cfg = some { order := .qam1024, fmt := .i32 } := by decide
theorem witness_BitsAfterCfgIsLog2 : 6 ∈ [4, 6, 8, 10] ∧ 1 < 3 := by decide

/-! ### Witnesses of the statements on faults and STATUS -/

theorem witness_DataChecksFaultInOrder :
    (Instr.hard 0 1 ∈ [Instr.hard 0 1, Instr.soft 0 1, Instr.map 0 1] ∧ State.reset.cfg = none) ∧
    (Instr.soft 0 0 ∈ [Instr.hard 0 0, Instr.soft 0 0, Instr.map 0 0] ∧
      (unit .qam16 .f64).cfg = some { order := .qam16, fmt := .f64 }) ∧
    (Instr.map 4093 1 ∈ [Instr.hard 4093 1, Instr.soft 4093 1, Instr.map 4093 1] ∧ 1 ≠ 0 ∧
      (unit .qam16 .f64).config.cells ≤ 4093 + (QamOrder.qam16.bits - 1) * 1) := by decide

/-- The last slots that fit (F15, F17). -/
theorem slotsFit_boundary :
    SlotsFit (unit .qam16 .f64) { order := .qam16, fmt := .f64 } 4092 1 ∧
    SlotsFit (unit .qam1024 .f64) { order := .qam1024, fmt := .f64 } 0 455 := by decide

theorem witness_NonFiniteOperandsFault :
    (unit .qam16 .f64).cfg = some { order := .qam16, fmt := .f64 } ∧
    SlotsFit (unit .qam16 .f64) { order := .qam16, fmt := .f64 } 4092 1 ∧
    isFinite ((unit .qam16 .f64).setSymbol 0x7FF8000000000000 0).symRe = false ∧
    isFinite ((unit .qam16 .f64).setSymbol 0 0xFFF0000000000000).symIm = false ∧
    isFinite ((unit .qam16 .f64).setPrec 0x7FF0000000000000).prec = false := by decide

theorem witness_NonBipolarCodeFaults : ∃ (s : State) (st : Setting), s.cfg = some st ∧ SlotsFit s st 0 1 ∧
    ∃ c, c < st.order.bits ∧ ¬ BipolarWord st.fmt (s.readCell (codeSlot 0 1 c)) :=
  ⟨withCells (unit .qam16 .i32) [0xFFFFFFFF, 1, 2, 1], { order := .qam16, fmt := .i32 }, by decide, by decide, 2,
    by decide, by unfold BipolarWord; decide +kernel⟩

/-- F28 and S28: SYM = (1, -1), PREC = 1e10 in I32, under each overflow rule. -/
def overflowing (rule : OverflowRule) : State :=
  { ((unit .qam16 .i32).setSymbol 0x3FF0000000000000 0xBFF0000000000000).setPrec 0x4202A05F20000000 with
    config := { Config.defaults with overflow := rule } }

theorem witness_SoftOverflowFaults :
    (overflowing .fault).cfg = some { order := .qam16, fmt := .i32 } ∧
    SlotsFit (overflowing .fault) { order := .qam16, fmt := .i32 } 0 1 ∧
    isFinite (overflowing .fault).symRe = true ∧ isFinite (overflowing .fault).symIm = true ∧
    isFinite (overflowing .fault).prec = true ∧ (overflowing .fault).config.overflow = .fault ∧
    ∃ c l r, codeLevel? { order := .qam16, fmt := .i32 } (overflowing .fault) c = some l ∧
      quantize .even .i32 (overflowing .fault).dist (overflowing .fault).prec l.dist = .overflow r :=
  ⟨rfl, by decide, by decide, by decide, by decide, rfl, 0, { lt := false, dist := 0x3FF0000000000000 },
    rint .even (fmul 0x3FF0000000000000 (fmul 0x3FE43D136248490F 0x4202A05F20000000)), by decide +kernel,
    by decide +kernel⟩

theorem witness_FaultsArePreciseAndRecorded :
    ∀ s ∈ [State.reset, State.reset.recordFault 0x2 .notConfigured,
        { State.reset.recordFault 0x2 .notConfigured with multi := true }], ∀ v ∈ [(0x2 : Word), 0x41],
      Delivers (written s 0 v) (hostWrite (written s 0 v) 0 v) [] ∧ ∃ t, step (written s 0 v) = .next t := by
  intro s hs v hv
  fin_cases hs <;> fin_cases hv <;> exact ⟨written_delivers _ _ _ rfl, _, rfl⟩
theorem witness_FirstFaultIsKept :
    ∃ (s t : State) (e : HostEvent), s.fault = true ∧ s.port = [e] ∧ step s = .next t ∧ e ≠ .assertReset ∧
      ∀ data, e = .write (s.config.base + 8) data → data.length = 8 → (wordOfBytes data).getLsbD 0 = false :=
  ⟨written (State.reset.recordFault 0x2 .notConfigured) 0 0x2, _, _, rfl, rfl, rfl, by decide, fun _ h => by cases h⟩
theorem witness_StatusHasNoOtherWriters :
    ∃ (s t : State) (e : HostEvent), s.port = [e] ∧ step s = .next t ∧ t.fault ≠ s.fault ∧
      ∃ (u v : State) (f : HostEvent), u.port = [f] ∧ step u = .next v ∧ v.buserr ≠ u.buserr :=
  ⟨written State.reset 0 0x2, _, _, rfl, rfl, by decide, withPort State.reset [.read 0x60 8], _, _, rfl, rfl, by decide⟩
theorem witness_NoFaultAndBusErrorTogether : ∃ t, step (written State.reset 0 0x2) = .next t := ⟨_, rfl⟩
/-- Bit 0 set and bit 0 clear. -/
theorem witness_StatusWriteClears :
    (Delivers (written State.reset 8 0x7) (hostWrite (written State.reset 8 0x7) 8 0x7) [] ∧
      (0x7 : Word).getLsbD 0 = true) ∧
    (Delivers (written State.reset 8 0x6) (hostWrite (written State.reset 8 0x6) 8 0x6) [] ∧
      (0x6 : Word).getLsbD 0 = false) :=
  ⟨⟨written_delivers _ _ _ rfl, by decide⟩, written_delivers _ _ _ rfl, by decide⟩

/-! ### Witnesses of the statements on the bus -/

theorem witness_RefusedAccessOnlySetsBuserr :
    (Delivers (withPort State.reset [.read 0x060 8]) (.read 0x060 8) [] ∧
      RefusedAccess (withPort State.reset [.read 0x060 8]) (.read 0x060 8)) ∧
    RefusedAccess State.reset (.read 0x9000 8) ∧ RefusedAccess State.reset (.read 0x00C 8) ∧
    RefusedAccess State.reset (.write 0x008 [0]) ∧ RefusedAccess State.reset (.write 0x058 (bytesOfWord 0)) := by
  refine ⟨⟨⟨rfl, rfl⟩, ?_⟩, ?_, ?_, ?_, ?_⟩ <;> unfold RefusedAccess <;> decide
theorem witness_AdmittedReadsReturnState :
    Delivers (withPort State.reset [.read 0x058 8]) (hostRead (withPort State.reset [.read 0x058 8]) 0x058) [] ∧
    (4095 < State.reset.config.cells ∧ State.reset.config.cells ≤ 4096 ∧
      Delivers (withPort State.reset [.read 0x8FF8 8])
        (hostRead (withPort State.reset [.read 0x8FF8 8]) (0x1000 + 8 * 4095)) []) := by decide
theorem witness_OperandWritesAreVerbatim :
    ∀ off ∈ [0x028, 0x030, 0x038], Delivers (written State.reset off 0x7FF0000000000001)
      (hostWrite (written State.reset off 0x7FF0000000000001) off 0x7FF0000000000001) [] :=
  fun _ _ => written_delivers _ _ _ rfl
theorem witness_CellWriteIsReadBack :
    ∃ s : State, 4095 < s.config.cells ∧ 0 < s.config.cells ∧ s.config.cells ≤ 4096 ∧
      Delivers s (hostWrite s (0x1000 + 8 * 4095) 0xFFFFFFFFFFFFFFFF) (hostRead s (0x1000 + 8 * 0) :: []) :=
  ⟨withPort State.reset [.write 0x8FF8 (bytesOfWord 0xFFFFFFFFFFFFFFFF), .read 0x1000 8], by decide, by decide,
    by decide, rfl, rfl⟩
theorem witness_BytesAreLittleEndian :
    7 < 8 ∧ (bytesOfWord 0x0807060504030201).length = 8 ∧ (bytesOfWord 0x0807060504030201)[7]? = some 0x08 := by decide
theorem witness_IntegerCodesReadBack :
    (-128 ≤ (-128 : Int) ∧ (-128 : Int) ≤ 127) ∧ (-2 ^ 31 ≤ (2 ^ 31 - 1 : Int) ∧ (2 ^ 31 - 1 : Int) ≤ 2 ^ 31 - 1) := by
  decide

/-! ### Witnesses of the statements on the slicer and the mapper -/

/-- 16-QAM in I8SAT with the symbol of H2 and PREC = 4.0 (S6). -/
def sliceable : State :=
  ((unit .qam16 .i8sat).setSymbol 0x3FEE5B9D136C6D96 0xBFD43D136248490F).setPrec 0x4010000000000000

theorem witness_FoldFollowsItsRecurrence :
    1 ≤ 5 ∧ ∃ l₀, (fold 0x3FA39B019B777AD9 5 0x3FF0000000000000)[3]? = some l₀ ∧ 3 + 1 < 5 :=
  ⟨by decide, _, rfl, by decide⟩
theorem witness_HardDecidesEverySlot :
    sliceable.cfg = some { order := .qam16, fmt := .i8sat } ∧
    SlotsFit sliceable { order := .qam16, fmt := .i8sat } 4092 1 ∧
    isFinite sliceable.symRe = true ∧ isFinite sliceable.symIm = true := by decide
/-- Under SATURATE, and under FAULT with no code that overflows. -/
theorem witness_SoftQuantizesEverySlot :
    sliceable.cfg = some { order := .qam16, fmt := .i8sat } ∧
    SlotsFit sliceable { order := .qam16, fmt := .i8sat } 4092 1 ∧
    isFinite sliceable.symRe = true ∧ isFinite sliceable.symIm = true ∧ isFinite sliceable.prec = true ∧
    sliceable.config.overflow ≠ .fault ∧
    ∀ l r, quantize .even .i8sat sliceable.dist sliceable.prec l ≠ .overflow r :=
  ⟨by decide, by decide, by decide, by decide, by decide, by decide, fun _ _ h => by cases h⟩
theorem witness_SlicerTouchesOnlyItsSlots :
    (∃ t, exec (.soft 0 1) sliceable = .next t) ∧ sliceable.cfg = some { order := .qam16, fmt := .i8sat } ∧
    (∃ t, exec (.hard 0 1) State.reset = .next t) ∧ State.reset.cfg = none :=
  ⟨(complete_next (.soft 0 1) sliceable (softEffect 0 1 sliceable)).imp fun _ h => h.1, rfl,
    (complete_next (.hard 0 1) State.reset (hardEffect 0 1 State.reset)).imp fun _ h => h.1, rfl⟩
/-- W8: SYM_RE exactly at amp(2), and SYM_IM = -0.0. -/
def onBoundary : State := (unit .qam16 .f64).setSymbol 0x3FE43D136248490F 0x8000000000000000

theorem witness_BoundariesDecodeToPlusOne :
    onBoundary.cfg = some { order := .qam16, fmt := .f64 } ∧
    SlotsFit onBoundary { order := .qam16, fmt := .f64 } 0 1 ∧
    isFinite onBoundary.symRe = true ∧ isFinite onBoundary.symIm = true ∧
    (∃ t, exec (.hard 0 1) onBoundary = .next t) ∧
    (∃ l, codeLevel? { order := .qam16, fmt := .f64 } onBoundary 2 = some l ∧ fpMag l.dist = 0) ∧
    ∃ l, codeLevel? { order := .qam16, fmt := .f64 } onBoundary 1 = some l ∧ fpMag l.dist = 0 :=
  ⟨rfl, by decide, by decide, by decide,
    (complete_next (.hard 0 1) onBoundary (hardEffect 0 1 onBoundary)).imp fun _ h => h.1,
    ⟨{ lt := false, dist := 0 }, by decide +kernel, by decide⟩,
    ⟨{ lt := false, dist := 0x8000000000000000 }, by decide +kernel, by decide⟩⟩
theorem witness_HardDecisionIsSignOfDistance :
    isFinite 0x3FF0000000000000 = true ∧ ∀ a ∈ thresholds 0x3FA39B019B777AD9 5, isFinite a = true :=
  ⟨by decide, List.all_eq_true.1 (by decide +kernel)⟩
/-- MAP and HARD on 16-QAM in I32, from the first cells to the last. -/
theorem witness_NoiselessRoundTrip :
    ∃ s : State, s.cfg = some { order := .qam16, fmt := .i32 } ∧ s.amp = (specRow QamOrder.qam16.bits).2.2.1 ∧
      SlotsFit s { order := .qam16, fmt := .i32 } 0 1 ∧ SlotsFit s { order := .qam16, fmt := .i32 } 4092 1 ∧
      bipolarCodes? .i32 (readSlots s 0 1 4) = some [1, -1, -1, 1] :=
  ⟨withCells (unit .qam16 .i32) [1, 0xFFFFFFFFFFFFFFFF, 0xFFFFFFFF, 1], by decide, by decide +kernel, by decide,
    by decide, by decide +kernel⟩
theorem witness_MapReconstructsSymbol :
    ∃ s : State, s.cfg = some { order := .qam16, fmt := .i8sat } ∧
      SlotsFit s { order := .qam16, fmt := .i8sat } 0 1 ∧
      ∀ c, c < 4 → BipolarWord .i8sat (s.readCell (codeSlot 0 1 c)) :=
  ⟨withCells (unit .qam16 .i8sat) [0xFF, 0x01, 0x1FF, 0xFFFFFFFFFFFFFF01], by decide, by decide, by
    intro c hc
    unfold BipolarWord
    interval_cases c <;> decide +kernel⟩
theorem witness_ConstellationIsGrayCoded :
    1 ≤ 2 ∧ [1, -1] ∈ allBipolar 2 ∧ [1, 1] ∈ allBipolar 2 ∧ composeAxis [1, 1] = composeAxis [1, -1] + 2 := by decide

/-! ### Witnesses of the statements on quantize and binary64 -/

/-- y = 1000 and y = -1000. -/
theorem witness_SoftI8CodesSaturate :
    flt (f64 127) (rint .even (fmul (f64 1000) (fmul (f64 1) (f64 1)))) = true ∧
    flt (rint .away (fmul (f64 (-1000)) (fmul (f64 1) (f64 1)))) (f64 (-128)) = true := by decide +kernel
theorem witness_SoftI8CodesStayInRange :
    isFinite (f64 1000) = true ∧ isFinite (f64 (-1000)) = true ∧ flt (fabs 0x3FE43D136248490F) (f64 1) = true ∧
    quantize .even .i8sat 0x3FE43D136248490F (f64 1000) (f64 (-1000)) = .int (-128) := by decide +kernel
/-- The largest finite operands. -/
theorem witness_QuantizeOfFiniteIsNeverNaN :
    isFinite 0x7FEFFFFFFFFFFFFF = true ∧ isFinite 0xFFEFFFFFFFFFFFFF = true ∧
    flt (fabs 0xBFE43D136248490F) (f64 1) = true := by decide +kernel
theorem witness_ZeroPrecisionGivesZeroCodes :
    isFinite 0x3FE43D136248490F = true ∧ isFinite 0xBFE0000000000000 = true ∧ fpMag 0x8000000000000000 = 0 := by decide
/-- y = 126.5 and its negation, at the clauses' bounds (126 under EVEN). -/
theorem witness_NegatedPrecisionNegatesCodes :
    isFinite (f64 1) = true ∧ isFinite 0x405FA00000000000 = true ∧ isFinite (fmul (f64 1) (f64 1)) = true ∧
    quantize .even .i8sat (f64 1) (f64 1) 0x405FA00000000000 = .int 126 ∧ (-128 : Int) < 126 ∧ (126 : Int) < 127 ∧
    quantize .even .i32 (f64 1) (f64 1) (f64 (-2 ^ 31 + 1)) = .int (-2 ^ 31 + 1) ∧
      (-2 ^ 31 : Int) < -2 ^ 31 + 1 := by decide +kernel
/-- r = 2^31 - 1 fits and r = 2^31 does not. -/
theorem witness_I32OverflowFollowsParameter :
    (f64 (2 ^ 31 - 1) = rint .even (fmul (f64 (2 ^ 31 - 1)) (fmul (f64 1) (f64 1))) ∧
      isNaN (f64 (2 ^ 31 - 1)) = false ∧ toInt (f64 (2 ^ 31 - 1)) ≤ 2 ^ 31 - 1) ∧
    (f64 (2 ^ 31) = rint .even (fmul (f64 (2 ^ 31)) (fmul (f64 1) (f64 1))) ∧ isNaN (f64 (2 ^ 31)) = false ∧
      ¬ toInt (f64 (2 ^ 31)) ≤ 2 ^ 31 - 1) := by decide +kernel
/-- 1.0 - 2^-54, halfway between two binary64 values. -/
theorem witness_DifferenceIsNearest :
    isFinite 0x3FF0000000000000 = true ∧ isFinite 0x3C90000000000000 = true ∧
    isFinite (fsub 0x3FF0000000000000 0x3C90000000000000) = true ∧
    (fpValue 0x3FF0000000000000 - (fpValue 0x3FF0000000000000 - fpValue 0x3C90000000000000)).natAbs =
      (fpValue 0x3FEFFFFFFFFFFFFF - (fpValue 0x3FF0000000000000 - fpValue 0x3C90000000000000)).natAbs ∧
    isFinite 0x7FEFFFFFFFFFFFFF = true ∧ isFinite 0xFC90000000000000 = true ∧
    isFinite (fsub 0x7FEFFFFFFFFFFFFF 0xFC90000000000000) = false ∧
    isFinite (fsub 0x7FEFFFFFFFFFFFFF 0xFC8FFFFFFFFFFFFF) = true := by
  decide +kernel
/-- (1 + 2^-52) times 1.5, halfway between two binary64 values. -/
theorem witness_ProductIsNearest :
    isFinite 0x3FF0000000000001 = true ∧ isFinite 0x3FF8000000000000 = true ∧
    isFinite (fmul 0x3FF0000000000001 0x3FF8000000000000) = true ∧
    (fpValue 0x3FF8000000000001 * 2 ^ 1074 - fpValue 0x3FF0000000000001 * fpValue 0x3FF8000000000000).natAbs =
      (fpValue 0x3FF8000000000002 * 2 ^ 1074 - fpValue 0x3FF0000000000001 * fpValue 0x3FF8000000000000).natAbs ∧
    fpMag 0x3FF8000000000000 ≠ 0 ∧ fpMag 0x8000000000000000 = 0 ∧ isFinite 0x8000000000000000 = true := by
  decide +kernel
/-- Dividing by 3, by the least subnormal, and the least subnormal halved: a tie. -/
theorem test_fdiv :
    fdiv 0x3FF0000000000000 0x4008000000000000 = 0x3FD5555555555555 ∧
    fdiv 0x3FF0000000000000 0x8000000000000001 = 0xFFF0000000000000 ∧
    fdiv 0x0000000000000001 0x4000000000000000 = 0 := by decide +kernel
/-- 2.5, a tie. -/
theorem witness_RintIsNearestInteger :
    isFinite 0x4004000000000000 = true ∧
    2 * (fpValue (rint .away 0x4004000000000000) - fpValue 0x4004000000000000).natAbs = 2 ^ 1074 := by decide +kernel
theorem witness_IntegersConvertExactly : (-(2 ^ 53) : Int).natAbs ≤ 2 ^ 53 := by decide
theorem witness_ComparisonOrdersValues :
    isFinite 0x8000000000000000 = true ∧ isFinite 0x7FEFFFFFFFFFFFFF = true ∧ isNaN 0x7FF0000000000001 = true ∧
    fpInf false = 0x7FF0000000000000 ∧ fpInf true = 0xFFF0000000000000 := by
  decide

/-- Another AMP_TABLE that keeps R110: the closed form at 16 and 64 (spec/90_conflicts.md C7), and at 256 and 1024 the
value next above that of R100. -/
def otherTable : FacTable :=
  { fac16 := 0x3FF0DD90273C3CE2, fac64 := 0x3FEDA05179501504,
    fac256 := 0x3FEBD0B51D706D24, fac1024 := 0x3FEAF52235C448EC }

theorem otherTable_normalized : normalized otherTable := by
  intro o
  rw [MeanEnergyNearOne, sum_energy]
  cases o <;> decide +kernel

theorem witness_MeanEnergyIsOne : ∃ (s : State) (st : Setting), wfConfig s.config ∧ s.Inv ∧ s.cfg = some st := by
  let s := State.start { Config.defaults with facTable := otherTable } []
  have h : s.Inv := start_inv _ _
  exact ⟨s.loadSetting { order := .qam64, fmt := .f64 }, { order := .qam64, fmt := .f64 },
    ⟨rfl, Nat.le_add_left 1 4095, Nat.le_refl 4096, otherTable_normalized⟩, ⟨loadSetting_tableOk s _, h.2⟩, rfl⟩

end Sys2Proof.Tests
end

