-- ==== Sys2Proof/Proofs/Scope.lean ====
section
/-! SUPPORT. The scope statements about steps: no step changes a parameter, a command write runs its command, and
what the unit is not addressed by changes nothing (spec/00_scope.md R4, R8, R18). -/

namespace Sys2Proof.Machine

/-! ### Parameters -/

@[simp] theorem State.busRead_config (s : State) (off width : Nat) : (s.busRead off width).config = s.config := by
  unfold State.busRead; split <;> rfl

@[simp] theorem State.writeReg_config (s : State) (v : Word) (r : Reg) : (s.writeReg v r).config = s.config := by
  cases r <;> rfl

@[simp] theorem State.busWrite_config (s : State) (off : Nat) (data : List Byte) :
    (s.busWrite off data).config = s.config := by
  unfold State.busWrite
  split
  · exact s.writeReg_config _ _
  · rfl
  · rfl

theorem exec_keeps_config {i : Instr} {s t : State} (h : exec i s = .next t) : t.config = s.config := by
  cases exec_cases h with
  | faulted c => exact s.recordFault_config _ c
  | configured st => rfl
  | reported st hc => rfl
  | sliced ws d hw => rfl
  | mapped re im => rfl

theorem step_keeps_config {s t : State} (h : step s = .next t) : t.config = s.config := by
  cases step_cases h with
  | command data rest hp hr hl i hi _ ht => exact (exec_keeps_config ht).trans (s.takeEvent_config rest)
  | idle | asserted | released | elsewhereRead | elsewhereWrite | read | write | illegal => simp

/-- Settles O11: the parameters are data that every case of `StepResult` leaves alone. -/
theorem parametersNeverChange : Obligations.ParametersNeverChange :=
  fun _ _ => step_keeps_config

/-! ### Command writes -/

/-- Eight bytes written to CMD that decode to a command run it in that step (R59). -/
theorem step_of_command {s : State} {data : List Byte} {rest : List HostEvent} {i : Instr}
    (hr : s.resetAsserted = false) (hp : s.port = .write s.config.base data :: rest) (hl : data.length = 8)
    (hi : decodeBytes data = .ok i) : step s = exec i (s.takeEvent rest) := by
  rw [step, nextDelivery_command hr hp hl]
  simp only [hi]

/-- Settles O6: the eight bytes of the word are the command write of `step_of_command`. -/
theorem stepRunsDecodedCommand : Obligations.StepRunsDecodedCommand := by
  rintro s rest v i ⟨hr, hp⟩ hi
  have hd : decodeBytes (bytesOfWord v) = .ok i := by
    rw [decodeBytes_eight (bytesOfWord_length v), wordOfBytes_bytesOfWord, hi]
  exact step_of_command hr hp (bytesOfWord_length v) hd

/-- A table word of 64 bits decodes as the bytes that `commandEvent` writes. -/
theorem decodeBytes_of_decodeTableWord {w : Nat} {i : Instr} (h : decodeTableWord 64 w = some i) :
    decodeBytes (leBytes 8 (w % 2 ^ 64)) = .ok i := by
  rw [decodeTableWord, if_pos (Nat.mod_lt w (by decide))] at h
  cases hd : decodeBytes (leBytes 8 (w % 2 ^ 64)) with
  | error e => rw [hd] at h; cases h
  | ok j => rw [hd] at h; cases h; rfl

/-- Settles O7: `withFetchWord` puts the command write of `step_of_command` in front of the port. -/
theorem fetchWordRunsTableWord : Obligations.FetchWordRunsTableWord := by
  intro s w i h
  exact step_of_command (s := s.withFetchWord 64 w) rfl rfl (leBytes_length 8 _) (decodeBytes_of_decodeTableWord h)

/-! ### Nothing addressed -/

theorem step_of_empty_port {s : State} (h : s.port = []) : step s = .next s := by
  simp only [step, nextDelivery, h]

/-- An access outside the window only goes off the port (log 6). -/
theorem deliver_outside_window {s : State} {e : HostEvent} {addr : Nat} (hr : s.resetAsserted = false)
    (hw : inWindow s addr = false) (he : (∃ width, e = .read addr width) ∨ ∃ data, e = .write addr data) :
    deliver s e = .done (.next s) := by
  rcases he with ⟨width, rfl⟩ | ⟨data, rfl⟩ <;> simp [deliver, hr, hw]

/-- Settles O10: the empty port and the access outside the window are two of the branches of `nextDelivery`. -/
theorem nothingAddressedChangesNothing : Obligations.NothingAddressedChangesNothing := by
  refine ⟨fun s => step_of_empty_port, ?_⟩
  rintro s e rest ⟨hr, hp⟩ ⟨addr, hout, he⟩
  have hw : inWindow (s.takeEvent rest) addr = false := by
    rw [inWindow_takeEvent, Bool.eq_false_iff, ne_eq, inWindow_iff]
    omega
  simp only [step, nextDelivery, hp, deliver_outside_window (s := s.takeEvent rest) hr hw he]
  rfl

end Sys2Proof.Machine
end

