-- ==== Sys2Proof/Proofs/Binary64Encoding.lean ====
section
/-! SUPPORT. Binary64 encodings as a sign and a magnitude: the fields, the classes and the value of a word are read
off its magnitude, which orders the values (spec/00_scope.md R13). -/

namespace Sys2Proof.Machine

/-! ### Sign and magnitude -/

theorem fpMag_eq (w : Word) : fpMag w = w.toNat % 2 ^ 63 := by
  simp [fpMag]

theorem fpSign_eq (w : Word) : fpSign w = decide (2 ^ 63 ≤ w.toNat) := BitVec.msb_eq_decide w

theorem fpMag_lt (w : Word) : fpMag w < 2 ^ 63 := by
  rw [fpMag_eq]
  exact Nat.mod_lt _ (by decide)

theorem fpExpField_eq (w : Word) : fpExpField w = fpMag w / 2 ^ 52 := by
  simp only [fpExpField, fpMag_eq, BitVec.extractLsb'_toNat, Nat.shiftRight_eq_div_pow]
  omega

theorem fpFrac_eq (w : Word) : fpFrac w = fpMag w % 2 ^ 52 := by
  simp only [fpFrac, fpMag_eq, BitVec.extractLsb'_toNat, Nat.shiftRight_eq_div_pow]
  omega

theorem ofSignMag_toNat (neg : Bool) {mag : Nat} (h : mag < 2 ^ 63) :
    (ofSignMag neg mag).toNat = (if neg then 2 ^ 63 else 0) + mag := by
  rw [ofSignMag, BitVec.toNat_ofNat, Nat.mod_eq_of_lt]
  split <;> omega

theorem fpSign_ofSignMag (neg : Bool) {mag : Nat} (h : mag < 2 ^ 63) : fpSign (ofSignMag neg mag) = neg := by
  rw [fpSign_eq, ofSignMag_toNat neg h]
  cases neg <;> simp; omega

theorem fpMag_ofSignMag (neg : Bool) {mag : Nat} (h : mag < 2 ^ 63) : fpMag (ofSignMag neg mag) = mag := by
  rw [fpMag_eq, ofSignMag_toNat neg h]
  cases neg <;> simp <;> omega

@[simp] theorem ofSignMag_fpSign_fpMag (w : Word) : ofSignMag (fpSign w) (fpMag w) = w := by
  apply BitVec.eq_of_toNat_eq
  have := w.isLt
  rw [ofSignMag_toNat _ (fpMag_lt w), fpSign_eq, fpMag_eq]
  simp only [decide_eq_true_eq]
  split <;> omega

theorem eq_ofSignMag_iff {w : Word} {neg : Bool} {mag : Nat} (h : mag < 2 ^ 63) :
    w = ofSignMag neg mag ↔ fpSign w = neg ∧ fpMag w = mag := by
  constructor
  · rintro rfl
    exact ⟨fpSign_ofSignMag neg h, fpMag_ofSignMag neg h⟩
  · rintro ⟨rfl, rfl⟩
    exact (ofSignMag_fpSign_fpMag w).symm

/-- The last bit of a word is the last bit of its magnitude. -/
theorem getLsbD_zero_eq (w : Word) : w.getLsbD 0 = decide (fpMag w % 2 = 1) := by
  rw [BitVec.getLsbD, Nat.testBit_zero, fpMag_eq]
  congr 2
  omega

/-! ### Classes -/

/-- The magnitude of the infinities. -/
def infMag : Nat := 2047 * 2 ^ 52

theorem infMag_pos : 0 < infMag := by decide

theorem infMag_lt : infMag < 2 ^ 63 := by decide

theorem isFinite_iff {w : Word} : isFinite w = true ↔ fpMag w < infMag := by
  have := fpMag_lt w
  simp only [isFinite, fpExpField_eq, bne_iff_ne, infMag]
  omega

theorem isNaN_iff {w : Word} : isNaN w = true ↔ infMag < fpMag w := by
  have := fpMag_lt w
  simp only [isNaN, fpExpField_eq, fpFrac_eq, Bool.and_eq_true, bne_iff_ne, beq_iff_eq, infMag]
  omega

theorem isInf_iff {w : Word} : isInf w = true ↔ fpMag w = infMag := by
  have := fpMag_lt w
  simp only [isInf, fpExpField_eq, fpFrac_eq, Bool.and_eq_true, beq_iff_eq, infMag]
  omega

theorem isNaN_of_isFinite {w : Word} (h : isFinite w = true) : isNaN w = false := by
  have := isFinite_iff.1 h
  exact Bool.eq_false_iff.2 fun hn => absurd (isNaN_iff.1 hn) (by omega)

theorem isInf_of_isFinite {w : Word} (h : isFinite w = true) : isInf w = false := by
  have := isFinite_iff.1 h
  exact Bool.eq_false_iff.2 fun hi => absurd (isInf_iff.1 hi) (by omega)

theorem isZero_iff {w : Word} : isZero w = true ↔ fpMag w = 0 := beq_iff_eq

theorem isFinite_ofSignMag_iff (neg : Bool) {mag : Nat} (h : mag < 2 ^ 63) :
    isFinite (ofSignMag neg mag) = true ↔ mag < infMag := by
  rw [isFinite_iff, fpMag_ofSignMag neg h]

@[simp] theorem isFinite_fpInf (neg : Bool) : isFinite (fpInf neg) = false := by cases neg <;> decide

@[simp] theorem fpSign_fpInf (neg : Bool) : fpSign (fpInf neg) = neg := fpSign_ofSignMag neg (by decide)

@[simp] theorem fpMag_fpInf (neg : Bool) : fpMag (fpInf neg) = infMag := fpMag_ofSignMag neg (by decide)

@[simp] theorem fpSign_fpZero (neg : Bool) : fpSign (fpZero neg) = neg := fpSign_ofSignMag neg (by decide)

@[simp] theorem isNaN_fpInf (neg : Bool) : isNaN (fpInf neg) = false := by cases neg <;> decide

@[simp] theorem isNaN_quietNaN (free : Word) : isNaN (quietNaN free) = true := by
  have hones : (quietNaN free).extractLsb' 51 12 = BitVec.allOnes 12 := by
    rw [quietNaN, BitVec.extractLsb'_or]
    exact BitVec.or_allOnes
  have htop := congrArg BitVec.toNat hones
  rw [BitVec.extractLsb'_toNat, Nat.shiftRight_eq_div_pow, BitVec.toNat_allOnes] at htop
  rw [isNaN_iff, fpMag_eq, infMag]
  omega

/-! ### Values -/

/-- A magnitude with a sign. -/
def signed (neg : Bool) (v : Int) : Int := if neg then -v else v

@[simp] theorem signed_zero (neg : Bool) : signed neg 0 = 0 := by cases neg <;> rfl

@[simp] theorem natAbs_signed (neg : Bool) (v : Int) : (signed neg v).natAbs = v.natAbs := by
  cases neg <;> simp [signed]

theorem signed_mul_signed (a b : Bool) (v w : Int) : signed a v * signed b w = signed (a != b) (v * w) := by
  cases a <;> cases b <;> simp [signed]

theorem signed_mul_right (a : Bool) (v w : Int) : signed a v * w = signed a (v * w) :=
  (signed_mul_signed a false v w).trans (by rw [Bool.bne_false])

theorem signed_natAbs (d : Int) : signed (decide (d < 0)) d.natAbs = d := by
  by_cases h : d < 0
  · simp [signed, h, abs_of_neg h]
  · simp [signed, h, abs_of_nonneg (not_lt.1 h)]

theorem sign_signed (a : Bool) {v : Int} (hv : 0 < v) : (signed a v).sign = signed a 1 := by
  cases a <;> simp [signed, Int.sign_neg, Int.sign_eq_one_of_pos hv]

/-- The value of a finite magnitude, in units of 2^-1074. -/
def magUnits (m : Nat) : Nat :=
  if m / 2 ^ 52 = 0 then m else (m % 2 ^ 52 + 2 ^ 52) * 2 ^ (m / 2 ^ 52 - 1)

theorem fpExp_pos (w : Word) : 1 ≤ fpExp w := le_max_right _ _

theorem fpSig_lt (w : Word) : fpSig w < 2 ^ 53 := by
  rw [fpSig, fpFrac_eq]
  split <;> omega

/-- The value of a magnitude, by the significand and the exponent of its word. -/
theorem magUnits_fpMag (w : Word) : magUnits (fpMag w) = fpSig w * 2 ^ (fpExp w - 1) := by
  rw [magUnits, fpSig, fpExp, ← fpExpField_eq, ← fpFrac_eq]
  split
  case isTrue h =>
    have : fpFrac w = fpMag w := by rw [fpExpField_eq] at h; rw [fpFrac_eq]; omega
    simp [h, this]
  case isFalse h => rw [max_eq_left (by omega)]

theorem fpValue_eq (w : Word) : fpValue w = signed (fpSign w) (magUnits (fpMag w)) := by
  rw [fpValue, fpScaled, magUnits_fpMag]
  cases fpSign w <;> simp [signed]

theorem fpValue_ofSignMag (neg : Bool) {mag : Nat} (h : mag < 2 ^ 63) :
    fpValue (ofSignMag neg mag) = signed neg (magUnits mag) := by
  rw [fpValue_eq, fpSign_ofSignMag neg h, fpMag_ofSignMag neg h]

theorem fpKey_eq (w : Word) : fpKey w = signed (fpSign w) (fpMag w) := rfl

@[simp] theorem magUnits_zero : magUnits 0 = 0 := rfl

/-- Up to a whole exponent step, the value of `l` steps and a significand is the significand times `2 ^ l`. -/
theorem magUnits_of_sig {l q : Nat} (hq : q ≤ 2 ^ 53) (hl : l = 0 ∨ 2 ^ 52 ≤ q) :
    magUnits (l * 2 ^ 52 + q) = q * 2 ^ l := by
  obtain h | h | rfl : q < 2 ^ 52 ∨ (2 ^ 52 ≤ q ∧ q < 2 ^ 53) ∨ q = 2 ^ 53 := by omega
  · obtain rfl : l = 0 := by omega
    rw [magUnits, if_pos (by omega)]
    omega
  · have hE : (l * 2 ^ 52 + q) / 2 ^ 52 = l + 1 := by omega
    have hF : (l * 2 ^ 52 + q) % 2 ^ 52 + 2 ^ 52 = q := by omega
    rw [magUnits, hE, hF, if_neg (by omega), Nat.add_sub_cancel]
  · have hE : (l * 2 ^ 52 + 2 ^ 53) / 2 ^ 52 = l + 2 := by omega
    have hF : (l * 2 ^ 52 + 2 ^ 53) % 2 ^ 52 + 2 ^ 52 = 2 ^ 52 := by omega
    rw [magUnits, hE, hF, if_neg (by omega)]
    change 2 ^ 52 * 2 ^ (l + 1) = 2 ^ 53 * 2 ^ l
    ring

/-- A magnitude as exponent steps and a significand, below which the next magnitude has the same exponent. -/
theorem exists_sig_of_mag (m : Nat) : ∃ l q, m = l * 2 ^ 52 + q ∧ q < 2 ^ 53 ∧ (l = 0 ∨ 2 ^ 52 ≤ q) :=
  ⟨m / 2 ^ 52 - 1, m - (m / 2 ^ 52 - 1) * 2 ^ 52, by omega, by omega, by omega⟩

theorem magUnits_lt_succ (m : Nat) : magUnits m < magUnits (m + 1) := by
  obtain ⟨l, q, rfl, hq, hl⟩ := exists_sig_of_mag m
  rw [add_assoc, magUnits_of_sig hq.le hl, magUnits_of_sig (by omega) (by omega)]
  exact Nat.mul_lt_mul_of_pos_right (Nat.lt_succ_self q) (Nat.two_pow_pos l)

theorem magUnits_strictMono : StrictMono magUnits := strictMono_nat_of_lt_succ magUnits_lt_succ

theorem magUnits_eq_zero_iff {m : Nat} : magUnits m = 0 ↔ m = 0 :=
  magUnits_strictMono.injective.eq_iff' magUnits_zero

theorem fpSig_pos {w : Word} (h : fpMag w ≠ 0) : 0 < fpSig w := by
  have hunits := mt magUnits_eq_zero_iff.1 h
  rw [magUnits_fpMag] at hunits
  exact Nat.pos_of_ne_zero (left_ne_zero_of_mul hunits)

end Sys2Proof.Machine
end

