-- ==== Sys2Proof/Proofs/Binary64Order.lean ====
section
/-! SUPPORT. The order of binary64 values and the sign bit that `fabs` clears (spec/00_scope.md R13,
spec/41_amplitude.md R107). -/

namespace Sys2Proof.Machine

/-- A strictly monotone map of magnitudes keeps the order of the signed numbers. -/
theorem signed_lt_signed_iff {f : Nat → Nat} (hf : StrictMono f) (h0 : f 0 = 0) (a b : Bool) (m n : Nat) :
    signed a (f m) < signed b (f n) ↔ signed a m < signed b n := by
  have hlt : ∀ {i j : Nat}, f i < f j ↔ i < j := hf.lt_iff_lt
  have hpos : ∀ {i : Nat}, 0 < f i ↔ 0 < i := fun {i} => by simpa [h0] using hlt (i := 0) (j := i)
  have hmn := hlt (i := m) (j := n)
  have hnm := hlt (i := n) (j := m)
  have hm := hpos (i := m)
  have hn := hpos (i := n)
  cases a <;> cases b <;> simp only [signed, Bool.false_eq_true, if_true, if_false] <;> omega

theorem fpKey_lt_iff (a b : Word) : fpKey a < fpKey b ↔ fpValue a < fpValue b := by
  rw [fpKey_eq, fpKey_eq, fpValue_eq, fpValue_eq]
  exact (signed_lt_signed_iff magUnits_strictMono magUnits_zero _ _ _ _).symm

theorem flt_iff {a b : Word} : flt a b = true ↔ isNaN a = false ∧ isNaN b = false ∧ fpKey a < fpKey b := by
  simp [flt, and_assoc]

theorem flt_finite_iff {a b : Word} (ha : isFinite a = true) (hb : isFinite b = true) :
    flt a b = true ↔ fpValue a < fpValue b := by
  simp [flt_iff, isNaN_of_isFinite ha, isNaN_of_isFinite hb, fpKey_lt_iff]

theorem flt_of_isNaN {a b : Word} (h : isNaN a = true ∨ isNaN b = true) : flt a b = false := by
  rcases h with h | h <;> simp [flt, h]

theorem eq_fpInf_iff {w : Word} {neg : Bool} : w = fpInf neg ↔ fpSign w = neg ∧ fpMag w = infMag :=
  eq_ofSignMag_iff (by decide)

theorem fpMag_le_of_not_isNaN {w : Word} (h : isNaN w = false) : fpMag w ≤ infMag := by
  exact not_lt.1 fun hlt => by simp [isNaN_iff.2 hlt] at h

theorem fpKey_fpInf (neg : Bool) : fpKey (fpInf neg) = signed neg infMag := by
  rw [fpKey_eq, fpSign_fpInf, fpMag_fpInf]

theorem fpKey_lt_posInf_iff {a : Word} (h : isNaN a = false) : fpKey a < fpKey (fpInf false) ↔ a ≠ fpInf false := by
  have hmag := fpMag_le_of_not_isNaN h
  have hpos := infMag_pos
  rw [fpKey_fpInf, fpKey_eq, ne_eq, eq_fpInf_iff]
  cases fpSign a <;> simp [signed] <;> omega

theorem negInf_lt_fpKey_iff {a : Word} (h : isNaN a = false) : fpKey (fpInf true) < fpKey a ↔ a ≠ fpInf true := by
  have hmag := fpMag_le_of_not_isNaN h
  have hpos := infMag_pos
  rw [fpKey_fpInf, fpKey_eq, ne_eq, eq_fpInf_iff]
  cases fpSign a <;> simp [signed] <;> omega

theorem flt_posInf (a : Word) : flt a (fpInf false) = (!isNaN a && a != fpInf false) := by
  cases h : isNaN a with
  | true => simp [flt, h]
  | false => rw [Bool.eq_iff_iff]; simp [flt_iff, h, fpKey_lt_posInf_iff h]

theorem negInf_flt (a : Word) : flt (fpInf true) a = (!isNaN a && a != fpInf true) := by
  cases h : isNaN a with
  | true => simp [flt, h]
  | false => rw [Bool.eq_iff_iff]; simp [flt_iff, h, negInf_lt_fpKey_iff h]

/-- Every value that is no NaN has its place between those of the infinities. -/
theorem fpKey_bounds {a : Word} (h : isNaN a = false) :
    fpKey (fpInf true) ≤ fpKey a ∧ fpKey a ≤ fpKey (fpInf false) := by
  have hmag := fpMag_le_of_not_isNaN h
  rw [fpKey_fpInf, fpKey_fpInf, fpKey_eq]
  cases fpSign a <;> simp [signed] <;> omega

theorem posInf_flt (a : Word) : flt (fpInf false) a = false := by
  rw [Bool.eq_false_iff, ne_eq, flt_iff]
  rintro ⟨-, ha, hlt⟩
  exact absurd (fpKey_bounds ha).2 (by omega)

theorem flt_negInf (a : Word) : flt a (fpInf true) = false := by
  rw [Bool.eq_false_iff, ne_eq, flt_iff]
  rintro ⟨ha, -, hlt⟩
  exact absurd (fpKey_bounds ha).1 (by omega)

theorem fabs_getLsbD (a : Word) (j : Nat) : (fabs a).getLsbD j = if j = 63 then false else a.getLsbD j := by
  have hmask : (0x7FFFFFFFFFFFFFFF : Word) = (BitVec.allOnes 63).setWidth 64 := by decide
  rw [fabs, hmask, BitVec.getLsbD_and, BitVec.getLsbD_setWidth, BitVec.getLsbD_allOnes]
  by_cases h : j < 63
  · simp [h, show j < 64 by omega, show j ≠ 63 by omega]
  · by_cases h63 : j = 63
    · simp [h63]
    · rw [if_neg h63, BitVec.getLsbD_of_ge a j (by omega), Bool.false_and]

/-- Settles O60: `flt` compares keys, which order as the values do, and the infinities hold the ends of the keys. -/
theorem comparisonOrdersValues : Obligations.ComparisonOrdersValues :=
  ⟨fun _ _ => flt_finite_iff, flt_posInf, negInf_flt, fun a => ⟨posInf_flt a, flt_negInf a⟩,
    fun _ _ => flt_of_isNaN, by decide, fabs_getLsbD⟩

end Sys2Proof.Machine
end

