-- ==== Sys2Proof/Proofs/Binary64Rounding.lean ====
section
/-! SUPPORT. Rounding: what `roundShift` and `packMag` give is nearest to the exact number among all magnitudes, with
ties to even, and it passes the largest finite magnitude exactly when rounding overflows (spec/00_scope.md R9, R13).
Exact numbers are rationals, in units of 2^-1074. -/

namespace Sys2Proof.Machine

/-! ### Rounding a shifted integer -/

/-- `roundShift` goes down to the quotient or up to the next integer, by the remainder; the tie rule decides the
half. -/
theorem roundShift_cases (tie : TieRule) (n k : Nat) :
    ∃ d r, n = d * 2 ^ k + r ∧
      ((roundShift tie n k = d ∧ 2 * r ≤ 2 ^ k) ∨ (roundShift tie n k = d + 1 ∧ r < 2 ^ k ∧ 2 ^ k ≤ 2 * r)) ∧
      (2 * r = 2 ^ k → (tie = .even → roundShift tie n k % 2 = 0) ∧ (tie = .away → roundShift tie n k = d + 1)) := by
  have hr := Nat.mod_lt n (Nat.two_pow_pos k)
  refine ⟨n / 2 ^ k, n % 2 ^ k, (Nat.div_add_mod' n (2 ^ k)).symm, ?_⟩
  unfold roundShift
  split
  case isTrue hlo => exact ⟨.inl ⟨rfl, hlo.le⟩, fun h => absurd h hlo.ne⟩
  case isFalse hlo =>
    split
    case isTrue hhi => exact ⟨.inr ⟨rfl, hr, hhi.le⟩, fun h => absurd h hhi.ne'⟩
    case isFalse hhi =>
      have heq : 2 * (n % 2 ^ k) = 2 ^ k := by omega
      cases tie with
      | even => exact ⟨by dsimp only; omega, fun _ => ⟨fun _ => by dsimp only; omega, nofun⟩⟩
      | away => exact ⟨.inr ⟨rfl, hr, heq.ge⟩, fun _ => ⟨nofun, fun _ => rfl⟩⟩

/-- `roundShift` is off by at most one half, and by one half only as the tie rule says. -/
theorem roundShift_near (tie : TieRule) (n k : Nat) :
    2 * |(roundShift tie n k * 2 ^ k : Int) - n| ≤ 2 ^ k ∧
    (2 * |(roundShift tie n k * 2 ^ k : Int) - n| = 2 ^ k →
      (tie = .even → roundShift tie n k % 2 = 0) ∧ (tie = .away → n < roundShift tie n k * 2 ^ k)) := by
  obtain ⟨d, r, hn, ⟨hq, hle⟩ | ⟨hq, hr, hge⟩, htie⟩ := roundShift_cases tie n k
  · have herr : (roundShift tie n k * 2 ^ k : Int) - n = -r := by
      rw [hq, hn]
      push_cast
      ring
    rw [herr, abs_neg, Nat.abs_cast]
    refine ⟨by exact_mod_cast hle, fun h => ?_⟩
    obtain ⟨heven, haway⟩ := htie (by exact_mod_cast h)
    exact ⟨heven, fun ha => absurd (hq.symm.trans (haway ha)) (by omega)⟩
  · have herr : (roundShift tie n k * 2 ^ k : Int) - n = ((2 ^ k - r : Nat) : Int) := by
      rw [hq, hn, Nat.cast_sub hr.le]
      push_cast
      ring
    rw [herr, Nat.abs_cast]
    refine ⟨by norm_cast; omega, fun h => ?_⟩
    have h' : 2 * (2 ^ k - r) = 2 ^ k := by exact_mod_cast h
    exact ⟨(htie (by omega)).1, fun _ => by rw [hq, hn, add_mul, one_mul]; omega⟩

/-! ### The nearest magnitude -/

/-- `M` is the magnitude of `x` rounded to nearest, ties to even, the exponent unbounded; it is that of a finite word
exactly when rounding does not overflow. -/
def NearestMag (x : ℚ) (M : Nat) : Prop :=
  (M < infMag ↔ x < overflowUnits) ∧
  ∀ m : Nat, |(magUnits M : ℚ) - x| ≤ |(magUnits m : ℚ) - x| ∧
    (|(magUnits M : ℚ) - x| = |(magUnits m : ℚ) - x| → magUnits m ≠ magUnits M → M % 2 = 0)

/-- `q` is `y` rounded to the nearest integer, ties to even. -/
def NearestEven (y : ℚ) (q : Nat) : Prop := |(q : ℚ) - y| ≤ 1 / 2 ∧ (|(q : ℚ) - y| = 1 / 2 → q % 2 = 0)

theorem NearestEven.le_of_le {y : ℚ} {q b : Nat} (h : NearestEven y q) (hb : (b : ℚ) ≤ y) : b ≤ q := by
  have := abs_le.1 h.1
  have hlt : (b : ℚ) < q + 1 := by linarith
  exact Nat.lt_succ_iff.1 (by exact_mod_cast hlt)

theorem NearestEven.le_of_ge {y : ℚ} {q b : Nat} (h : NearestEven y q) (hb : y ≤ b) : q ≤ b := by
  have := abs_le.1 h.1
  have hlt : (q : ℚ) < b + 1 := by linarith
  exact Nat.lt_succ_iff.1 (by exact_mod_cast hlt)

/-- No integer is nearer than the rounded one, and another one as near makes a tie. -/
theorem NearestEven.near {y : ℚ} {q : Nat} (h : NearestEven y q) (z : Nat) :
    |(q : ℚ) - y| ≤ |(z : ℚ) - y| ∧ (|(q : ℚ) - y| = |(z : ℚ) - y| → z ≠ q → q % 2 = 0) := by
  by_cases hz : z = q
  · exact ⟨by rw [hz], fun _ hne => absurd hz hne⟩
  · have hone : (1 : ℚ) ≤ |(z : ℚ) - q| := by
      have : (1 : Int) ≤ |(z : Int) - q| := Int.one_le_abs (by omega)
      exact_mod_cast this
    have htri : |(z : ℚ) - q| ≤ |(z : ℚ) - y| + |(q : ℚ) - y| := by
      have := abs_sub_le (z : ℚ) y q
      rwa [abs_sub_comm y] at this
    have hhalf := h.1
    exact ⟨by linarith, fun heq _ => h.2 (by linarith)⟩

/-- The magnitudes near `2 ^ l * [2^52, 2^53]` are the multiples of `2 ^ l`; the others lie below. -/
theorem magUnits_multiple_or_lt (m l : Nat) :
    (∃ z, magUnits m = z * 2 ^ l) ∨ (l ≠ 0 ∧ magUnits m < 2 ^ 52 * 2 ^ l) := by
  obtain ⟨j, q, rfl, hq, hj⟩ := exists_sig_of_mag m
  rw [magUnits_of_sig hq.le hj]
  by_cases h : l ≤ j
  · exact .inl ⟨q * 2 ^ (j - l), by rw [mul_assoc, ← pow_add, Nat.sub_add_cancel h]⟩
  · refine .inr ⟨by omega, ?_⟩
    calc q * 2 ^ j < 2 ^ 53 * 2 ^ j := Nat.mul_lt_mul_of_pos_right hq (Nat.two_pow_pos j)
      _ = 2 ^ 52 * 2 ^ (j + 1) := by ring
      _ ≤ 2 ^ 52 * 2 ^ l := Nat.mul_le_mul_left _ (Nat.pow_le_pow_right (by decide) (by omega))

theorem NearestEven.le_sig {y : ℚ} {q : Nat} (hq : NearestEven y q) (hhi : y ≤ 2 ^ 53) : q ≤ 2 ^ 53 :=
  hq.le_of_ge (by exact_mod_cast hhi)

theorem NearestEven.sig_le {y : ℚ} {q : Nat} (hq : NearestEven y q) (hlo : 2 ^ 52 ≤ y) : 2 ^ 52 ≤ q :=
  hq.le_of_le (by exact_mod_cast hlo)

section
variable {y : ℚ} {l q : Nat} (hq : NearestEven y q) (hhi : y ≤ 2 ^ 53) (hlo : l = 0 ∨ 2 ^ 52 ≤ y)
include hq hhi hlo

theorem NearestEven.magUnits_eq : magUnits (l * 2 ^ 52 + q) = q * 2 ^ l :=
  magUnits_of_sig (hq.le_sig hhi) (hlo.imp_right hq.sig_le)

/-- Rounding the significand finds the nearest of all magnitudes. -/
theorem NearestEven.near_mag (m : Nat) :
    |(magUnits (l * 2 ^ 52 + q) : ℚ) - y * 2 ^ l| ≤ |(magUnits m : ℚ) - y * 2 ^ l| ∧
    (|(magUnits (l * 2 ^ 52 + q) : ℚ) - y * 2 ^ l| = |(magUnits m : ℚ) - y * 2 ^ l| →
      magUnits m ≠ magUnits (l * 2 ^ 52 + q) → (l * 2 ^ 52 + q) % 2 = 0) := by
  have hp : (0 : ℚ) < 2 ^ l := by positivity
  have hscale : ∀ z : Nat, |((z * 2 ^ l : Nat) : ℚ) - y * 2 ^ l| = |(z : ℚ) - y| * 2 ^ l := fun z => by
    push_cast
    rw [← sub_mul, abs_mul, abs_of_pos hp]
  rw [hq.magUnits_eq hhi hlo, hscale]
  rcases magUnits_multiple_or_lt m l with ⟨z, hz⟩ | ⟨hl, hlt⟩
  · obtain ⟨hle, htie⟩ := hq.near z
    rw [hz, hscale]
    refine ⟨mul_le_mul_of_nonneg_right hle hp.le, fun heq hne => ?_⟩
    have := htie (mul_right_cancel₀ hp.ne' heq) (fun h => hne (by rw [h]))
    omega
  · have hy : (2 : ℚ) ^ 52 ≤ y := hlo.resolve_left hl
    have hle := (hq.near (2 ^ 52)).1
    have hm : (magUnits m : ℚ) < 2 ^ 52 * 2 ^ l := by exact_mod_cast hlt
    have hfar : |(q : ℚ) - y| * 2 ^ l < |(magUnits m : ℚ) - y * 2 ^ l| := by
      rw [Nat.cast_pow, Nat.cast_ofNat, abs_of_nonpos (show (2 : ℚ) ^ 52 - y ≤ 0 by linarith)] at hle
      have hyl := mul_le_mul_of_nonneg_right hy hp.le
      rw [abs_of_nonpos (show (magUnits m : ℚ) - y * 2 ^ l ≤ 0 by linarith)]
      calc |(q : ℚ) - y| * 2 ^ l ≤ -(2 ^ 52 - y) * 2 ^ l := mul_le_mul_of_nonneg_right hle hp.le
        _ = y * 2 ^ l - 2 ^ 52 * 2 ^ l := by ring
        _ < -((magUnits m : ℚ) - y * 2 ^ l) := by linarith
    exact ⟨hfar.le, fun heq => absurd heq hfar.ne⟩

end

theorem overflowUnits_eq : (overflowUnits : ℚ) = (2 ^ 53 - 1 / 2) * 2 ^ 2045 := by
  have hsplit : overflowUnits = (2 ^ 54 - 1) * 2 ^ 2044 := by
    rw [overflowUnits, Nat.sub_mul, one_mul, ← pow_add]
  have hodd : ((2 ^ 54 - 1 : Nat) : ℚ) = 2 ^ 54 - 1 := by norm_num
  rw [hsplit, Nat.cast_mul, Nat.cast_pow, Nat.cast_ofNat, pow_succ (2 : ℚ) 2044, hodd]
  generalize (2 : ℚ) ^ 2044 = p
  ring

theorem overflowUnits_pos : (0 : ℚ) < overflowUnits := by
  rw [overflowUnits_eq]
  exact mul_pos (by norm_num) (by positivity)

/-- At the last exponent, rounding reaches `2 ^ 53` from one half below it on, a tie with an odd number. -/
theorem NearestEven.lt_iff_of_last {y : ℚ} {q : Nat} (hq : NearestEven y q) : q < 2 ^ 53 ↔ y < 2 ^ 53 - 1 / 2 := by
  obtain ⟨hlo, hhi⟩ := abs_le.1 hq.1
  constructor
  · intro hlt
    by_contra hge
    have hle : (q : ℚ) ≤ 2 ^ 53 - 1 := by
      have : (q : ℚ) + 1 ≤ 2 ^ 53 := by exact_mod_cast hlt
      linarith
    have hqeq : q = 2 ^ 53 - 1 := by
      have : (2 : ℚ) ^ 53 ≤ q + 1 := by linarith
      have : 2 ^ 53 ≤ q + 1 := by exact_mod_cast this
      omega
    have htie : |(q : ℚ) - y| = 1 / 2 := by
      rw [abs_of_nonpos (by linarith)]
      linarith
    have := hq.2 htie
    omega
  · intro hlt
    have : (q : ℚ) < 2 ^ 53 := by linarith
    exact_mod_cast this

/-- Below the last exponent no significand overflows, above it every one does. -/
theorem NearestEven.lt_infMag_iff {y : ℚ} {l q : Nat} (hq : NearestEven y q) (hhi : y ≤ 2 ^ 53)
    (hlo : l = 0 ∨ 2 ^ 52 ≤ y) : l * 2 ^ 52 + q < infMag ↔ y * 2 ^ l < overflowUnits := by
  have hmono : ∀ {i j : Nat}, i < j → (2 : ℚ) ^ i * 2 ≤ 2 ^ j := fun h => by
    rw [← pow_succ]
    exact pow_le_pow_right₀ (by norm_num) h
  have hp : (0 : ℚ) < 2 ^ l := by positivity
  have hqhi := hq.le_sig hhi
  rw [overflowUnits_eq, infMag]
  obtain hl | rfl | hl : l < 2045 ∨ l = 2045 ∨ 2045 < l := by omega
  · have hpow := hmono hl
    have hy := mul_le_mul_of_nonneg_right hhi hp.le
    refine iff_of_true (by omega) ?_
    generalize (2 : ℚ) ^ 2045 = p at hpow ⊢
    linarith
  · rw [mul_lt_mul_iff_left₀ hp, ← hq.lt_iff_of_last]
    omega
  · have hlow := hlo.resolve_left (by omega)
    have hqlo := hq.sig_le hlow
    have hpow := hmono hl
    have hy := mul_le_mul_of_nonneg_right hlow hp.le
    refine iff_of_false (by omega) ?_
    generalize (2 : ℚ) ^ 2045 = p at hpow ⊢
    linarith

theorem NearestEven.nearestMag {x y : ℚ} {l q : Nat} (hq : NearestEven y q) (hhi : y ≤ 2 ^ 53)
    (hlo : l = 0 ∨ 2 ^ 52 ≤ y) (hx : x = y * 2 ^ l) : NearestMag x (l * 2 ^ 52 + q) := by
  subst hx
  exact ⟨hq.lt_infMag_iff hhi hlo, hq.near_mag hhi hlo⟩

/-! ### Packing -/

/-- `n` stands for the number `t` in rounding: it is `t`, or it has bits to spare, its last one is 1 and `t` differs
by less than that bit. -/
def StandsFor (n : Nat) (t : ℚ) : Prop := t = n ∨ (2 ^ 55 ≤ n ∧ n % 2 = 1 ∧ |t - n| < 1)

/-- An even bound of `n` bounds what it stands for. -/
theorem StandsFor.ge_of_even {n b : Nat} {t : ℚ} (h : StandsFor n t) (hb : b ≤ n) (heven : b % 2 = 0) : b ≤ t := by
  rcases h with rfl | ⟨-, hodd, hnear⟩
  · exact_mod_cast hb
  · have hlt : (b : ℚ) + 1 ≤ n := by exact_mod_cast (show b + 1 ≤ n by omega)
    linarith [(abs_lt.1 hnear).1]

theorem StandsFor.le_of_even {n b : Nat} {t : ℚ} (h : StandsFor n t) (hb : n ≤ b) (heven : b % 2 = 0) : t ≤ b := by
  rcases h with rfl | ⟨-, hodd, hnear⟩
  · exact_mod_cast hb
  · have hlt : (n : ℚ) + 1 ≤ b := by exact_mod_cast (show n + 1 ≤ b by omega)
    linarith [(abs_lt.1 hnear).2]

/-- Rounding `n` rounds what it stands for: no half of `2 ^ k` lies between the two. -/
theorem StandsFor.roundShift_near {n k : Nat} {t : ℚ} (h : StandsFor n t) (hk : 2 ^ 55 ≤ n → 2 ≤ k) :
    2 * |(roundShift .even n k * 2 ^ k : ℚ) - t| ≤ 2 ^ k ∧
    (2 * |(roundShift .even n k * 2 ^ k : ℚ) - t| = 2 ^ k → roundShift .even n k % 2 = 0) := by
  obtain ⟨hle, htie⟩ := Machine.roundShift_near .even n k
  generalize roundShift .even n k = q at hle htie ⊢
  rcases h with rfl | ⟨hbits, hodd, hnear⟩
  · exact ⟨by exact_mod_cast hle, fun h => (htie (by exact_mod_cast h)).1 rfl⟩
  · have hfour : (2 : Int) ^ k = 4 * 2 ^ (k - 2) := by
      rw [← pow_sub_mul_pow (2 : Int) (hk hbits)]
      ring
    have hint : 2 * |(q * 2 ^ k : Int) - n| + 2 ≤ 2 ^ k := by
      rw [hfour, Int.abs_eq_natAbs, mul_left_comm (q : Int)] at hle ⊢
      omega
    have hrat : 2 * |(q * 2 ^ k : ℚ) - n| + 2 ≤ 2 ^ k := by exact_mod_cast hint
    have htri := abs_sub_le (q * 2 ^ k : ℚ) n t
    rw [abs_sub_comm (n : ℚ)] at htri
    exact ⟨by linarith, fun h => by linarith⟩

theorem StandsFor.nearestEven {n k : Nat} {t : ℚ} (h : StandsFor n t) (hk : 2 ^ 55 ≤ n → 2 ≤ k) :
    NearestEven (t / 2 ^ k) (roundShift .even n k) := by
  obtain ⟨hle, htie⟩ := h.roundShift_near hk
  generalize roundShift .even n k = q at hle htie ⊢
  have hp : (0 : ℚ) < 2 ^ k := by positivity
  have hscale : |(q : ℚ) - t / 2 ^ k| * 2 ^ k = |(q * 2 ^ k : ℚ) - t| := by
    rw [← abs_of_pos hp, ← abs_mul, abs_of_pos hp, sub_mul, div_mul_cancel₀ _ hp.ne']
  rw [← hscale] at hle htie
  exact ⟨le_of_mul_le_mul_right (by linarith) hp, fun heq => htie (by rw [heq]; ring)⟩

theorem NearestEven.of_nat (q : Nat) : NearestEven q q := by
  simp [NearestEven]

/-- The place of the last bit: at the least exponent, or 52 below the first bit. -/
theorem ulpExp_cases (n : Nat) (e : Int) :
    -1074 ≤ ulpExp n e ∧ n.log2 + e - 52 ≤ ulpExp n e ∧ (ulpExp n e = -1074 ∨ ulpExp n e = n.log2 + e - 52) := by
  unfold ulpExp
  omega

/-- No bit is lost: the significand is exact. -/
theorem StandsFor.nearestMag_of_ulpExp_le {n : Nat} {e : Int} {t : ℚ} (hn : n ≠ 0) (h : StandsFor n t)
    (hu : ulpExp n e ≤ e) : NearestMag (t * 2 ^ (e + 1074)) (packMag n e) := by
  obtain ⟨hmin, hlog, hulp⟩ := ulpExp_cases n e
  rw [packMag, if_pos hu]
  generalize ulpExp n e = u at *
  obtain ⟨l, rfl⟩ : ∃ l : Nat, u = l - 1074 := ⟨(u + 1074).toNat, by omega⟩
  obtain ⟨j, rfl⟩ : ∃ j : Nat, e = l - 1074 + j := ⟨(e - (l - 1074)).toNat, by omega⟩
  have hl : ((l : Int) - 1074 + 1074).toNat = l := by omega
  have hj : ((l : Int) - 1074 + j - (l - 1074)).toNat = j := by omega
  rw [hl, hj]
  have hlt : n * 2 ^ j ≤ 2 ^ 53 := calc
    n * 2 ^ j ≤ 2 ^ (n.log2 + 1) * 2 ^ j := Nat.mul_le_mul_right _ Nat.lt_log2_self.le
    _ = 2 ^ (n.log2 + 1 + j) := (pow_add 2 _ _).symm
    _ ≤ 2 ^ 53 := Nat.pow_le_pow_right (by decide) (by omega)
  have hge : l = 0 ∨ 2 ^ 52 ≤ n * 2 ^ j := by
    refine hulp.imp (fun h => by omega) fun h => ?_
    calc 2 ^ 52 = 2 ^ n.log2 * 2 ^ j := by rw [← pow_add]; congr 1; omega
      _ ≤ n * 2 ^ j := Nat.mul_le_mul_right _ (Nat.log2_self_le hn)
  have ht : t = n := h.resolve_right fun ⟨hbits, _⟩ => by
    have := Nat.le_mul_of_pos_right n (Nat.two_pow_pos j)
    omega
  refine (NearestEven.of_nat (n * 2 ^ j)).nearestMag (by exact_mod_cast hlt)
    (hge.imp_right fun h => by exact_mod_cast h) ?_
  rw [ht, show (l : Int) - 1074 + j + 1074 = ((j + l : Nat) : Int) by push_cast; ring, zpow_natCast, pow_add]
  push_cast
  ring

/-- The bits below the last place are rounded off. -/
theorem StandsFor.nearestMag_of_lt_ulpExp {n : Nat} {e : Int} {t : ℚ} (hn : n ≠ 0) (h : StandsFor n t)
    (hu : e < ulpExp n e) : NearestMag (t * 2 ^ (e + 1074)) (packMag n e) := by
  obtain ⟨hmin, hlog, hulp⟩ := ulpExp_cases n e
  rw [packMag, if_neg (by omega)]
  generalize ulpExp n e = u at *
  obtain ⟨l, rfl⟩ : ∃ l : Nat, u = l - 1074 := ⟨(u + 1074).toNat, by omega⟩
  obtain ⟨k, rfl⟩ : ∃ k : Nat, e = l - 1074 - k := ⟨(l - 1074 - e).toNat, by omega⟩
  have hl : ((l : Int) - 1074 + 1074).toNat = l := by omega
  have hk : ((l : Int) - 1074 - (l - 1074 - k)).toNat = k := by omega
  rw [hl, hk]
  have hp : (0 : ℚ) < 2 ^ k := by positivity
  have hlt : n ≤ 2 ^ 53 * 2 ^ k := calc
    n ≤ 2 ^ (n.log2 + 1) := Nat.lt_log2_self.le
    _ ≤ 2 ^ (53 + k) := Nat.pow_le_pow_right (by decide) (by omega)
    _ = 2 ^ 53 * 2 ^ k := pow_add 2 _ _
  have hge : l = 0 ∨ 2 ^ 52 * 2 ^ k ≤ n := by
    refine hulp.imp (fun h => by omega) fun h => ?_
    calc 2 ^ 52 * 2 ^ k = 2 ^ n.log2 := by rw [← pow_add]; congr 1; omega
      _ ≤ n := Nat.log2_self_le hn
  have htwo : 2 ^ 55 ≤ n → 2 ≤ k := fun hbits => by
    by_contra hlow
    have : 2 ^ k ≤ 2 ^ 1 := Nat.pow_le_pow_right (by decide) (by omega)
    omega
  refine (h.nearestEven htwo).nearestMag ?_ (hge.imp_right fun hle => ?_) ?_
  · rw [div_le_iff₀ hp]
    exact_mod_cast h.le_of_even hlt (by omega)
  · rw [le_div_iff₀ hp]
    exact_mod_cast h.ge_of_even hle (by omega)
  · rw [show (l : Int) - 1074 - k + 1074 = (l : Int) - (k : Int) by ring, zpow_sub₀ two_ne_zero, zpow_natCast,
      zpow_natCast]
    ring

/-- Packing rounds the exact number to the nearest magnitude. -/
theorem StandsFor.nearestMag_packMag {n : Nat} {e : Int} {t : ℚ} (hn : n ≠ 0) (h : StandsFor n t) :
    NearestMag (t * 2 ^ (e + 1074)) (packMag n e) := by
  rcases le_or_gt (ulpExp n e) e with hu | hu
  · exact h.nearestMag_of_ulpExp_le hn hu
  · exact h.nearestMag_of_lt_ulpExp hn hu

end Sys2Proof.Machine
end

