-- ==== Sys2Proof/Proofs/Binary64Pack.lean ====
section
/-! SUPPORT. The packed result of an operation is its exact result rounded, and with it the difference, the product and
the quotient of finite values (spec/00_scope.md R9, R13). -/

namespace Sys2Proof.Machine

/-! ### The packed result -/

theorem nearestMag_zero : NearestMag 0 0 :=
  ⟨iff_of_true infMag_pos overflowUnits_pos, fun m => ⟨by simp, fun _ _ => rfl⟩⟩

/-- `pack` delivers the nearest magnitude, or that of the infinity when it is beyond. -/
theorem StandsFor.exists_pack_eq {n : Nat} {t : ℚ} (h : StandsFor n t) (neg : Bool) (e : Int) :
    ∃ M, pack neg n e = ofSignMag neg (min M infMag) ∧ NearestMag (t * 2 ^ (e + 1074)) M := by
  unfold pack
  split
  case isTrue h0 =>
    subst h0
    have ht : t = 0 := h.resolve_right (fun ⟨hbits, _⟩ => by omega)
    exact ⟨0, rfl, by rw [ht, zero_mul]; exact nearestMag_zero⟩
  case isFalse hn => exact ⟨packMag n e, rfl, h.nearestMag_packMag hn⟩

@[simp] theorem fpSign_pack (neg : Bool) (n : Nat) (e : Int) : fpSign (pack neg n e) = neg := by
  unfold pack
  split
  · exact fpSign_fpZero neg
  · exact fpSign_ofSignMag neg (lt_of_le_of_lt (min_le_right _ _) infMag_lt)

theorem natAbs_error (neg : Bool) (v N : Nat) {den : Nat} (hden : 0 < den) :
    ((signed neg v * den - signed neg N).natAbs : ℚ) = |(v : ℚ) - N / den| * den := by
  have hd : (0 : ℚ) < den := by exact_mod_cast hden
  have herr : (signed neg v * den - signed neg N).natAbs = ((v * den : Int) - N).natAbs := by
    cases neg <;> simp only [signed, Bool.false_eq_true, if_true, if_false, neg_mul]; omega
  rw [herr, Nat.cast_natAbs, Int.cast_abs]
  push_cast
  rw [← abs_of_pos hd, ← abs_mul, abs_of_pos hd, sub_mul, div_mul_cancel₀ _ hd.ne']

/-- Every finite value errs at least as much as some magnitude of the exact number's own sign. -/
theorem exists_mag_error_le (neg : Bool) (N den : Nat) (w : Word) :
    ∃ m, (signed neg (magUnits m) * den - signed neg N).natAbs ≤ (fpValue w * den - signed neg N).natAbs ∧
      ((signed neg (magUnits m) * den - signed neg N).natAbs = (fpValue w * den - signed neg N).natAbs → 0 < den →
        fpValue w = signed neg (magUnits m)) := by
  by_cases hs : fpSign w = neg
  · rw [fpValue_eq, hs]
    exact ⟨fpMag w, le_rfl, fun _ _ => rfl⟩
  · have hval : fpValue w = -signed neg (magUnits (fpMag w)) := by
      rw [fpValue_eq]
      cases neg <;> simp_all [signed]
    have herr : (fpValue w * den - signed neg N).natAbs = magUnits (fpMag w) * den + N := by
      rw [hval]
      cases neg <;> simp only [signed, Bool.false_eq_true, if_true, if_false, neg_mul, neg_neg] <;> omega
    rw [herr]
    refine ⟨0, by simp, fun heq hden => ?_⟩
    have hzero : magUnits (fpMag w) = 0 := by
      have : magUnits (fpMag w) * den = 0 := by simpa using heq
      exact (Nat.mul_eq_zero.1 this).resolve_right hden.ne'
    simp [hval, hzero]

section
variable {N den M : Nat} (hden : 0 < den) (h : NearestMag (N / den) M) (neg : Bool)
include hden h

theorem NearestMag.lt_infMag_iff : M < infMag ↔ N < overflowUnits * den := by
  rw [h.1, div_lt_iff₀ (Nat.cast_pos.2 hden)]
  exact_mod_cast Iff.rfl

/-- The nearest magnitude errs least among the magnitudes, in whole units. -/
theorem NearestMag.natAbs_error_le (m : Nat) :
    (signed neg (magUnits M) * den - signed neg N).natAbs ≤ (signed neg (magUnits m) * den - signed neg N).natAbs ∧
    ((signed neg (magUnits M) * den - signed neg N).natAbs = (signed neg (magUnits m) * den - signed neg N).natAbs →
      magUnits m ≠ magUnits M → M % 2 = 0) := by
  have hd : (0 : ℚ) < den := Nat.cast_pos.2 hden
  obtain ⟨hle, htie⟩ := h.2 m
  rw [← Nat.cast_le (α := ℚ), ← Nat.cast_inj (R := ℚ), natAbs_error neg _ N hden, natAbs_error neg _ N hden]
  exact ⟨mul_le_mul_of_nonneg_right hle hd.le, fun heq => htie (mul_right_cancel₀ hd.ne' heq)⟩

/-- The nearest magnitude with the sign of the exact number is the rounded result. -/
theorem NearestMag.roundsTo : RoundsTo (signed neg N) den (ofSignMag neg (min M infMag)) := by
  have hover := h.lt_infMag_iff hden
  rcases lt_or_ge M infMag with hM | hM
  · have hM63 := hM.trans infMag_lt
    have hfin := (isFinite_ofSignMag_iff neg hM63).2 hM
    rw [min_eq_left hM.le]
    refine ⟨iff_of_true hfin (by simpa using hover.1 hM), by simp [hfin], fun _ w _ => ?_⟩
    obtain ⟨m, hle, hsame⟩ := exists_mag_error_le neg N den w
    obtain ⟨hbest, htie⟩ := h.natAbs_error_le hden neg m
    rw [fpValue_ofSignMag neg hM63, getLsbD_zero_eq, fpMag_ofSignMag neg hM63]
    refine ⟨hbest.trans hle, fun heq hne => ?_⟩
    have hm : magUnits m ≠ magUnits M := fun hmM => hne (by rw [hsame (by omega) hden, hmM])
    have heven := htie (by omega) hm
    simp [heven]
  · rw [min_eq_right hM]
    change RoundsTo _ _ (fpInf neg)
    have hlarge := mt hover.2 (not_lt.2 hM)
    have hpos : 0 < N := Nat.pos_of_ne_zero fun h0 => by
      rw [h0, Nat.cast_zero, zero_div] at h
      exact not_lt.2 hM (h.1.2 overflowUnits_pos)
    have hneg : decide (signed neg N < 0) = neg := by
      cases neg <;> simp [signed]; omega
    exact ⟨iff_of_false (by simp) (by simpa using hlarge), fun _ => by rw [hneg], by simp⟩

end

theorem StandsFor.roundsTo_pack {n N den : Nat} {t : ℚ} {e : Int} (h : StandsFor n t) (hden : 0 < den)
    (hx : (N : ℚ) / den = t * 2 ^ (e + 1074)) (neg : Bool) : RoundsTo (signed neg N) den (pack neg n e) := by
  obtain ⟨M, hpack, hM⟩ := h.exists_pack_eq neg e
  rw [hpack]
  exact NearestMag.roundsTo hden (hx ▸ hM) neg

end Sys2Proof.Machine
end

