-- ==== Sys2Proof/Proofs/Binary64Arithmetic.lean ====
section
/-! SUPPORT. The difference, the product and the quotient of finite values are the exact ones rounded to nearest, ties
to even (spec/00_scope.md R9, R13). -/

namespace Sys2Proof.Machine

theorem StandsFor.of_nat (n : Nat) : StandsFor n n := .inl rfl

/-- The value of a magnitude as a rational, by its significand and exponent. -/
theorem magUnits_fpMag_rat (w : Word) : (magUnits (fpMag w) : ℚ) = fpSig w * 2 ^ ((fpExp w : Int) - 1) := by
  have hexp : (fpExp w : Int) - 1 = ((fpExp w - 1 : Nat) : Int) := by
    have := fpExp_pos w
    omega
  rw [magUnits_fpMag, hexp, zpow_natCast]
  push_cast
  rfl

/-! ### Difference -/

/-- Scaling to a smaller exponent is exact. -/
theorem fpValue_eq_fpScaled (w : Word) {e : Nat} (he : 1 ≤ e) (hw : e ≤ fpExp w) :
    fpValue w = fpScaled w e * 2 ^ (e - 1) := by
  have hpow : 2 ^ (fpExp w - 1) = 2 ^ (fpExp w - e) * 2 ^ (e - 1) := by
    rw [← pow_add]
    congr 1
    omega
  simp only [fpValue, fpScaled, hpow]
  push_cast
  ring

theorem fsub_finite {a b : Word} (ha : isFinite a = true) (hb : isFinite b = true) : fsub a b = fsubFinite a b := by
  simp [fsub, isNaN_of_isFinite, isInf_of_isFinite, ha, hb]

theorem fpZero_roundsTo (neg : Bool) {den : Nat} (hden : 0 < den) : RoundsTo 0 den (fpZero neg) := by
  have h := (StandsFor.of_nat 0).roundsTo_pack (N := 0) (e := 0) hden (by simp) neg
  simpa [pack] using h

theorem fsubFinite_roundsTo (a b : Word) : RoundsTo (fpValue a - fpValue b) 1 (fsubFinite a b) := by
  have hmin : 1 ≤ min (fpExp a) (fpExp b) := le_min (fpExp_pos a) (fpExp_pos b)
  have hexact : fpValue a - fpValue b =
      (fpScaled a (min (fpExp a) (fpExp b)) - fpScaled b (min (fpExp a) (fpExp b))) *
        2 ^ (min (fpExp a) (fpExp b) - 1) := by
    rw [fpValue_eq_fpScaled a hmin (min_le_left _ _), fpValue_eq_fpScaled b hmin (min_le_right _ _), sub_mul]
  simp only [fsubFinite]
  rw [hexact]
  generalize min (fpExp a) (fpExp b) = e at hmin ⊢
  generalize fpScaled a e - fpScaled b e = d
  split
  case isTrue h0 =>
    rw [h0, zero_mul]
    exact fpZero_roundsTo _ one_pos
  case isFalse _ =>
    have hsigned : d * 2 ^ (e - 1) = signed (decide (d < 0)) ((d.natAbs * 2 ^ (e - 1) : Nat) : Int) := by
      conv_lhs => rw [← signed_natAbs d]
      cases decide (d < 0) <;> simp [signed]
    have hunits : ((d.natAbs * 2 ^ (e - 1) : Nat) : ℚ) / (1 : Nat) = d.natAbs * 2 ^ ((e : Int) - 1075 + 1074) := by
      rw [show (e : Int) - 1075 + 1074 = ((e - 1 : Nat) : Int) by omega, zpow_natCast]
      push_cast
      ring
    rw [hsigned]
    exact (StandsFor.of_nat d.natAbs).roundsTo_pack one_pos hunits _

/-- Settles O56: the exact difference is an integer at the smaller exponent, which `pack` rounds. -/
theorem differenceIsNearest : Obligations.DifferenceIsNearest := by
  intro a b ha hb
  rw [fsub_finite ha hb]
  exact fsubFinite_roundsTo a b

/-! ### Product -/

theorem fmul_finite {a b : Word} (ha : isFinite a = true) (hb : isFinite b = true) :
    fmul a b =
      pack (fpSign a != fpSign b) (fpSig a * fpSig b) ((fpExp a : Int) + (fpExp b : Int) - 2150) := by
  simp [fmul, isNaN_of_isFinite, isInf_of_isFinite, ha, hb]

theorem fmul_roundsTo {a b : Word} (ha : isFinite a = true) (hb : isFinite b = true) :
    RoundsTo (fpValue a * fpValue b) (2 ^ 1074) (fmul a b) := by
  have hunits : ((magUnits (fpMag a) * magUnits (fpMag b) : Nat) : ℚ) / (2 ^ 1074 : Nat) =
      ((fpSig a * fpSig b : Nat) : ℚ) * 2 ^ ((fpExp a : Int) + (fpExp b : Int) - 2150 + 1074) := by
    have hexp : (fpExp a : Int) + (fpExp b : Int) - 2150 + 1074 =
        ((fpExp a : Int) - 1) + ((fpExp b : Int) - 1) - (1074 : Nat) := by ring
    rw [hexp, zpow_sub₀ two_ne_zero, zpow_add₀ two_ne_zero, zpow_natCast, Nat.cast_mul, Nat.cast_mul, Nat.cast_pow,
      magUnits_fpMag_rat, magUnits_fpMag_rat]
    generalize (2 : ℚ) ^ 1074 = p
    ring
  rw [fmul_finite ha hb, fpValue_eq, fpValue_eq, signed_mul_signed, ← Nat.cast_mul]
  exact (StandsFor.of_nat _).roundsTo_pack (pow_pos two_pos 1074) hunits _

/-! ### Quotient -/

/-- A quotient with its last bit set when the division leaves a remainder stands for the exact quotient. -/
theorem StandsFor.quotient {n s : Nat} (hs : 0 < s) (hbits : 2 ^ 54 * s ≤ n) :
    StandsFor (2 * (n / s) + if n % s = 0 then 0 else 1) (2 * n / s) := by
  have hpos : (0 : ℚ) < s := Nat.cast_pos.2 hs
  have hquot : 2 ^ 54 ≤ n / s := (Nat.le_div_iff_mul_le hs).2 hbits
  have hrem : n % s < s := Nat.mod_lt n hs
  have hexact : (2 * n / s : ℚ) = 2 * (n / s : Nat) + 2 * (n % s : Nat) / s := by
    have hn : (n : ℚ) = s * (n / s : Nat) + (n % s : Nat) := by exact_mod_cast (Nat.div_add_mod n s).symm
    generalize n / s = d, n % s = r at hn
    rw [hn]
    field_simp
  rw [hexact]
  split
  case isTrue h0 => exact .inl (by simp [h0])
  case isFalse h0 =>
    refine .inr ⟨by omega, by omega, ?_⟩
    have hlow : (0 : ℚ) < (n % s : Nat) / s := div_pos (by exact_mod_cast Nat.pos_of_ne_zero h0) hpos
    have hhigh : ((n % s : Nat) : ℚ) / s < 1 := (div_lt_one hpos).2 (by exact_mod_cast hrem)
    rw [abs_lt, mul_div_assoc]
    push_cast
    constructor <;> linarith

theorem fdiv_by_zero {a b : Word} (ha : isFinite a = true) (hb : isFinite b = true) (hzero : fpMag b = 0) :
    fdiv a b = if fpMag a = 0 then quietNaN (Config.freeNaN .div a b) else fpInf (fpSign a != fpSign b) := by
  have hz : isZero b = true := isZero_iff.2 hzero
  by_cases h : fpMag a = 0
  · simp [fdiv, isZero_iff.2 h, hz, h]
  · have : isZero a = false := Bool.eq_false_iff.2 (mt isZero_iff.1 h)
    simp [fdiv, isNaN_of_isFinite, isInf_of_isFinite, ha, hb, hz, this, h]

theorem fdiv_nonzero {a b : Word} (ha : isFinite a = true) (hb : isFinite b = true) (hb0 : fpMag b ≠ 0) :
    fdiv a b = if fpMag a = 0 then fpZero (fpSign a != fpSign b) else fdivFinite (fpSign a != fpSign b) a b := by
  have hz : isZero b = false := Bool.eq_false_iff.2 (mt isZero_iff.1 hb0)
  by_cases h : fpMag a = 0
  · simp [fdiv, isNaN_of_isFinite, isInf_of_isFinite, ha, hb, isZero_iff.2 h, hz, h]
  · have : isZero a = false := Bool.eq_false_iff.2 (mt isZero_iff.1 h)
    simp [fdiv, isNaN_of_isFinite, isInf_of_isFinite, ha, hb, hz, this, h]

theorem fdivFinite_roundsTo (neg : Bool) {a b : Word} (ha : fpMag a ≠ 0) (hb : fpMag b ≠ 0) :
    RoundsTo (signed neg (magUnits (fpMag a) * 2 ^ 1074 : Nat)) (magUnits (fpMag b)) (fdivFinite neg a b) := by
  have hsa := fpSig_pos ha
  have hsb := fpSig_pos hb
  have hlt := fpSig_lt b
  have hden : 0 < magUnits (fpMag b) := Nat.pos_of_ne_zero (mt magUnits_eq_zero_iff.1 hb)
  have hbits : 2 ^ 54 * fpSig b ≤ fpSig a * 2 ^ 128 := by omega
  have hunits : ((magUnits (fpMag a) * 2 ^ 1074 : Nat) : ℚ) / (magUnits (fpMag b)) =
      (2 * (fpSig a * 2 ^ 128 : Nat) / fpSig b : ℚ) * 2 ^ ((fpExp a : Int) - (fpExp b : Int) - 129 + 1074) := by
    have hexp : (fpExp a : Int) - (fpExp b : Int) - 129 + 1074 =
        ((fpExp a : Int) - 1) - ((fpExp b : Int) - 1) - (129 : Nat) + (1074 : Nat) := by
      push_cast
      ring
    rw [hexp, zpow_add₀ two_ne_zero, zpow_sub₀ two_ne_zero, zpow_sub₀ two_ne_zero, zpow_natCast, zpow_natCast,
      Nat.cast_mul, Nat.cast_pow, magUnits_fpMag_rat, magUnits_fpMag_rat]
    push_cast
    have hs : (fpSig b : ℚ) ≠ 0 := Nat.cast_ne_zero.2 hsb.ne'
    have hy : (2 : ℚ) ^ ((fpExp b : Int) - 1) ≠ 0 := zpow_ne_zero _ two_ne_zero
    generalize (2 : ℚ) ^ 1074 = p, (2 : ℚ) ^ ((fpExp a : Int) - 1) = x, (2 : ℚ) ^ ((fpExp b : Int) - 1) = y at hy
    field_simp
    ring
  exact (StandsFor.quotient hsb hbits).roundsTo_pack hden hunits neg

theorem fdiv_roundsTo {a b : Word} (ha : isFinite a = true) (hb : isFinite b = true) (hb0 : fpMag b ≠ 0) :
    RoundsTo (fpValue a * 2 ^ 1074 * (fpValue b).sign) (fpValue b).natAbs (fdiv a b) ∧
      fpSign (fdiv a b) = (fpSign a != fpSign b) := by
  have hden : 0 < magUnits (fpMag b) := Nat.pos_of_ne_zero (mt magUnits_eq_zero_iff.1 hb0)
  have hnum : fpValue a * 2 ^ 1074 * (fpValue b).sign =
      signed (fpSign a != fpSign b) (magUnits (fpMag a) * 2 ^ 1074 : Nat) := by
    rw [fpValue_eq a, fpValue_eq b, sign_signed _ (Nat.cast_pos.2 hden), mul_right_comm, signed_mul_signed, mul_one,
      signed_mul_right, Nat.cast_mul, Nat.cast_pow, Nat.cast_ofNat]
  rw [hnum, fpValue_eq b, natAbs_signed, Int.natAbs_natCast, fdiv_nonzero ha hb hb0]
  split
  case isTrue ha0 =>
    rw [ha0, magUnits_zero, zero_mul, Nat.cast_zero, signed_zero]
    exact ⟨fpZero_roundsTo _ hden, fpSign_fpZero _⟩
  case isFalse ha0 => exact ⟨fdivFinite_roundsTo _ ha0 hb0, fpSign_pack _ _ _⟩

/-- Settles O57: the exact product and quotient, the latter with a sticky last bit, are what `pack` rounds. -/
theorem productIsNearest : Obligations.ProductIsNearest := by
  intro a b ha hb
  refine ⟨fmul_roundsTo ha hb, ?_, fdiv_roundsTo ha hb, fun hb0 ha0 => ?_, fun hb0 ha0 => ?_⟩
  · rw [fmul_finite ha hb, fpSign_pack]
  · rw [fdiv_by_zero ha hb hb0, if_neg ha0]
  · rw [fdiv_by_zero ha hb hb0, if_pos ha0, isNaN_quietNaN]

end Sys2Proof.Machine
end

