-- ==== Sys2Proof/Proofs/Binary64Integers.lean ====
section
/-! SUPPORT. Integers in binary64: `f64` is exact up to 2^53, `toInt` reads an integer back, and `rint` gives a nearest
one by the tie rule (spec/00_scope.md R13, spec/41_amplitude.md R104). -/

namespace Sys2Proof.Machine

/-! ### Exact packing -/

/-- An integer of at most 53 bits is the value of a magnitude. -/
theorem exists_mag_of_nat {n : Nat} (hn : n ≤ 2 ^ 53) : ∃ m, m < infMag ∧ magUnits m = n * 2 ^ 1074 := by
  by_cases h0 : n = 0
  · exact ⟨0, infMag_pos, by rw [h0, zero_mul, magUnits_zero]⟩
  · have hlog : n.log2 ≤ 53 := by
      by_contra hlt
      have : 2 ^ 54 ≤ 2 ^ n.log2 := Nat.pow_le_pow_right (by decide) (by omega)
      have := Nat.log2_self_le h0
      omega
    have hlo : 2 ^ 52 ≤ n * 2 ^ (52 - n.log2) := calc
      2 ^ 52 ≤ 2 ^ (n.log2 + (52 - n.log2)) := Nat.pow_le_pow_right (by decide) (by omega)
      _ = 2 ^ n.log2 * 2 ^ (52 - n.log2) := pow_add 2 _ _
      _ ≤ n * 2 ^ (52 - n.log2) := Nat.mul_le_mul_right _ (Nat.log2_self_le h0)
    have hhi : n * 2 ^ (52 - n.log2) ≤ 2 ^ 53 := by
      by_cases htop : n.log2 ≤ 52
      · calc n * 2 ^ (52 - n.log2) ≤ 2 ^ (n.log2 + 1) * 2 ^ (52 - n.log2) := Nat.mul_le_mul_right _ Nat.lt_log2_self.le
          _ = 2 ^ 53 := by rw [← pow_add]; congr 1; omega
      · rw [show 52 - n.log2 = 0 by omega, pow_zero, mul_one]
        exact hn
    refine ⟨(1074 - (52 - n.log2)) * 2 ^ 52 + n * 2 ^ (52 - n.log2), by rw [infMag]; omega, ?_⟩
    rw [magUnits_of_sig hhi (.inr hlo), mul_assoc, ← pow_add]
    congr 2
    omega

/-- An exact number that is a magnitude's value is kept. -/
theorem NearestMag.eq_of_exact {m M : Nat} (h : NearestMag (magUnits m) M) : M = m := by
  have hle := (h.2 m).1
  rw [sub_self, abs_zero, abs_nonpos_iff, sub_eq_zero, Nat.cast_inj] at hle
  exact magUnits_strictMono.injective hle

theorem pack_nat {n : Nat} (hn : n ≤ 2 ^ 53) (neg : Bool) :
    isFinite (pack neg n 0) = true ∧ fpValue (pack neg n 0) = signed neg n * 2 ^ 1074 := by
  obtain ⟨m, hm, hval⟩ := exists_mag_of_nat hn
  obtain ⟨M, hpack, hM⟩ := (StandsFor.of_nat n).exists_pack_eq neg 0
  have hexact : (n : ℚ) * 2 ^ ((0 : Int) + 1074) = (magUnits m : ℚ) := by
    rw [hval, zero_add, zpow_ofNat, Nat.cast_mul, Nat.cast_pow, Nat.cast_ofNat]
  obtain rfl := (hexact ▸ hM).eq_of_exact
  have hm63 := hm.trans infMag_lt
  rw [hpack, min_eq_left hm.le]
  refine ⟨(isFinite_ofSignMag_iff neg hm63).2 hm, ?_⟩
  rw [fpValue_ofSignMag neg hm63, hval, signed_mul_right, Nat.cast_mul, Nat.cast_pow, Nat.cast_ofNat]

/-! ### Reading an integer -/

theorem natAbs_mul_two_pow (z : Int) (k : Nat) : (z * 2 ^ k).natAbs = z.natAbs * 2 ^ k := by
  simp [Int.natAbs_mul, Int.natAbs_pow]

/-- The units of a magnitude against the significand with its integral and its fractional exponent. -/
theorem magUnits_mul_two_pow (w : Word) :
    magUnits (fpMag w) * 2 ^ (1075 - fpExp w) = fpSig w * 2 ^ (fpExp w - 1075) * 2 ^ 1074 := by
  have hE := fpExp_pos w
  have hexp : fpExp w - 1 + (1075 - fpExp w) = fpExp w - 1075 + 1074 := by omega
  rw [magUnits_fpMag, mul_assoc, mul_assoc, ← pow_add, hexp, pow_add]

/-- A finite word whose value is an integer reads back as that integer. -/
theorem toInt_of_fpValue {a : Word} {z : Int} (ha : isFinite a = true) (h : fpValue a = z * 2 ^ 1074) :
    toInt a = z := by
  have hp : 0 < 2 ^ 1074 := pow_pos two_pos 1074
  have hunits : magUnits (fpMag a) = z.natAbs * 2 ^ 1074 := by
    have := congrArg Int.natAbs h
    rwa [fpValue_eq, natAbs_signed, Int.natAbs_natCast, natAbs_mul_two_pow] at this
  have hsig : fpSig a * 2 ^ (fpExp a - 1075) = z.natAbs * 2 ^ (1075 - fpExp a) := by
    have := magUnits_mul_two_pow a
    rw [hunits, mul_right_comm] at this
    exact (Nat.eq_of_mul_eq_mul_right hp this).symm
  have hsign : signed (fpSign a) z.natAbs = z := by
    rw [fpValue_eq, hunits, Nat.cast_mul, ← signed_mul_right, Nat.cast_pow, Nat.cast_ofNat] at h
    exact mul_right_cancel₀ (pow_ne_zero 1074 two_ne_zero) h
  have hintegral : isIntegral a = true := by simp [isIntegral, ha, hsig]
  rw [toInt, if_pos hintegral, hsig, Nat.mul_div_cancel _ (Nat.two_pow_pos _)]
  conv_rhs => rw [← hsign]
  cases fpSign a <;> simp [signed]

/-- Settles O59: an integer of at most 53 bits is a magnitude's value, which `pack` keeps. -/
theorem integersConvertExactly : Obligations.IntegersConvertExactly := by
  intro n hn
  obtain ⟨hfin, hval⟩ := pack_nat hn (decide (n < 0))
  rw [signed_natAbs] at hval
  exact ⟨hfin, hval, toInt_of_fpValue hfin hval⟩

/-! ### Rounding to an integer -/

theorem roundShift_le {tie : TieRule} {n k b : Nat} (hn : n < b) : roundShift tie n k ≤ b := by
  obtain ⟨d, r, hsplit, hq, -⟩ := roundShift_cases tie n k
  have : d ≤ n := (Nat.le_mul_of_pos_right d (Nat.two_pow_pos k)).trans (by omega)
  omega

/-- The error of an integer, counted in units of `1 / K` and of `1 / P`. -/
theorem error_rescale (n : Nat) {s u K P : Nat} (hK : 0 < K) (hP : 0 < P) (h : u * K = s * P) :
    (2 * (n * P - u : Int).natAbs ≤ P ↔ 2 * (n * K - s : Int).natAbs ≤ K) ∧
    (2 * (n * P - u : Int).natAbs = P ↔ 2 * (n * K - s : Int).natAbs = K) ∧ (u < n * P ↔ s < n * K) := by
  have herr : (n * P - u : Int).natAbs * K = (n * K - s : Int).natAbs * P := by
    have hint : (n * P - u : Int) * K = (n * K - s) * P := by
      rw [sub_mul, sub_mul, ← Nat.cast_mul u, h]
      push_cast
      ring
    simpa [Int.natAbs_mul] using congrArg Int.natAbs hint
  generalize (n * P - u : Int).natAbs = e', (n * K - s : Int).natAbs = e at herr ⊢
  refine ⟨?_, ?_, ?_⟩
  · rw [← Nat.mul_le_mul_right_iff hK, mul_assoc, herr, ← mul_assoc, mul_comm P K, Nat.mul_le_mul_right_iff hP]
  · rw [← Nat.mul_left_inj hK.ne', mul_assoc, herr, ← mul_assoc, mul_comm P K, Nat.mul_left_inj hP.ne']
  · rw [← Nat.mul_lt_mul_right hK, h, mul_right_comm, Nat.mul_lt_mul_right hP]

/-- `rint` of a finite value is a signed integer `n`, off by at most one half, and on a tie as the rule says. -/
theorem rint_finite (tie : TieRule) {a : Word} (ha : isFinite a = true) : ∃ n : Nat,
    isFinite (rint tie a) = true ∧ fpValue (rint tie a) = signed (fpSign a) n * 2 ^ 1074 ∧
    2 * (n * (2 ^ 1074 : Nat) - magUnits (fpMag a) : Int).natAbs ≤ 2 ^ 1074 ∧
    (2 * (n * (2 ^ 1074 : Nat) - magUnits (fpMag a) : Int).natAbs = 2 ^ 1074 →
      (tie = .even → n % 2 = 0) ∧ (tie = .away → magUnits (fpMag a) < n * 2 ^ 1074)) := by
  have hp : 0 < 2 ^ 1074 := pow_pos two_pos 1074
  have hunits := magUnits_mul_two_pow a
  unfold rint
  rw [isNaN_of_isFinite ha, if_neg (by simp)]
  split
  case isTrue hE =>
    have hexact : magUnits (fpMag a) = fpSig a * 2 ^ (fpExp a - 1075) * 2 ^ 1074 := by
      rwa [Nat.sub_eq_zero_of_le hE, pow_zero, mul_one] at hunits
    refine ⟨fpSig a * 2 ^ (fpExp a - 1075), ha, ?_, ?_⟩
    · rw [fpValue_eq, signed_mul_right, hexact, Nat.cast_mul _ (2 ^ 1074), Nat.cast_pow, Nat.cast_ofNat]
    · rw [← Nat.cast_mul, ← hexact, sub_self, Int.natAbs_zero, mul_zero]
      exact ⟨hp.le, fun h => absurd h hp.ne⟩
  case isFalse hE =>
    obtain ⟨hfin, hval⟩ := pack_nat (roundShift_le (fpSig_lt a) (tie := tie) (k := 1075 - fpExp a)) (fpSign a)
    refine ⟨_, hfin, hval, ?_⟩
    rw [Nat.sub_eq_zero_of_le (show fpExp a ≤ 1075 by omega), pow_zero, mul_one] at hunits
    have hnear := roundShift_near tie (fpSig a) (1075 - fpExp a)
    generalize roundShift tie (fpSig a) (1075 - fpExp a) = n at hnear
    obtain ⟨hle, heq, hlt⟩ := error_rescale n (Nat.two_pow_pos _) hp hunits
    rw [hle, heq, hlt]
    rw [Int.abs_eq_natAbs] at hnear
    exact_mod_cast hnear

/-- Settles O58: `rint` is the integer of `rint_finite`, which `toInt` reads back. -/
theorem rintIsNearestInteger : Obligations.RintIsNearestInteger := by
  intro tie a ha
  obtain ⟨n, hfin, hval, hnear, htie⟩ := rint_finite tie ha
  have herr : (fpValue (rint tie a) - fpValue a).natAbs =
      (n * (2 ^ 1074 : Nat) - magUnits (fpMag a) : Int).natAbs := by
    rw [hval, signed_mul_right, fpValue_eq, Nat.cast_pow, Nat.cast_ofNat]
    generalize (n : Int) * 2 ^ 1074 = v
    cases fpSign a <;> simp only [signed, Bool.false_eq_true, if_true, if_false]; omega
  rw [herr, toInt_of_fpValue hfin hval]
  refine ⟨hfin, hval, hnear, fun h => ⟨fun heven => ?_, fun haway => ?_⟩⟩
  · have := (htie h).1 heven
    cases fpSign a <;> simp only [signed, Bool.false_eq_true, if_true, if_false] <;> omega
  · have := (htie h).2 haway
    rwa [hval, fpValue_eq, natAbs_signed, natAbs_mul_two_pow, natAbs_signed]

end Sys2Proof.Machine
end

section
/-! SUPPORT. What a host read and a host write can do, said once (spec/20_memory.md R54 to R57): the bus counterpart of
`CommandResult`. -/

namespace Sys2Proof.Machine

/-- What a read in the window leaves: an answer, and BUSERR if R54 refuses it. -/
inductive ReadResult (s : State) (off width : Nat) : State → Prop where
  | admitted (a : Target) (h : admitted? s.config.cells off width = some a) :
      ReadResult s off width (s.answer (s.readTarget a))
  | refused (h : NotAdmitted s.config.cells off width) : ReadResult s off width (s.answer 0).setBuserr

theorem busRead_cases (s : State) (off width : Nat) : ReadResult s off width (s.busRead off width) := by
  unfold State.busRead
  split
  · exact .admitted _ ‹_›
  · exact .refused (admitted?_none.1 ‹_›)

/-- What a write in the window that is no command leaves: STATUS cleared, an operand register or a cell written, or
BUSERR. -/
inductive WriteResult (s : State) (off : Nat) (data : List Byte) : State → Prop where
  | status (hl : data.length = 8) (ho : off = 8) : WriteResult s off data (s.clearStatus (wordOfBytes data))
  | symRe (hl : data.length = 8) (ho : off = 0x28) : WriteResult s off data (s.setSymbol (wordOfBytes data) s.symIm)
  | symIm (hl : data.length = 8) (ho : off = 0x30) : WriteResult s off data (s.setSymbol s.symRe (wordOfBytes data))
  | prec (hl : data.length = 8) (ho : off = 0x38) : WriteResult s off data (s.setPrec (wordOfBytes data))
  | cell (i : Nat) (hl : data.length = 8) (ho : off = cellOffset i) (hi : i < s.config.cells) :
      WriteResult s off data (s.writeCell i (wordOfBytes data))
  | refused (h : NotAdmitted s.config.cells off data.length ∨ data.length = 8 ∧ off ∈ readOnlyOffsets) :
      WriteResult s off data s.setBuserr

theorem busWrite_cases {s : State} {off : Nat} {data : List Byte}
    (hc : admitted? s.config.cells off data.length ≠ some (.reg .cmd)) :
    WriteResult s off data (s.busWrite off data) := by
  unfold State.busWrite
  split
  · rename_i r hr
    obtain ⟨hl, rfl⟩ := admitted?_reg.1 hr
    cases r with
    | cmd => exact absurd hr hc
    | status => exact .status hl rfl
    | symRe => exact .symRe hl rfl
    | symIm => exact .symIm hl rfl
    | prec => exact .prec hl rfl
    | cfg | result | faultcmd | fac | rcp | amp | dist => exact .refused (.inr ⟨hl, by decide⟩)
  · obtain ⟨hl, ho, hi⟩ := admitted?_cell.1 ‹_›
    exact .cell _ hl ho hi
  · exact .refused (.inl (admitted?_none.1 ‹_›))

/-- An 8-byte write of `v` to a register other than CMD is one step (R57). -/
theorem step_of_register_write {s : State} {rest : List HostEvent} {v : Word} (r : Reg) (hr : r ≠ .cmd)
    (h : Delivers s (hostWrite s (regOffset r) v) rest) : step s = .next ((s.takeEvent rest).writeReg v r) := by
  obtain ⟨hreset, hport⟩ := h
  have hadm : admitted? s.config.cells (regOffset r) (bytesOfWord v).length = some (.reg r) :=
    admitted?_reg.2 ⟨bytesOfWord_length v, rfl⟩
  have hwindow : inWindow (s.takeEvent rest) (s.config.base + regOffset r) = true := by
    rw [inWindow_takeEvent, inWindow_iff]
    cases r <;> simp [regOffset]
  have hwrite : (s.takeEvent rest).busWrite (regOffset r) (bytesOfWord v) = (s.takeEvent rest).writeReg v r := by
    simp only [State.busWrite, State.takeEvent_config, hadm, wordOfBytes_bytesOfWord]
  have hcmd : some (Target.reg r) ≠ some (.reg .cmd) := by simpa using hr
  simp only [step, nextDelivery, hport, deliver, State.takeEvent_resetAsserted, hreset, hwindow,
    State.takeEvent_config, Nat.add_sub_cancel_left, hadm, if_neg hcmd, hwrite, Bool.false_eq_true, if_true, if_false]

/-- Settles O34: the three operand registers are among those of `step_of_register_write`. -/
theorem operandWritesAreVerbatim : Obligations.OperandWritesAreVerbatim :=
  fun _ _ _ => ⟨step_of_register_write .symRe nofun, step_of_register_write .symIm nofun,
    step_of_register_write .prec nofun⟩

end Sys2Proof.Machine
end

section
/-! SUPPORT. The invariant of spec/10_state.md R40: it holds right after reset, every operation and so every step keeps
it, and it holds in every state that is reached. -/

namespace Sys2Proof.Machine

/-! ### Operations -/

/-- A recorded fault has a code of R150, and a later one keeps the first. -/
theorem recordFault_inv {s : State} (h : s.Inv) (v : Word) (c : FaultCode) : (s.recordFault v c).Inv := by
  obtain ⟨htable, hrecord, hmem⟩ := h
  cases hf : s.fault with
  | false =>
    rw [recordFault_first hf]
    exact ⟨htable, ⟨nofun, fun _ => faultCode_range c⟩, hmem⟩
  | true =>
    rw [recordFault_later hf]
    exact ⟨htable, hrecord, hmem⟩

/-- FAULT, ERRCODE and FAULTCMD are cleared together (R163). -/
theorem clearStatus_inv {s : State} (h : s.Inv) (v : Word) : (s.clearStatus v).Inv := by
  obtain ⟨htable, hrecord, hmem⟩ := h
  refine ⟨htable, ?_, hmem⟩
  cases hv : v[0] with
  | false => simpa [State.recordOk, hv] using hrecord
  | true => simp [State.recordOk, hv]

/-- Cells of the buffer lie within its bounds (R34). -/
theorem writeCells_inv {s : State} (h : s.Inv) {ws : List (Nat × Word)} (hw : ∀ p ∈ ws, p.1 < s.config.cells) :
    (s.writeCells ws).Inv := by
  obtain ⟨htable, hrecord, hwf, hbounds⟩ := h
  refine ⟨htable, hrecord, memWriteCells_wf hwf ws, fun c hc => ?_⟩
  rcases mem_of_mem_memWriteCells hc with ⟨p, hp, hlo, hhi⟩ | hc
  · have := hw p hp
    simp only [cellOffset, State.writeCells_config] at hlo hhi ⊢
    omega
  · exact hbounds c hc

theorem resetUnit_inv (s : State) : s.resetUnit.Inv :=
  ⟨rfl, ⟨fun _ => ⟨rfl, rfl⟩, nofun⟩, ⟨.nil, nofun⟩, nofun⟩

/-! ### Steps -/

theorem exec_keeps_inv {i : Instr} {s t : State} (h : s.Inv) (ht : exec i s = .next t) : t.Inv := by
  cases exec_cases ht with
  | faulted c => exact recordFault_inv h _ c
  | configured st => exact ⟨loadSetting_tableOk s st, h.2⟩
  | reported | mapped => exact h
  | sliced ws d hw => exact writeCells_inv h hw

theorem ReadResult.keeps_inv {s t : State} {off width : Nat} (ht : ReadResult s off width t) (h : s.Inv) : t.Inv := by
  cases ht with
  | admitted | refused => exact h

theorem WriteResult.keeps_inv {s t : State} {off : Nat} {data : List Byte} (ht : WriteResult s off data t)
    (h : s.Inv) : t.Inv := by
  cases ht with
  | status => exact clearStatus_inv h _
  | symRe | symIm | prec | refused => exact h
  | cell i hl ho hi => exact writeCells_inv (ws := [(i, wordOfBytes data)]) h (by simpa using hi)

/-- Settles O15: the invariant through each case of `StepResult`. -/
theorem stepKeepsInvariant : Obligations.StepKeepsInvariant := by
  intro s t h ht
  have htaken : ∀ rest, (s.takeEvent rest).Inv := fun _ => h
  cases step_cases ht with
  | idle | released | elsewhereRead | elsewhereWrite => exact h
  | asserted rest => exact resetUnit_inv _
  | read addr width rest => exact (busRead_cases _ _ _).keeps_inv (htaken rest)
  | write addr data rest hp hr hw hc => exact (busWrite_cases (s := s.takeEvent rest) hc).keeps_inv (htaken rest)
  | command data rest hp hr hl i hi _ hexec => exact exec_keeps_inv (htaken rest) hexec
  | illegal data rest => exact recordFault_inv (htaken rest) _ _

/-! ### Reachable states -/

/-- Settles O14: after reset the registers are zero and no byte is listed. -/
theorem invariantAtReset : Obligations.InvariantAtReset :=
  fun _ _ => ⟨rfl, ⟨fun _ => ⟨rfl, rfl⟩, nofun⟩, ⟨.nil, nofun⟩, nofun⟩

/-- What holds of a state and is kept by every step holds of every state that it reaches. -/
theorem Reaches.induct {P : State → Prop} {s t : State} (h : Reaches s t) (h0 : P s)
    (hstep : ∀ u v, P u → step u = .next v → P v) : P t := by
  induction h with
  | refl => exact h0
  | tail _ hv ih => exact hstep _ _ ih hv

theorem Reaches.inv {s t : State} (h : Reaches s t) (hs : s.Inv) : t.Inv := h.induct hs stepKeepsInvariant

theorem Reaches.config_eq {s t : State} (h : Reaches s t) : t.config = s.config :=
  h.induct (P := fun u => u.config = s.config) rfl fun _ _ hu hv => (step_keeps_config hv).trans hu

/-! ### The registers as the host reads them -/

/-- The number that ORDER_LOG2 of CFG holds: log2(N), and 0 while unconfigured (R22). -/
def orderLog2 : Option Setting → Nat
  | none => 0
  | some st => st.order.bits

theorem orderLog2_mem (c : Option Setting) : orderLog2 c ∈ [0, 4, 6, 8, 10] := by
  obtain _ | ⟨o, f⟩ := c
  · simp [orderLog2]
  · cases o <;> simp [orderLog2, QamOrder.bits]

theorem orderLog2_eq_zero_iff {c : Option Setting} : orderLog2 c = 0 ↔ c = none := by
  cases c with
  | none => simp [orderLog2]
  | some st => simpa [orderLog2] using Nat.one_le_iff_ne_zero.1 (bits_pos st.order)

theorem cfgWord_order (c : Option Setting) : (cfgWord c).extractLsb' 0 4 = BitVec.ofNat 4 (orderLog2 c) := by
  cases c with
  | none => rfl
  | some st => exact BitVec.extractLsb'_append_eq_right

/-- ORDER_LOG2 holds its number: four bits are enough. -/
theorem cfgWord_order_toNat (c : Option Setting) : ((cfgWord c).extractLsb' 0 4).toNat = orderLog2 c := by
  rw [cfgWord_order, BitVec.toNat_ofNat, Nat.mod_eq_of_lt]
  have := orderLog2_mem c
  simp only [List.mem_cons, List.not_mem_nil, or_false] at this
  omega

theorem cfgWord_order_eq_zero_iff {c : Option Setting} : (cfgWord c).extractLsb' 0 4 = 0#4 ↔ c = none := by
  rw [← orderLog2_eq_zero_iff, ← cfgWord_order_toNat, ← BitVec.toNat_inj, BitVec.toNat_ofNat, Nat.zero_mod]

/-- R101 over the FAC column of R100 computes the table of R100. -/
theorem amplitudeRow_default (o : QamOrder) : (facOf Config.defaultFacTable o, rcpOf Config.defaultFacTable o,
    ampOf Config.defaultFacTable o, distOf Config.defaultFacTable o) = specRow o.bits := by
  cases o <;> decide +kernel

theorem tableRow_default (c : Option Setting) : tableRow Config.defaultFacTable c = specRow (orderLog2 c) := by
  cases c with
  | none => rfl
  | some st => exact amplitudeRow_default st.order

/-- Settles O16: the invariant holds in every reachable state, where the amplitude table is still that of R100. -/
theorem reachableRegistersAgree : Obligations.ReachableRegistersAgree := by
  intro c events t htable ht
  obtain ⟨hrow, ⟨hclear, hset⟩, -⟩ := ht.inv (invariantAtReset c events)
  rw [State.tableOk, ht.config_eq, State.start, htable, tableRow_default] at hrow
  refine ⟨?_, ?_, fun h => ?_, ?_, hclear, fun hf h0 => ?_⟩
  · rw [cfgWord_order]
    exact List.mem_map_of_mem (f := BitVec.ofNat 4) (orderLog2_mem t.cfg)
  · rw [cfgWord_fmt]
    cases cfgFormat t.cfg <;> decide
  · rw [cfgWord_order_eq_zero_iff.1 h]
    rfl
  · rw [hrow, cfgWord_order_toNat]
  · have hpos := (hset hf).1
    rw [h0] at hpos
    exact absurd hpos (by decide)

end Sys2Proof.Machine
end

section
/-! SUPPORT. STATUS and FAULTCMD (spec/10_state.md R24 to R28): the layout of the status word, and which steps change a
field of the fault record or BUSERR. -/

namespace Sys2Proof.Machine

/-! ### Layout -/

/-- CONFIGURED says whether ORDER_LOG2 of CFG is not 0 (R25). -/
theorem configured_iff (s : State) : s.configured = true ↔ (cfgWord s.cfg).extractLsb' 0 4 ≠ 0 :=
  Option.isSome_iff_ne_none.trans cfgWord_order_eq_zero_iff.not.symm

theorem status_flags (s : State) : s.status.getLsbD 0 = s.fault ∧ s.status.getLsbD 1 = s.multi ∧
    s.status.getLsbD 2 = s.buserr ∧ s.status.getLsbD 3 = s.configured := by
  simp only [State.status, BitVec.getLsbD_append]
  simp

theorem status_reserved_low (s : State) : s.status.extractLsb' 4 4 = 0 := by
  simp only [State.status, BitVec.extractLsb'_append_eq_of_le, Nat.reduceLeDiff, Nat.reduceSub]
  exact BitVec.extractLsb'_append_eq_right

theorem status_errcode (s : State) : s.status.extractLsb' 8 8 = s.errcode := by
  simp only [State.status, BitVec.extractLsb'_append_eq_of_le, Nat.reduceLeDiff, Nat.reduceSub]
  exact BitVec.extractLsb'_append_eq_right

theorem status_reserved_high (s : State) : s.status.extractLsb' 16 48 = 0 := by
  simp only [State.status, BitVec.extractLsb'_append_eq_of_le, Nat.reduceLeDiff, Nat.reduceSub]
  exact BitVec.extractLsb'_eq_self

/-- Settles O31: field by field, the fourth flag as `configured_iff` reads it. -/
theorem statusWordLayout : Obligations.StatusWordLayout := by
  intro s
  obtain ⟨hfault, hmulti, hbuserr, hconfigured⟩ := status_flags s
  exact ⟨hfault, hmulti, hbuserr, hconfigured ▸ configured_iff s, status_reserved_low s, status_errcode s,
    status_reserved_high s⟩

/-! ### Writers -/

/-- The fault record holds what it held. -/
abbrev SameRecord (s t : State) : Prop :=
  t.fault = s.fault ∧ t.multi = s.multi ∧ t.errcode = s.errcode ∧ t.faultcmd = s.faultcmd

theorem SameRecord.refl (s : State) : SameRecord s s := ⟨rfl, rfl, rfl, rfl⟩

theorem exec_keeps_buserr {i : Instr} {s t : State} (h : exec i s = .next t) : t.buserr = s.buserr := by
  cases exec_cases h with
  | faulted c => exact s.recordFault_buserr _ c
  | configured | reported | sliced | mapped => rfl

theorem ReadResult.keeps_record {s t : State} {off width : Nat} (h : ReadResult s off width t) : SameRecord s t := by
  cases h with
  | admitted | refused => exact .refl s

/-- A read changes BUSERR only if it is refused (R55). -/
theorem ReadResult.buserr_cases {s t : State} {off width : Nat} (h : ReadResult s off width t) :
    t.buserr = s.buserr ∨ NotAdmitted s.config.cells off width := by
  cases h with
  | admitted => exact .inl rfl
  | refused h => exact .inr h

/-- A write that is no command changes the fault record only in STATUS (R163). -/
theorem WriteResult.record_cases {s t : State} {off : Nat} {data : List Byte} (h : WriteResult s off data t) :
    SameRecord s t ∨ data.length = 8 ∧ off = 8 := by
  cases h with
  | status hl ho => exact .inr ⟨hl, ho⟩
  | symRe | symIm | prec | cell | refused => exact .inl (.refl s)

/-- A write that is no command changes BUSERR only in STATUS, or if it is refused (R55, R163). -/
theorem WriteResult.buserr_cases {s t : State} {off : Nat} {data : List Byte} (h : WriteResult s off data t) :
    t.buserr = s.buserr ∨ (data.length = 8 ∧ off = 8) ∨
      (NotAdmitted s.config.cells off data.length ∨ data.length = 8 ∧ off ∈ readOnlyOffsets) := by
  cases h with
  | status hl ho => exact .inr (.inl ⟨hl, ho⟩)
  | symRe | symIm | prec | cell => exact .inl rfl
  | refused h => exact .inr (.inr h)

/-- A step that changes the fault record is a CMD write, a STATUS write or an assertion of reset (R26). -/
theorem step_record_cases {s t : State} (h : step s = .next t) :
    SameRecord s t ∨ ∃ e rest, s.port = e :: rest ∧
      ((∃ data, e = .write s.config.base data ∧ data.length = 8) ∨
        (∃ data, e = .write (s.config.base + 8) data ∧ data.length = 8) ∨ e = .assertReset) := by
  cases step_cases h with
  | idle | released | elsewhereRead | elsewhereWrite => exact .inl ⟨rfl, rfl, rfl, rfl⟩
  | asserted rest hp => exact .inr ⟨_, rest, hp, .inr (.inr rfl)⟩
  | read => exact .inl (busRead_cases _ _ _).keeps_record
  | write addr data rest hp hr hw hc =>
    refine (busWrite_cases (s := s.takeEvent rest) hc).record_cases.imp id fun ⟨hl, ho⟩ => ?_
    have haddr : addr = s.config.base + 8 := by omega
    exact ⟨_, rest, hp, .inr (.inl ⟨data, by rw [haddr], hl⟩)⟩
  | command data rest hp hr hl | illegal data rest hp hr hl => exact .inr ⟨_, rest, hp, .inl ⟨data, rfl, hl⟩⟩

/-- A step that changes BUSERR is a refused access, a STATUS write or an assertion of reset (R26). -/
theorem step_buserr_cases {s t : State} (h : step s = .next t) :
    t.buserr = s.buserr ∨ ∃ e rest, s.port = e :: rest ∧
      (RefusedAccess s e ∨ (∃ data, e = .write (s.config.base + 8) data ∧ data.length = 8) ∨
        e = .assertReset) := by
  cases step_cases h with
  | idle | released | elsewhereRead | elsewhereWrite => exact .inl rfl
  | asserted rest hp => exact .inr ⟨_, rest, hp, .inr (.inr rfl)⟩
  | read addr width rest hp hr hw =>
    obtain ⟨hlo, hhi⟩ := inWindow_iff.1 hw
    refine (busRead_cases (s.takeEvent rest) _ _).buserr_cases.imp id fun hn => ?_
    exact ⟨_, rest, hp, .inl ⟨hlo, hhi, hn⟩⟩
  | write addr data rest hp hr hw hc =>
    obtain ⟨hlo, hhi⟩ := inWindow_iff.1 hw
    rcases (busWrite_cases (s := s.takeEvent rest) hc).buserr_cases with hsame | ⟨hl, ho⟩ | hn
    · exact .inl hsame
    · have haddr : addr = s.config.base + 8 := by omega
      exact .inr ⟨_, rest, hp, .inr (.inl ⟨data, by rw [haddr], hl⟩)⟩
    · exact .inr ⟨_, rest, hp, .inl ⟨hlo, hhi, hn⟩⟩
  | command data rest hp hr hl i hi _ ht => exact .inl (exec_keeps_buserr (s := s.takeEvent rest) ht)
  | illegal => exact .inl (State.recordFault_buserr _ _ _)

/-- Settles O28: the event of the step is the one that `step_record_cases` and `step_buserr_cases` find on the port. -/
theorem statusHasNoOtherWriters : Obligations.StatusHasNoOtherWriters := by
  intro s t e rest hp ht
  refine ⟨fun hrecord => ?_, fun hbuserr => ?_⟩
  · obtain ⟨_, _, hp', he⟩ := (step_record_cases ht).resolve_left hrecord
    cases hp.symm.trans hp'
    exact he
  · obtain ⟨_, _, hp', he⟩ := (step_buserr_cases ht).resolve_left hbuserr
    cases hp.symm.trans hp'
    exact he

end Sys2Proof.Machine
end

section
/-! SUPPORT. The code buffer (spec/10_state.md R34 to R39): a cell reads its reset draw until it is written, and the
codes of R36 read back from the words that hold them. -/

namespace Sys2Proof.Machine

/-! ### Reset draws -/

/-- Byte k of a number is bits `[8*k+7 : 8*k]` of it (R53). -/
theorem leBytes_getElem (n v : Nat) {k : Nat} (h : k < (leBytes n v).length) :
    (leBytes n v)[k] = BitVec.ofNat 8 (v / 256 ^ k) := by
  induction n generalizing v k with
  | zero => simp at h
  | succ n ih =>
    cases k with
    | zero => simp [leBytes]
    | succ k =>
      simp only [leBytes, List.getElem_cons_succ]
      rw [ih, Nat.div_div_eq_div_mul, Nat.pow_succ']

theorem bytesOfWord_getElem (w : Word) {k : Nat} (h : k < (bytesOfWord w).length) :
    (bytesOfWord w)[k] = w.extractLsb' (8 * k) 8 := by
  apply BitVec.eq_of_toNat_eq
  simp only [bytesOfWord, leBytes_getElem, BitVec.toNat_ofNat, BitVec.extractLsb'_toNat, Nat.shiftRight_eq_div_pow,
    Nat.pow_mul, Nat.reducePow]

theorem readBytes_eq {s : State} {off : Nat} (bs : List Byte)
    (h : ∀ k (hk : k < bs.length), s.readByte (off + k) = bs[k]) : s.readBytes bs.length off = bs := by
  induction bs generalizing off with
  | nil => rfl
  | cons b bs ih =>
    rw [List.length_cons, State.readBytes, ih fun k hk => ?_]
    · exact congrArg (· :: bs) (h 0 (by simp))
    · rw [Nat.add_right_comm]
      exact h (k + 1) (by simpa using hk)

/-- A cell reads the word whose bytes stand at its offset (R35, R53). -/
theorem readCell_eq {s : State} {i : Nat} {w : Word}
    (h : ∀ k, k < 8 → s.readByte (cellOffset i + k) = w.extractLsb' (8 * k) 8) : s.readCell i = w := by
  have hbytes : s.readBytes (bytesOfWord w).length (cellOffset i) = bytesOfWord w :=
    readBytes_eq _ fun k hk => by rw [bytesOfWord_getElem, h k (by simpa using hk)]
  rw [bytesOfWord_length] at hbytes
  rw [State.readCell, hbytes, wordOfBytes_bytesOfWord]

/-- While no byte is listed, every cell reads its reset draw (R39; log 3). -/
theorem readCell_of_mem_nil {s : State} (h : s.mem = []) (i : Nat) : s.readCell i = Config.codememReset s.epoch i := by
  refine readCell_eq fun k hk => ?_
  have hoff : cellOffset i + k - codeBase = 8 * i + k := by unfold cellOffset; omega
  have hcell : (8 * i + k) / 8 = i := by omega
  have hbyte : (8 * i + k) % 8 = k := by omega
  simp only [State.readByte, h, memLookup, Memory.unlisted, resetByte, hoff, hcell, hbyte]

/-- Settles O12: each register by itself, and the cells by `readCell_of_mem_nil`. -/
theorem resetValues : Obligations.ResetValues :=
  ⟨fun r => by cases r <;> rfl, fun i _ => readCell_of_mem_nil rfl i⟩

/-! ### Codes in cells -/

/-- The low bits of a sign-extended value are the value. -/
theorem extractLsb'_signExtend {w v : Nat} (h : w ≤ v) (x : BitVec w) : (x.signExtend v).extractLsb' 0 w = x := by
  ext j hj
  simp [BitVec.getElem_signExtend, hj, Nat.lt_of_lt_of_le hj h]

/-- An integer in the range of `w` bits reads back from those bits, sign-extended or not (R36, R37). -/
theorem toInt_ofInt_signExtend {w : Nat} (hw : 0 < w) (h64 : w ≤ 64) {z : Int} (hlo : -2 ^ (w - 1) ≤ z)
    (hhi : z < 2 ^ (w - 1)) : (((BitVec.ofInt w z).signExtend 64).extractLsb' 0 w).toInt = z ∧
      ((BitVec.ofInt w z).signExtend 64).toInt = z := by
  rw [extractLsb'_signExtend h64, BitVec.toInt_signExtend_of_le h64, BitVec.toInt_ofInt_eq_self hw hlo hhi]
  exact ⟨rfl, rfl⟩

/-- Settles O38: both integer formats are `toInt_ofInt_signExtend`, at 8 and at 32 bits. -/
theorem integerCodesReadBack : Obligations.IntegerCodesReadBack := by
  refine ⟨fun z hlo hhi => ?_, fun z hlo hhi => ?_⟩
  · obtain ⟨hlow, hword⟩ := toInt_ofInt_signExtend (w := 8) (by decide) (by decide) (z := z) (by omega) (by omega)
    exact ⟨congrArg CodeValue.int hlow, hword⟩
  · obtain ⟨hlow, hword⟩ := toInt_ofInt_signExtend (w := 32) (by decide) (by decide) (z := z) (by omega) (by omega)
    exact ⟨congrArg CodeValue.int hlow, hword⟩

/-- Settles O37: in F64 the two words are the binary64 values, in the integer formats O38 reads the code back. -/
theorem bipolarCodesReadBack : Obligations.BipolarCodesReadBack := by
  obtain ⟨hi8, hi32⟩ := integerCodesReadBack
  refine ⟨fun fmt z hz => ?_, by decide, by decide, fun fmt hfmt => ?_⟩
  · have hbipolar : (CodeValue.int z).bipolar? = some z := by rcases hz with rfl | rfl <;> rfl
    cases fmt with
    | f64 => rcases hz with rfl | rfl <;> decide
    | i8sat => rw [(hi8 z (by omega) (by omega)).1, hbipolar]
    | i32 => rw [(hi32 z (by omega) (by omega)).1, hbipolar]
  · cases fmt with
    | f64 => exact absurd rfl hfmt
    | i8sat | i32 => decide

end Sys2Proof.Machine
end

section
/-! SUPPORT. Host accesses end to end (spec/20_memory.md R53 to R57): the step that a read, a write or a refused access
is, and the bytes of the words that accesses carry. -/

namespace Sys2Proof.Machine

/-! ### The step of an access -/

theorem inWindow_base_add (s : State) {off : Nat} (h : off < 0x10000) : inWindow s (s.config.base + off) = true :=
  inWindow_iff.2 (by omega)

theorem cellOffset_lt_window {i cells : Nat} (hi : i < cells) (hcells : cells ≤ 4096) : cellOffset i < 0x10000 := by
  unfold cellOffset codeBase
  omega

/-- A read in the window is one step. -/
theorem step_of_read {s : State} {rest : List HostEvent} {addr width : Nat} (h : Delivers s (.read addr width) rest)
    (hw : inWindow s addr = true) : step s = .next ((s.takeEvent rest).busRead (addr - s.config.base) width) := by
  obtain ⟨hreset, hport⟩ := h
  simp only [step, nextDelivery, hport, deliver, State.takeEvent_resetAsserted, hreset, inWindow_takeEvent, hw,
    State.takeEvent_config, Bool.false_eq_true, if_true, if_false]

/-- A write in the window that is no command is one step. -/
theorem step_of_write {s : State} {rest : List HostEvent} {addr : Nat} {data : List Byte}
    (h : Delivers s (.write addr data) rest) (hw : inWindow s addr = true)
    (hc : admitted? s.config.cells (addr - s.config.base) data.length ≠ some (.reg .cmd)) :
    step s = .next ((s.takeEvent rest).busWrite (addr - s.config.base) data) := by
  obtain ⟨hreset, hport⟩ := h
  simp only [step, nextDelivery, hport, deliver, State.takeEvent_resetAsserted, hreset, inWindow_takeEvent, hw,
    State.takeEvent_config, hc, Bool.false_eq_true, if_true, if_false]

/-! ### What an access does by what it reaches -/

theorem busRead_of_admitted {s : State} {off width : Nat} {a : Target}
    (h : admitted? s.config.cells off width = some a) : s.busRead off width = s.answer (s.readTarget a) := by
  simp only [State.busRead, h]

theorem busRead_of_not_admitted {s : State} {off width : Nat} (h : NotAdmitted s.config.cells off width) :
    s.busRead off width = (s.answer 0).setBuserr := by
  simp only [State.busRead, admitted?_none.2 h]

theorem busWrite_of_not_admitted {s : State} {off : Nat} {data : List Byte}
    (h : NotAdmitted s.config.cells off data.length) : s.busWrite off data = s.setBuserr := by
  simp only [State.busWrite, admitted?_none.2 h]

theorem busWrite_of_reg {s : State} {off : Nat} {data : List Byte} {r : Reg}
    (h : admitted? s.config.cells off data.length = some (.reg r)) :
    s.busWrite off data = s.writeReg (wordOfBytes data) r := by
  simp only [State.busWrite, h]

theorem busWrite_of_cell {s : State} {off : Nat} {data : List Byte} {i : Nat}
    (h : admitted? s.config.cells off data.length = some (.cell i)) :
    s.busWrite off data = s.writeCell i (wordOfBytes data) := by
  simp only [State.busWrite, h]

/-! ### Refused accesses -/

/-- The registers that stand at `readOnlyOffsets` (R20, R55). -/
def readOnlyRegs : List Reg := [.cfg, .result, .faultcmd, .fac, .rcp, .amp, .dist]

theorem readOnlyOffsets_eq : readOnlyOffsets = readOnlyRegs.map regOffset := rfl

theorem writeReg_of_readOnly {r : Reg} (h : r ∈ readOnlyRegs) (s : State) (v : Word) :
    s.writeReg v r = s.setBuserr := by
  fin_cases h <;> rfl

theorem ne_cmd_of_readOnly {r : Reg} (h : r ∈ readOnlyRegs) : r ≠ .cmd := by
  rintro rfl
  exact absurd h (by decide)

theorem step_of_refused_read {s : State} {rest : List HostEvent} {addr width : Nat}
    (h : Delivers s (.read addr width) rest) (hr : RefusedAccess s (.read addr width)) :
    step s = .next ((s.takeEvent rest).answer 0).setBuserr := by
  obtain ⟨hlo, hhi, hn⟩ := hr
  rw [step_of_read h (inWindow_iff.2 ⟨hlo, hhi⟩), busRead_of_not_admitted (s := s.takeEvent rest) hn]

/-- A refused write is no command: it reaches nothing, or a read-only register. -/
theorem step_of_refused_write {s : State} {rest : List HostEvent} {addr : Nat} {data : List Byte}
    (h : Delivers s (.write addr data) rest) (hr : RefusedAccess s (.write addr data)) :
    step s = .next (s.takeEvent rest).setBuserr := by
  obtain ⟨hlo, hhi, hn | ⟨hl, ho⟩⟩ := hr
  · rw [step_of_write h (inWindow_iff.2 ⟨hlo, hhi⟩) (by simp [admitted?_none.2 hn]),
      busWrite_of_not_admitted (s := s.takeEvent rest) hn]
  · obtain ⟨r, hr, hoff⟩ := List.mem_map.1 (readOnlyOffsets_eq ▸ ho)
    have hadm : admitted? s.config.cells (addr - s.config.base) data.length = some (.reg r) :=
      admitted?_reg.2 ⟨hl, hoff.symm⟩
    have hcmd : admitted? s.config.cells (addr - s.config.base) data.length ≠ some (.reg .cmd) := by
      simp [hadm, ne_cmd_of_readOnly hr]
    rw [step_of_write h (inWindow_iff.2 ⟨hlo, hhi⟩) hcmd, busWrite_of_reg (s := s.takeEvent rest) hadm,
      writeReg_of_readOnly hr]

/-- Settles O32: a read by `step_of_refused_read`, a write by `step_of_refused_write`; an edge of reset is no access. -/
theorem refusedAccessOnlySetsBuserr : Obligations.RefusedAccessOnlySetsBuserr := by
  intro s e rest h hr
  cases e with
  | read addr width => exact ⟨some 0, step_of_refused_read h hr, fun _ _ _ => rfl, nofun⟩
  | write addr data => exact ⟨none, step_of_refused_write h hr, nofun, fun _ _ _ => rfl⟩
  | assertReset | releaseReset => exact hr.elim

/-! ### Admitted reads -/

@[simp] theorem readCell_takeEvent (s : State) (rest : List HostEvent) (i : Nat) :
    (s.takeEvent rest).readCell i = s.readCell i :=
  readCell_congr rfl rfl i

/-- Nothing that a host can read is the port's. -/
@[simp] theorem readTarget_takeEvent (s : State) (rest : List HostEvent) (a : Target) :
    (s.takeEvent rest).readTarget a = s.readTarget a := by
  cases a with
  | reg r => cases r <;> rfl
  | cell i => exact readCell_takeEvent s rest i

/-- An 8-byte read at an offset that reaches a target is one step, which answers what the target holds (R56). -/
theorem step_of_admitted_read {s : State} {rest : List HostEvent} {off : Nat} (a : Target)
    (ha : admitted? s.config.cells off 8 = some a) (hoff : off < 0x10000) (h : Delivers s (hostRead s off) rest) :
    step s = .next { s with port := rest, reply := some (s.readTarget a) } := by
  rw [step_of_read h (inWindow_base_add s hoff), Nat.add_sub_cancel_left,
    busRead_of_admitted (s := s.takeEvent rest) ha, readTarget_takeEvent]
  rfl

theorem step_of_register_read {s : State} {rest : List HostEvent} (r : Reg)
    (h : Delivers s (hostRead s (regOffset r)) rest) :
    step s = .next { s with port := rest, reply := some (s.readReg r) } :=
  step_of_admitted_read (.reg r) (admitted?_reg.2 ⟨rfl, rfl⟩) (by cases r <;> decide) h

theorem step_of_cell_read {s : State} {rest : List HostEvent} {i : Nat} (hi : i < s.config.cells)
    (hcells : s.config.cells ≤ 4096) (h : Delivers s (hostRead s (cellOffset i)) rest) :
    step s = .next { s with port := rest, reply := some (s.readCell i) } :=
  step_of_admitted_read (.cell i) (admitted?_cell.2 ⟨rfl, rfl, hi⟩) (cellOffset_lt_window hi hcells) h

/-- Settles O33: the listed pairs are the offsets and contents of the registers, each read by `step_of_register_read`,
and a cell is read by `step_of_cell_read`. -/
theorem admittedReadsReturnState : Obligations.AdmittedReadsReturnState := fun s _ =>
  ⟨(List.forall_mem_map (f := fun r => (regOffset r, s.readReg r))
      (l := [.cmd, .status, .cfg, .result, .faultcmd, .symRe, .symIm, .prec, .fac, .rcp, .amp, .dist])).2
      fun r _ => step_of_register_read r,
    fun _ => step_of_cell_read⟩

/-! ### Cell writes -/

/-- An 8-byte write of `v` to a cell of the buffer is one step (R57). -/
theorem step_of_cell_write {s : State} {rest : List HostEvent} {i : Nat} {v : Word} (hi : i < s.config.cells)
    (hcells : s.config.cells ≤ 4096) (h : Delivers s (hostWrite s (cellOffset i) v) rest) :
    step s = .next ((s.takeEvent rest).writeCell i v) := by
  have hadm : admitted? s.config.cells (s.config.base + cellOffset i - s.config.base) (bytesOfWord v).length =
      some (.cell i) :=
    admitted?_cell.2 ⟨bytesOfWord_length v, Nat.add_sub_cancel_left .., hi⟩
  rw [step_of_write h (inWindow_base_add s (cellOffset_lt_window hi hcells)) (by rw [hadm]; nofun),
    busWrite_of_cell (s := s.takeEvent rest) hadm, wordOfBytes_bytesOfWord]

theorem readCell_writeCell (s : State) (i j : Nat) (w : Word) :
    (s.writeCell i w).readCell j = if j = i then w else s.readCell j := by
  split
  · subst j
    exact readCell_writeCell_same s i w
  · exact readCell_writeCell_other s w ‹_›

/-- Settles O35: a `step_of_cell_write` and a `step_of_cell_read`, of which the write alone touches the buffer. -/
theorem cellWriteIsReadBack : Obligations.CellWriteIsReadBack := by
  intro s rest i j v hi hj hcells h
  obtain ⟨hreset, hport⟩ := h
  have hread := step_of_cell_read (s := (s.takeEvent (hostRead s (cellOffset j) :: rest)).writeCell i v) (rest := rest)
    hj hcells ⟨hreset, rfl⟩
  refine ⟨_, _, step_of_cell_write hi hcells ⟨hreset, hport⟩, hread, congrArg some ?_, ⟨rfl, rfl, rfl, rfl, rfl⟩,
    ⟨rfl, rfl, rfl, rfl, rfl⟩, ⟨rfl, rfl, rfl⟩, rfl⟩
  rw [readCell_writeCell, readCell_takeEvent]

/-! ### Byte order -/

/-- The little-endian bytes of the number that bytes stand for are those bytes (R53). -/
theorem leBytes_leNat (bs : List Byte) : leBytes bs.length (leNat bs) = bs := by
  induction bs with
  | nil => rfl
  | cons b bs ih =>
    have hlow : BitVec.ofNat 8 (b.toNat + 256 * leNat bs) = b := by
      apply BitVec.eq_of_toNat_eq
      rw [BitVec.toNat_ofNat]
      omega
    have hhigh : (b.toNat + 256 * leNat bs) / 256 = leNat bs := by omega
    rw [List.length_cons, leNat, leBytes, hlow, hhigh, ih]

theorem leNat_lt (bs : List Byte) : leNat bs < 256 ^ bs.length := by
  induction bs with
  | nil => decide
  | cons b bs ih =>
    rw [leNat, List.length_cons, Nat.pow_succ]
    omega

theorem bytesOfWord_wordOfBytes {bs : List Byte} (h : bs.length = 8) : bytesOfWord (wordOfBytes bs) = bs := by
  have hlt : leNat bs < 2 ^ 64 := by simpa [h] using leNat_lt bs
  rw [bytesOfWord, wordOfBytes, BitVec.toNat_ofNat, Nat.mod_eq_of_lt hlt, ← h, leBytes_leNat]

theorem wordOfBytes_extractLsb' {bs : List Byte} (h : bs.length = 8) {b : Nat} (hb : b < bs.length) :
    (wordOfBytes bs).extractLsb' (8 * b) 8 = bs[b] := by
  have hb8 : b < (bytesOfWord (wordOfBytes bs)).length := by simpa [h] using hb
  rw [← bytesOfWord_getElem _ hb8]
  simp only [bytesOfWord_wordOfBytes h]

@[simp] theorem readBytes_length (s : State) (n off : Nat) : (s.readBytes n off).length = n := by
  induction n generalizing off with
  | zero => rfl
  | succ n ih => rw [State.readBytes, List.length_cons, ih]

theorem readBytes_getElem (s : State) (n off : Nat) {k : Nat} (h : k < (s.readBytes n off).length) :
    (s.readBytes n off)[k] = s.readByte (off + k) := by
  induction n generalizing off k with
  | zero => simp at h
  | succ n ih =>
    cases k with
    | zero => rfl
    | succ k =>
      simp only [State.readBytes, List.getElem_cons_succ]
      rw [ih, Nat.add_right_comm, Nat.add_assoc]

/-- Settles O36: a cell is the word of the eight bytes at its offset, and `wordOfBytes_extractLsb'` finds each of
them in it. -/
theorem bytesAreLittleEndian : Obligations.BytesAreLittleEndian := by
  refine ⟨fun s i b hb => ?_, fun data b x hl hx => ?_⟩
  · rw [State.readCell, wordOfBytes_extractLsb' (readBytes_length s 8 _) (by simpa using hb), readBytes_getElem]
    rfl
  · obtain ⟨hb, rfl⟩ := List.getElem?_eq_some_iff.1 hx
    exact wordOfBytes_extractLsb' hl hb

end Sys2Proof.Machine
end

section
/-! SUPPORT. The decoder and the encoder, each said once (spec/30_encoding.md R70 to R76): what the decoder makes of a
word by its fields, the fields of an encoded command, and that the two undo each other. -/

namespace Sys2Proof

/-! ### Fields -/

/-- A field reads `n` exactly when its bits are those of `n`, if `n` fits it (R11). -/
theorem field_eq_iff {w : Word} {hi lo n : Nat} (hn : n < 2 ^ (hi + 1 - lo)) :
    field w hi lo = n ↔ w.extractLsb' lo (hi + 1 - lo) = BitVec.ofNat (hi + 1 - lo) n := by
  rw [field, ← BitVec.toNat_inj, BitVec.toNat_ofNat, Nat.mod_eq_of_lt hn]

theorem field_lt (w : Word) (hi lo : Nat) : field w hi lo < 2 ^ (hi + 1 - lo) := BitVec.isLt _

theorem field_eq_zero_iff {w : Word} {hi lo : Nat} :
    field w hi lo = 0 ↔ w.extractLsb' lo (hi + 1 - lo) = 0#(hi + 1 - lo) := field_eq_iff (Nat.two_pow_pos _)

theorem ofNat_field (w : Word) (hi lo : Nat) :
    BitVec.ofNat (hi + 1 - lo) (field w hi lo) = w.extractLsb' lo (hi + 1 - lo) :=
  ((field_eq_iff (field_lt w hi lo)).1 rfl).symm

/-! ### Decoder -/

/-- The words that are no command (R70, R76): OP is none of 1 to 5, or a reserved bit of the format is 1. -/
def IllegalWord (w : Word) : Prop :=
  w.extractLsb' 0 4 = 0#4 ∨ 6#4 ≤ w.extractLsb' 0 4 ∨
    (w.extractLsb' 0 4 = 1#4 ∧ w.extractLsb' 10 54 ≠ 0) ∨
    (w.extractLsb' 0 4 = 2#4 ∧ w.extractLsb' 4 60 ≠ 0) ∨
    (3#4 ≤ w.extractLsb' 0 4 ∧ w.extractLsb' 0 4 ≤ 5#4 ∧ w.extractLsb' 28 36 ≠ 0)

theorem decodeWord_cfg {w : Word} (hop : w.extractLsb' 0 4 = 1#4) (hres : w.extractLsb' 10 54 = 0#54) :
    decodeWord w = .ok (.cfg (field w 7 4) (field w 9 8)) := by
  simp [decodeWord, field, hop, hres]

theorem decodeWord_bits {w : Word} (hop : w.extractLsb' 0 4 = 2#4) (hres : w.extractLsb' 4 60 = 0#60) :
    decodeWord w = .ok .bits := by
  simp [decodeWord, field, hop, hres]

theorem decodeWord_hard {w : Word} (hop : w.extractLsb' 0 4 = 3#4) (hres : w.extractLsb' 28 36 = 0#36) :
    decodeWord w = .ok (.hard (field w 15 4) (field w 27 16)) := by
  simp [decodeWord, field, hop, hres]

theorem decodeWord_soft {w : Word} (hop : w.extractLsb' 0 4 = 4#4) (hres : w.extractLsb' 28 36 = 0#36) :
    decodeWord w = .ok (.soft (field w 15 4) (field w 27 16)) := by
  simp [decodeWord, field, hop, hres]

theorem decodeWord_map {w : Word} (hop : w.extractLsb' 0 4 = 5#4) (hres : w.extractLsb' 28 36 = 0#36) :
    decodeWord w = .ok (.map (field w 15 4) (field w 27 16)) := by
  simp [decodeWord, field, hop, hres]

/-- What the decoder makes of a word: the command of its OP with the fields as operands, or an error. -/
inductive DecodeResult (w : Word) : Except DecodeError Instr → Prop where
  | cfg (hop : w.extractLsb' 0 4 = 1#4) (hres : w.extractLsb' 10 54 = 0#54) :
      DecodeResult w (.ok (.cfg (field w 7 4) (field w 9 8)))
  | bits (hop : w.extractLsb' 0 4 = 2#4) (hres : w.extractLsb' 4 60 = 0#60) : DecodeResult w (.ok .bits)
  | hard (hop : w.extractLsb' 0 4 = 3#4) (hres : w.extractLsb' 28 36 = 0#36) :
      DecodeResult w (.ok (.hard (field w 15 4) (field w 27 16)))
  | soft (hop : w.extractLsb' 0 4 = 4#4) (hres : w.extractLsb' 28 36 = 0#36) :
      DecodeResult w (.ok (.soft (field w 15 4) (field w 27 16)))
  | map (hop : w.extractLsb' 0 4 = 5#4) (hres : w.extractLsb' 28 36 = 0#36) :
      DecodeResult w (.ok (.map (field w 15 4) (field w 27 16)))
  | illegal (e : DecodeError) (h : IllegalWord w) : DecodeResult w (.error e)

/-- A reserved bit of format D is 1 (R73). -/
theorem IllegalWord.of_reservedD {w : Word} (hlo : 3 ≤ field w 3 0) (hhi : field w 3 0 ≤ 5) (hres : field w 63 28 ≠ 0) :
    IllegalWord w :=
  .inr (.inr (.inr (.inr ⟨hlo, hhi, field_eq_zero_iff.not.1 hres⟩)))

theorem decodeWord_cases (w : Word) : DecodeResult w (decodeWord w) := by
  have hop {n : Nat} (hn : n < 16) (h : field w 3 0 = n) : w.extractLsb' 0 4 = BitVec.ofNat 4 n :=
    (field_eq_iff hn).1 h
  unfold decodeWord
  split_ifs with h1 hres h2 hres h3 hres h4 hres h5 hres
  · exact .illegal _ (.inr (.inr (.inl ⟨hop (by decide) h1, field_eq_zero_iff.not.1 hres⟩)))
  · exact .cfg (hop (by decide) h1) (field_eq_zero_iff.1 (not_not.1 hres))
  · exact .illegal _ (.inr (.inr (.inr (.inl ⟨hop (by decide) h2, field_eq_zero_iff.not.1 hres⟩))))
  · exact .bits (hop (by decide) h2) (field_eq_zero_iff.1 (not_not.1 hres))
  · exact .illegal _ (.of_reservedD (by omega) (by omega) hres)
  · exact .hard (hop (by decide) h3) (field_eq_zero_iff.1 (not_not.1 hres))
  · exact .illegal _ (.of_reservedD (by omega) (by omega) hres)
  · exact .soft (hop (by decide) h4) (field_eq_zero_iff.1 (not_not.1 hres))
  · exact .illegal _ (.of_reservedD (by omega) (by omega) hres)
  · exact .map (hop (by decide) h5) (field_eq_zero_iff.1 (not_not.1 hres))
  · have hout : field w 3 0 = 0 ∨ 6 ≤ field w 3 0 := by omega
    exact .illegal _ (hout.elim (fun h => .inl (hop (by decide) h)) (fun h => .inr (.inl h)))

/-- No illegal word decodes (R70). -/
theorem IllegalWord.exists_error {w : Word} (h : IllegalWord w) : ∃ e, decodeWord w = .error e := by
  cases hd : decodeWord w with
  | error e => exact ⟨e, rfl⟩
  | ok i =>
    have hcases := decodeWord_cases w
    rw [hd] at hcases
    cases hcases with
    | cfg hop hres | bits hop hres | hard hop hres | soft hop hres | map hop hres =>
      simp [IllegalWord, hop, hres] at h

/-! ### Encoder -/

theorem encodeC_op (order fmt : Nat) : (encodeC order fmt).extractLsb' 0 4 = 1#4 := BitVec.extractLsb'_append_eq_right

theorem encodeC_order (order fmt : Nat) : (encodeC order fmt).extractLsb' 4 4 = BitVec.ofNat 4 order := by
  simp only [encodeC, BitVec.extractLsb'_append_eq_of_le, Nat.reduceLeDiff, Nat.reduceSub]
  exact BitVec.extractLsb'_append_eq_right

theorem encodeC_fmt (order fmt : Nat) : (encodeC order fmt).extractLsb' 8 2 = BitVec.ofNat 2 fmt := by
  simp only [encodeC, BitVec.extractLsb'_append_eq_of_le, Nat.reduceLeDiff, Nat.reduceSub]
  exact BitVec.extractLsb'_append_eq_right

theorem encodeC_reserved (order fmt : Nat) : (encodeC order fmt).extractLsb' 10 54 = 0#54 := by
  simp only [encodeC, BitVec.extractLsb'_append_eq_of_le, Nat.reduceLeDiff, Nat.reduceSub]
  exact BitVec.extractLsb'_eq_self

theorem encodeD_op (op : BitVec 4) (base stride : Nat) : (encodeD op base stride).extractLsb' 0 4 = op :=
  BitVec.extractLsb'_append_eq_right

theorem encodeD_base (op : BitVec 4) (base stride : Nat) :
    (encodeD op base stride).extractLsb' 4 12 = BitVec.ofNat 12 base := by
  simp only [encodeD, BitVec.extractLsb'_append_eq_of_le, Nat.reduceLeDiff, Nat.reduceSub]
  exact BitVec.extractLsb'_append_eq_right

theorem encodeD_stride (op : BitVec 4) (base stride : Nat) :
    (encodeD op base stride).extractLsb' 16 12 = BitVec.ofNat 12 stride := by
  simp only [encodeD, BitVec.extractLsb'_append_eq_of_le, Nat.reduceLeDiff, Nat.reduceSub]
  exact BitVec.extractLsb'_append_eq_right

theorem encodeD_reserved (op : BitVec 4) (base stride : Nat) : (encodeD op base stride).extractLsb' 28 36 = 0#36 := by
  simp only [encodeD, BitVec.extractLsb'_append_eq_of_le, Nat.reduceLeDiff, Nat.reduceSub]
  exact BitVec.extractLsb'_eq_self

/-- A word of format C is the encoding of its fields (R71). -/
theorem encodeC_fields {w : Word} (hop : w.extractLsb' 0 4 = 1#4) (hres : w.extractLsb' 10 54 = 0#54) :
    encodeC (field w 7 4) (field w 9 8) = w := by
  have hfmt : 0#54 ++ BitVec.ofNat 2 (field w 9 8) = w.extractLsb' 8 56 := by
    rw [← hres, ofNat_field w 9 8]
    exact BitVec.extractLsb'_append_extractLsb'_eq_extractLsb' rfl
  have horder : w.extractLsb' 8 56 ++ BitVec.ofNat 4 (field w 7 4) = w.extractLsb' 4 60 := by
    rw [ofNat_field w 7 4]
    exact BitVec.extractLsb'_append_extractLsb'_eq_extractLsb' rfl
  rw [encodeC, hfmt, horder, ← hop]
  exact (BitVec.extractLsb'_append_extractLsb'_eq_extractLsb' rfl).trans BitVec.extractLsb'_eq_self

/-- A word of format N is the encoding (R72). -/
theorem encodeN_fields {w : Word} (hop : w.extractLsb' 0 4 = 2#4) (hres : w.extractLsb' 4 60 = 0#60) : encodeN = w := by
  rw [encodeN, ← hop, ← hres]
  exact (BitVec.extractLsb'_append_extractLsb'_eq_extractLsb' rfl).trans BitVec.extractLsb'_eq_self

/-- A word of format D is the encoding of its fields (R73). -/
theorem encodeD_fields {w : Word} {op : BitVec 4} (hop : w.extractLsb' 0 4 = op) (hres : w.extractLsb' 28 36 = 0#36) :
    encodeD op (field w 15 4) (field w 27 16) = w := by
  have hstride : 0#36 ++ BitVec.ofNat 12 (field w 27 16) = w.extractLsb' 16 48 := by
    rw [← hres, ofNat_field w 27 16]
    exact BitVec.extractLsb'_append_extractLsb'_eq_extractLsb' rfl
  have hbase : w.extractLsb' 16 48 ++ BitVec.ofNat 12 (field w 15 4) = w.extractLsb' 4 60 := by
    rw [ofNat_field w 15 4]
    exact BitVec.extractLsb'_append_extractLsb'_eq_extractLsb' rfl
  rw [encodeD, hstride, hbase, ← hop]
  exact (BitVec.extractLsb'_append_extractLsb'_eq_extractLsb' rfl).trans BitVec.extractLsb'_eq_self

/-! ### The two undo each other -/

/-- Both operands fit their fields, as `WellFormed` asks it. -/
theorem fits_iff {a b m n : Nat} : (decide (a < m) && decide (b < n)) = true ↔ a < m ∧ b < n := by
  rw [Bool.and_eq_true, decide_eq_true_eq, decide_eq_true_eq]

theorem field_encodeD {base stride : Nat} (op : BitVec 4) (h : base < 2 ^ 12 ∧ stride < 2 ^ 12) :
    field (encodeD op base stride) 15 4 = base ∧ field (encodeD op base stride) 27 16 = stride :=
  ⟨(field_eq_iff h.1).2 (encodeD_base op base stride), (field_eq_iff h.2).2 (encodeD_stride op base stride)⟩

theorem decodeWord_encode {i : Instr} (h : WellFormed i = true) : decodeWord (encode i) = .ok i := by
  cases i with
  | cfg order fmt =>
    obtain ⟨horder, hfmt⟩ := fits_iff.1 h
    rw [encode, decodeWord_cfg (encodeC_op order fmt) (encodeC_reserved order fmt),
      (field_eq_iff horder).2 (encodeC_order order fmt), (field_eq_iff hfmt).2 (encodeC_fmt order fmt)]
  | bits => decide
  | hard base stride =>
    obtain ⟨hbase, hstride⟩ := field_encodeD 3#4 (fits_iff.1 h)
    rw [encode, decodeWord_hard (encodeD_op _ _ _) (encodeD_reserved _ _ _), hbase, hstride]
  | soft base stride =>
    obtain ⟨hbase, hstride⟩ := field_encodeD 4#4 (fits_iff.1 h)
    rw [encode, decodeWord_soft (encodeD_op _ _ _) (encodeD_reserved _ _ _), hbase, hstride]
  | map base stride =>
    obtain ⟨hbase, hstride⟩ := field_encodeD 5#4 (fits_iff.1 h)
    rw [encode, decodeWord_map (encodeD_op _ _ _) (encodeD_reserved _ _ _), hbase, hstride]

/-- Settles O1: the fields of the encoding are the OP, zeros and the operands, which the decoder reads. -/
theorem decodeOfEncodeReturnsInstr : Obligations.DecodeOfEncodeReturnsInstr := fun _ => decodeWord_encode

theorem encode_of_decodeWord {w : Word} {i : Instr} (h : decodeWord w = .ok i) :
    WellFormed i = true ∧ encode i = w := by
  have hcases := decodeWord_cases w
  rw [h] at hcases
  cases hcases with
  | cfg hop hres => exact ⟨fits_iff.2 ⟨field_lt w 7 4, field_lt w 9 8⟩, encodeC_fields hop hres⟩
  | bits hop hres => exact ⟨rfl, encodeN_fields hop hres⟩
  | hard hop hres | soft hop hres | map hop hres =>
    exact ⟨fits_iff.2 ⟨field_lt w 15 4, field_lt w 27 16⟩, encodeD_fields hop hres⟩

/-- Settles O2: the fields of a word that decodes, side by side, are the word. -/
theorem encodeOfDecodeReturnsWord : Obligations.EncodeOfDecodeReturnsWord := fun _ _ => encode_of_decodeWord

/-- Settles O3: the nine encodings are computed, and `decodeWord_encode` reads them back. -/
theorem specEncodingExamples : Obligations.SpecEncodingExamples := by
  intro p hp
  have hencode : WellFormed p.2 = true ∧ encode p.2 = p.1 := by
    revert p
    decide
  obtain ⟨hwf, hword⟩ := hencode
  exact ⟨hword ▸ decodeWord_encode hwf, hword⟩

/-! ### The opcode map -/

/-- A mask that is all ones over some bits shows them in the masked word. -/
theorem extractLsb'_of_masked {w m r : Word} {lo len : Nat} (h : w &&& m = r)
    (hm : m.extractLsb' lo len = BitVec.allOnes len) : w.extractLsb' lo len = r.extractLsb' lo len := by
  rw [← h, BitVec.extractLsb'_and, hm, BitVec.and_allOnes]

theorem decodeWord_matches_row {w : Word} {i : Instr} (h : decodeWord w = .ok i) :
    w &&& (Laws.opcodeRow i).1 = (Laws.opcodeRow i).2 := by
  obtain ⟨-, rfl⟩ := encode_of_decodeWord h
  cases i with
  | cfg order fmt => exact Laws.EncodeMatchesRow.cfg order fmt
  | bits => exact Laws.EncodeMatchesRow.bits
  | hard base stride => exact Laws.EncodeMatchesRow.hard base stride
  | soft base stride => exact Laws.EncodeMatchesRow.soft base stride
  | map base stride => exact Laws.EncodeMatchesRow.map base stride

/-- The mask of format D shows OP and the reserved bits (R75). -/
theorem fields_of_maskedD {w r : Word} (h : w &&& 0xFFFFFFFFF000000F = r) :
    w.extractLsb' 0 4 = r.extractLsb' 0 4 ∧ w.extractLsb' 28 36 = r.extractLsb' 28 36 :=
  ⟨extractLsb'_of_masked h (by decide), extractLsb'_of_masked h (by decide)⟩

/-- Every row's mask shows OP (R75). -/
theorem op_of_row {w : Word} {r : Word × Word} (hr : r ∈ Machine.opcodeMap) (h : w &&& r.1 = r.2) :
    w.extractLsb' 0 4 = r.2.extractLsb' 0 4 :=
  extractLsb'_of_masked h (by fin_cases hr <;> rfl)

theorem opcodeMap_ops_nodup : (Machine.opcodeMap.map fun r => r.2.extractLsb' 0 4).Nodup := by decide

theorem opcodeMap_row_unique {w : Word} {r₁ r₂ : Word × Word} (h₁ : r₁ ∈ Machine.opcodeMap)
    (h₂ : r₂ ∈ Machine.opcodeMap) (hw₁ : w &&& r₁.1 = r₁.2) (hw₂ : w &&& r₂.1 = r₂.2) : r₁ = r₂ :=
  List.inj_on_of_nodup_map opcodeMap_ops_nodup h₁ h₂ ((op_of_row h₁ hw₁).symm.trans (op_of_row h₂ hw₂))

/-- Settles O4: a word that decodes is an encoding, which matches its row; a row's mask shows OP and the reserved
bits, which make the word the row's command, and the OPs of the rows differ. -/
theorem commandWordsMatchOpcodeMap : Obligations.CommandWordsMatchOpcodeMap := by
  intro w
  refine ⟨⟨fun ⟨_, _, h⟩ => decodeWord_matches_row h, fun h => ?_⟩, ⟨decodeWord_matches_row, fun h => ?_⟩,
    ⟨fun ⟨_, _, h⟩ => decodeWord_matches_row h, fun h => ?_⟩,
    ⟨fun ⟨_, _, h⟩ => decodeWord_matches_row h, fun h => ?_⟩,
    ⟨fun ⟨_, _, h⟩ => decodeWord_matches_row h, fun h => ?_⟩, fun _ h₁ _ h₂ => opcodeMap_row_unique h₁ h₂⟩
  · exact ⟨_, _, decodeWord_cfg (extractLsb'_of_masked h (by decide)) (extractLsb'_of_masked h (by decide))⟩
  · exact decodeWord_bits (extractLsb'_of_masked h (by decide)) (extractLsb'_of_masked h (by decide))
  · obtain ⟨hop, hres⟩ := fields_of_maskedD h
    exact ⟨_, _, decodeWord_hard hop hres⟩
  · obtain ⟨hop, hres⟩ := fields_of_maskedD h
    exact ⟨_, _, decodeWord_soft hop hres⟩
  · obtain ⟨hop, hres⟩ := fields_of_maskedD h
    exact ⟨_, _, decodeWord_map hop hres⟩

end Sys2Proof
end

section
/-! SUPPORT. The CMD write of an illegal word (spec/30_encoding.md R70, R76). -/

namespace Sys2Proof.Machine

/-- Eight bytes written to CMD that decode to no command raise ILLEGAL_CMD (R76). -/
theorem step_of_illegal {s : State} {data : List Byte} {rest : List HostEvent} {e : DecodeError}
    (hr : s.resetAsserted = false) (hp : s.port = .write s.config.base data :: rest) (hl : data.length = 8)
    (he : decodeBytes data = .error e) :
    step s = .next ((s.takeEvent rest).recordFault (wordOfBytes data) .illegalCmd) := by
  rw [step, nextDelivery_command hr hp hl]
  simp only [he, execIllegal]

/-- Settles O5: no illegal word decodes, so its write is that of `step_of_illegal`. -/
theorem illegalWordsRecordIllegalCmd : Obligations.IllegalWordsRecordIllegalCmd := by
  rintro s rest v ⟨hr, hp⟩ hillegal
  obtain ⟨e, he⟩ := IllegalWord.exists_error hillegal
  have hd : decodeBytes (bytesOfWord v) = .error e := by
    rw [decodeBytes_eight (bytesOfWord_length v), wordOfBytes_bytesOfWord, he]
  rw [step_of_illegal hr hp (bytesOfWord_length v) hd, wordOfBytes_bytesOfWord]
  rfl

end Sys2Proof.Machine
end

section
/-! SUPPORT. CFG and BITS (spec/40_config.md R90 to R94): which operands are legal, and what each command makes of its
operands, one equation per case. -/

namespace Sys2Proof.Machine

/-! ### Operands -/

theorem orderOf?_bits (o : QamOrder) : orderOf? o.bits = some o := by cases o <;> rfl

theorem orderOf?_eq_none {n : Nat} (h : n ∉ [4, 6, 8, 10]) : orderOf? n = none := by
  unfold orderOf?
  split <;> simp at h ⊢

/-- The legal ORDER operands are the bit counts of the four orders (R91). -/
theorem exists_bits_eq {n : Nat} (h : n ∈ [4, 6, 8, 10]) : ∃ o : QamOrder, o.bits = n := by
  simp only [List.mem_cons, List.not_mem_nil, or_false] at h
  obtain rfl | rfl | rfl | rfl := h
  exacts [⟨.qam16, rfl⟩, ⟨.qam64, rfl⟩, ⟨.qam256, rfl⟩, ⟨.qam1024, rfl⟩]

theorem formatOf?_code (f : CodeFormat) : formatOf? f.code = some f := by cases f <;> rfl

theorem formatOf?_eq_none {n : Nat} (h : 3 ≤ n) : formatOf? n = none := by
  obtain ⟨k, rfl⟩ := Nat.exists_eq_add_of_le' h
  rfl

/-- The legal FMT operands are the codes of the three formats (R10). -/
theorem exists_code_eq {n : Nat} (h : n < 3) : ∃ f : CodeFormat, f.code = n := by
  obtain rfl | rfl | rfl : n = 0 ∨ n = 1 ∨ n = 2 := by omega
  exacts [⟨.f64, rfl⟩, ⟨.i8sat, rfl⟩, ⟨.i32, rfl⟩]

/-- Legal operands of CFG are those of a setting (R91). -/
theorem exists_setting {order fmt : Nat} (ho : order ∈ [4, 6, 8, 10]) (hf : fmt < 3) :
    ∃ st : Setting, st.order.bits = order ∧ st.fmt.code = fmt := by
  obtain ⟨o, rfl⟩ := exists_bits_eq ho
  obtain ⟨f, rfl⟩ := exists_code_eq hf
  exact ⟨⟨o, f⟩, rfl, rfl⟩

theorem bits_injective : Function.Injective QamOrder.bits := fun o o' h =>
  Option.some_inj.1 (by rw [← orderOf?_bits, h, orderOf?_bits])

theorem rootLessOne_eq (o : QamOrder) : (o.rootLessOne : Int) = 2 ^ (o.bits / 2) - 1 := by cases o <;> rfl

/-- CFG reads as FMT above ORDER_LOG2 (R22). -/
theorem cfgWord_some (st : Setting) : cfgWord (some st) = BitVec.ofNat 64 (st.fmt.code * 16 + st.order.bits) := by
  obtain ⟨o, f⟩ := st
  cases o <;> cases f <;> decide

/-! ### CFG -/

theorem exec_cfg_badOrder {order : Nat} (h : order ∉ [4, 6, 8, 10]) (fmt : Nat) (s : State) :
    exec (.cfg order fmt) s = .next (s.recordFault (encode (.cfg order fmt)) .badOrder) := by
  rw [exec, execCfg, cfgEffect, orderOf?_eq_none h, complete_error]

theorem exec_cfg_badFmt {order fmt : Nat} (ho : order ∈ [4, 6, 8, 10]) (hf : 3 ≤ fmt) (s : State) :
    exec (.cfg order fmt) s = .next (s.recordFault (encode (.cfg order fmt)) .badFmt) := by
  obtain ⟨o, rfl⟩ := exists_bits_eq ho
  simp only [exec, execCfg, cfgEffect, orderOf?_bits, formatOf?_eq_none hf, complete_error]

theorem exec_cfg_legal (st : Setting) (s : State) :
    exec (.cfg st.order.bits st.fmt.code) s = .next (s.loadSetting st) := by
  simp only [exec, execCfg, cfgEffect, orderOf?_bits, formatOf?_code, complete_ok]

/-- With operands that are not legal CFG records a fault (R91). -/
theorem exec_cfg_illegal {order fmt : Nat} (h : ¬ (order ∈ [4, 6, 8, 10] ∧ fmt < 3)) (s : State) :
    ∃ c, exec (.cfg order fmt) s = .next (s.recordFault (encode (.cfg order fmt)) c) := by
  by_cases ho : order ∈ [4, 6, 8, 10]
  · exact ⟨_, exec_cfg_badFmt ho (Nat.le_of_not_lt fun hf => h ⟨ho, hf⟩) s⟩
  · exact ⟨_, exec_cfg_badOrder ho fmt s⟩

/-- Recording a fault changes STATUS and FAULTCMD alone (R160). -/
theorem recordFault_sameButStatus (s : State) (v : Word) (c : FaultCode) : SameButStatus s (s.recordFault v c) := by
  have hsetting : SameSetting s (s.recordFault v c) := by simp [SameSetting]
  have hoperands : SameOperands s (s.recordFault v c) := by simp [SameOperands]
  have hbuffer : SameBuffer s (s.recordFault v c) := readByte_congr (s.recordFault_mem v c) (s.recordFault_epoch v c)
  have haround : SameAround s (s.recordFault v c) := by simp [SameAround]
  exact ⟨hsetting, hoperands, s.recordFault_result v c, hbuffer, haround⟩

/-- Settles O18: the equations of CFG, and the fields of `loadSetting` where it completes. -/
theorem cfgSelectsOrderAndFormat : Obligations.CfgSelectsOrderAndFormat := by
  refine fun s order fmt => ⟨fun h => exec_cfg_badOrder h fmt s, fun ho hf => exec_cfg_badFmt ho hf.ge s, fun ho hf => ?_⟩
  obtain ⟨st, rfl, rfl⟩ := exists_setting ho hf
  have hfac (o : QamOrder) (h : o.bits = st.order.bits) : (s.loadSetting st).fac = facOf s.config.facTable o := by
    rw [State.loadSetting_fac, bits_injective h]
  have hrcp : (s.loadSetting st).rcp = fmul (f64 (2 ^ (st.order.bits / 2) - 1)) (s.loadSetting st).fac := by
    rw [State.loadSetting_rcp, State.loadSetting_fac, rcpOf, rootLessOne_eq]
  exact ⟨_, exec_cfg_legal st s, cfgWord_some st, hfac, hrcp, rfl, rfl, ⟨rfl, rfl, rfl, rfl, rfl⟩, ⟨rfl, rfl, rfl⟩, rfl,
    rfl, readByte_congr rfl rfl, ⟨rfl, rfl, rfl, rfl, rfl⟩⟩

/-- Settles O19: a fault is only recorded (`recordFault_sameButStatus`), and loading a setting twice is loading it once. -/
theorem cfgFaultKeepsAndRepeatIsIdle : Obligations.CfgFaultKeepsAndRepeatIsIdle := by
  refine fun s t order fmt ht => ⟨fun h => ?_, fun ⟨ho, hf⟩ => ?_⟩
  · obtain ⟨c, hc⟩ := exec_cfg_illegal h s
    obtain rfl := Host.Outcome.next.inj (ht.symm.trans hc)
    exact recordFault_sameButStatus s _ c
  · obtain ⟨st, rfl, rfl⟩ := exists_setting ho hf
    obtain rfl := Host.Outcome.next.inj (ht.symm.trans (exec_cfg_legal st s))
    exact exec_cfg_legal st (s.loadSetting st)

/-! ### BITS -/

theorem exec_bits_unconfigured {s : State} (h : s.cfg = none) :
    exec .bits s = .next (s.recordFault (encode .bits) .notConfigured) := by
  simp only [exec, execBits, bitsEffect, h, complete_error]

theorem exec_bits_configured {s : State} {st : Setting} (h : s.cfg = some st) :
    exec .bits s = .next (s.setResult (BitVec.ofNat 64 st.order.bits)) := by
  simp only [exec, execBits, bitsEffect, h, complete_ok]

/-- Settles O20: the two equations of BITS, whose command word is 0x2. -/
theorem bitsReportsBitCount : Obligations.BitsReportsBitCount := by
  have hword : encode .bits = 0x2 := by decide
  exact fun s => ⟨fun h => hword ▸ exec_bits_unconfigured h, fun st h => exec_bits_configured h⟩

/-- Settles O21: the state that CFG leaves is configured with its order. -/
theorem bitsAfterCfgIsLog2 : Obligations.BitsAfterCfgIsLog2 := by
  intro s order fmt ho hf
  obtain ⟨st, rfl, rfl⟩ := exists_setting ho hf
  exact ⟨_, _, exec_cfg_legal st s, exec_bits_configured (s.loadSetting_cfg st), rfl⟩

end Sys2Proof.Machine
end

section
/-! SUPPORT. Signs, zeros and classes of binary64 results (spec/00_scope.md R13), as `quantize` needs them: negation of
an operand negates a product and a rounded value, and products and rounded values are no NaN. -/

namespace Sys2Proof.Machine

/-! ### The sign bit -/

@[simp] theorem fpSign_fneg (a : Word) : fpSign (fneg a) = !fpSign a := by
  have hbit : (0x8000000000000000 : Word).msb = true := by decide
  rw [fpSign, fneg, BitVec.msb_xor, hbit, Bool.xor_true, fpSign]

@[simp] theorem fpMag_fneg (a : Word) : fpMag (fneg a) = fpMag a := by
  have hrest : (0x8000000000000000 : Word).extractLsb' 0 63 = 0#63 := by decide
  rw [fpMag, fneg, BitVec.extractLsb'_xor, hrest, BitVec.xor_zero, fpMag]

@[simp] theorem fpSign_fabs (a : Word) : fpSign (fabs a) = false := by
  have hbit : (0x7FFFFFFFFFFFFFFF : Word).msb = false := by decide
  rw [fpSign, fabs, BitVec.msb_and, hbit, Bool.and_false]

@[simp] theorem fpMag_fabs (a : Word) : fpMag (fabs a) = fpMag a := by
  have hrest : (0x7FFFFFFFFFFFFFFF : Word).extractLsb' 0 63 = BitVec.allOnes 63 := by decide
  rw [fpMag, fabs, BitVec.extractLsb'_and, hrest, BitVec.and_allOnes, fpMag]

/-! ### Negation -/

@[simp] theorem isFinite_fneg (a : Word) : isFinite (fneg a) = isFinite a := by
  rw [Bool.eq_iff_iff, isFinite_iff, isFinite_iff, fpMag_fneg]

@[simp] theorem isNaN_fneg (a : Word) : isNaN (fneg a) = isNaN a := by
  rw [Bool.eq_iff_iff, isNaN_iff, isNaN_iff, fpMag_fneg]

@[simp] theorem fpExp_fneg (a : Word) : fpExp (fneg a) = fpExp a := by
  simp only [fpExp, fpExpField_eq, fpMag_fneg]

@[simp] theorem fpSig_fneg (a : Word) : fpSig (fneg a) = fpSig a := by
  simp only [fpSig, fpExpField_eq, fpFrac_eq, fpMag_fneg]

@[simp] theorem fpValue_fneg (a : Word) : fpValue (fneg a) = -fpValue a := by
  rw [fpValue_eq, fpValue_eq, fpSign_fneg, fpMag_fneg]
  cases fpSign a <;> simp [signed]

theorem ofSignMag_not (neg : Bool) {mag : Nat} (h : mag < 2 ^ 63) : ofSignMag (!neg) mag = fneg (ofSignMag neg mag) :=
  ((eq_ofSignMag_iff h).2 ⟨by rw [fpSign_fneg, fpSign_ofSignMag neg h], by rw [fpMag_fneg, fpMag_ofSignMag neg h]⟩).symm

theorem pack_not (neg : Bool) (n : Nat) (e : Int) : pack (!neg) n e = fneg (pack neg n e) := by
  unfold pack
  split
  · exact ofSignMag_not neg (by decide)
  · exact ofSignMag_not neg (lt_of_le_of_lt (min_le_right _ _) infMag_lt)

theorem fmul_fneg {a b : Word} (ha : isFinite a = true) (hb : isFinite b = true) :
    fmul a (fneg b) = fneg (fmul a b) := by
  rw [fmul_finite ha ((isFinite_fneg b).trans hb), fmul_finite ha hb, fpSign_fneg, fpSig_fneg, fpExp_fneg,
    Bool.bne_not, pack_not]

theorem rint_fneg (tie : TieRule) {a : Word} (h : isNaN a = false) : rint tie (fneg a) = fneg (rint tie a) := by
  rw [rint, rint, isNaN_fneg, h, if_neg Bool.false_ne_true, if_neg Bool.false_ne_true, fpExp_fneg, fpSig_fneg,
    fpSign_fneg, pack_not, apply_ite fneg]

/-- A finite integer negated is the negative integer. -/
theorem integer_fneg {r : Word} (hfin : isFinite r = true) (hint : fpValue r = toInt r * 2 ^ 1074) :
    toInt (fneg r) = -toInt r ∧ fpValue (fneg r) = toInt (fneg r) * 2 ^ 1074 := by
  have hval : fpValue (fneg r) = -toInt r * 2 ^ 1074 := by rw [fpValue_fneg, hint, neg_mul]
  have hneg := toInt_of_fpValue ((isFinite_fneg r).trans hfin) hval
  exact ⟨hneg, hneg ▸ hval⟩

/-! ### Values that are no NaN -/

@[simp] theorem isNaN_pack (neg : Bool) (n : Nat) (e : Int) : isNaN (pack neg n e) = false := by
  obtain ⟨M, hM, -⟩ := (StandsFor.of_nat n).exists_pack_eq neg e
  have hmin : min M infMag ≤ infMag := min_le_right _ _
  rw [hM, Bool.eq_false_iff, ne_eq, isNaN_iff, fpMag_ofSignMag neg (lt_of_le_of_lt hmin infMag_lt)]
  exact not_lt.2 hmin

theorem isNaN_fmul {a b : Word} (ha : isFinite a = true) (hb : isFinite b = true) : isNaN (fmul a b) = false := by
  rw [fmul_finite ha hb, isNaN_pack]

/-- A value that is neither finite nor a NaN is the infinity of its sign. -/
theorem eq_fpInf_of_not_isFinite {a : Word} (hnan : isNaN a = false) (hfin : isFinite a = false) :
    a = fpInf (fpSign a) := by
  have hle := fpMag_le_of_not_isNaN hnan
  have hge := mt isFinite_iff.2 (Bool.eq_false_iff.1 hfin)
  exact eq_fpInf_iff.2 ⟨rfl, by omega⟩

@[simp] theorem rint_fpInf (tie : TieRule) (neg : Bool) : rint tie (fpInf neg) = fpInf neg := by
  have hexp : 1075 ≤ fpExp (fpInf neg) := by cases neg <;> decide
  rw [rint, isNaN_fpInf, if_neg Bool.false_ne_true, if_pos hexp]

/-- Rounding a value that is no NaN gives an integer or keeps an infinity. -/
theorem rint_cases (tie : TieRule) {a : Word} (h : isNaN a = false) :
    (isFinite (rint tie a) = true ∧ fpValue (rint tie a) = toInt (rint tie a) * 2 ^ 1074) ∨
      ∃ neg, rint tie a = fpInf neg := by
  cases hfin : isFinite a with
  | true =>
    obtain ⟨hr, hval, -⟩ := rintIsNearestInteger tie a hfin
    exact .inl ⟨hr, hval⟩
  | false =>
    rw [eq_fpInf_of_not_isFinite h hfin, rint_fpInf]
    exact .inr ⟨_, rfl⟩

theorem fpValue_rint (tie : TieRule) {a : Word} (h : isNaN a = false) (hfin : isFinite (rint tie a) = true) :
    fpValue (rint tie a) = toInt (rint tie a) * 2 ^ 1074 := by
  rcases rint_cases tie h with ⟨-, hint⟩ | ⟨neg, hinf⟩
  · exact hint
  · rw [hinf, isFinite_fpInf] at hfin
    contradiction

/-! ### Zeros -/

/-- A zero factor makes a product the zero of its sign. -/
theorem fmul_of_zero {a b : Word} (ha : isFinite a = true) (hb : fpMag b = 0) :
    fmul a b = fpZero (fpSign a != fpSign b) := by
  have hfin : isFinite b = true := isFinite_iff.2 (hb ▸ infMag_pos)
  have hsig : fpSig b = 0 := by simp [fpSig, fpExpField_eq, fpFrac_eq, hb]
  rw [fmul_finite ha hfin, hsig, mul_zero, pack, if_pos rfl]

@[simp] theorem fpMag_fpZero (neg : Bool) : fpMag (fpZero neg) = 0 := fpMag_ofSignMag neg (by decide)

@[simp] theorem isFinite_fpZero (neg : Bool) : isFinite (fpZero neg) = true := by cases neg <;> decide

/-- Both zeros are the integer 0. -/
theorem integer_fpZero (neg : Bool) :
    toInt (fpZero neg) = 0 ∧ fpValue (fpZero neg) = toInt (fpZero neg) * 2 ^ 1074 := by
  have hval : fpValue (fpZero neg) = 0 * 2 ^ 1074 := by
    rw [fpValue_eq, fpMag_fpZero, magUnits_zero, Nat.cast_zero, signed_zero, zero_mul]
  have hzero := toInt_of_fpValue (isFinite_fpZero neg) hval
  exact ⟨hzero, hzero ▸ hval⟩

@[simp] theorem rint_fpZero (tie : TieRule) (neg : Bool) : rint tie (fpZero neg) = fpZero neg := by
  cases tie <;> cases neg <;> decide +kernel

/-! ### Magnitudes below 1 -/

/-- The finite magnitudes lie below the one at which rounding overflows. -/
theorem magUnits_lt_overflowUnits {m : Nat} (h : m < infMag) : magUnits m < overflowUnits := by
  obtain ⟨l, q, rfl, hq, hl⟩ := exists_sig_of_mag m
  have hlt := ((NearestEven.of_nat q).lt_infMag_iff (by exact_mod_cast hq.le)
    (hl.imp_right fun h => by exact_mod_cast h)).1 h
  rw [magUnits_of_sig hq.le hl]
  exact_mod_cast hlt

section
variable {a : Word} (h : flt (fabs a) (f64 1) = true)
include h

theorem natAbs_fpValue_lt_of_fabs_lt_one : (fpValue a).natAbs < 2 ^ 1074 := by
  obtain ⟨-, -, hkey⟩ := flt_iff.1 h
  obtain ⟨-, hone, -⟩ := integersConvertExactly 1 (by decide)
  rw [fpKey_lt_iff, hone, fpValue_eq, fpSign_fabs, fpMag_fabs, one_mul] at hkey
  rw [fpValue_eq, natAbs_signed, Int.natAbs_natCast, ← Int.ofNat_lt, Nat.cast_pow]
  exact hkey

theorem isFinite_of_fabs_lt_one : isFinite a = true := by
  obtain ⟨-, -, hkey⟩ := flt_iff.1 h
  have hone : fpKey (f64 1) < infMag := by decide +kernel
  rw [fpKey_eq (fabs a), fpSign_fabs, fpMag_fabs] at hkey
  exact isFinite_iff.2 (Int.ofNat_lt.1 (hkey.trans hone))

/-- A factor below 1 keeps a product finite (R108). -/
theorem isFinite_fmul_of_fabs_lt_one {b : Word} (hb : isFinite b = true) : isFinite (fmul a b) = true := by
  have hlt : (fpValue b).natAbs < overflowUnits := by
    rw [fpValue_eq, natAbs_signed, Int.natAbs_natCast]
    exact magUnits_lt_overflowUnits (isFinite_iff.1 hb)
  obtain ⟨hfinite, -, -⟩ := fmul_roundsTo (isFinite_of_fabs_lt_one h) hb
  rw [hfinite, Int.natAbs_mul, mul_comm]
  exact Nat.mul_lt_mul_of_lt_of_le hlt (natAbs_fpValue_lt_of_fabs_lt_one h).le (pow_pos two_pos 1074)

end

end Sys2Proof.Machine
end

section
/-! SUPPORT. The codes that `quantize` gives (spec/41_amplitude.md R104 to R108), from the rounded value: the clamp
of I8SAT, the range check of I32, zero codes and negated codes. -/

namespace Sys2Proof.Machine

/-! ### Scaled values -/

/-- Settles O48: a factor below 1 keeps `DIST x precision` finite, and a product of finite values is no NaN. -/
theorem quantizeOfFiniteIsNeverNaN : Obligations.QuantizeOfFiniteIsNeverNaN := by
  intro dist prec val hprec hval hdist
  have hscale := isFinite_fmul_of_fabs_lt_one hdist hprec
  exact ⟨hscale, isNaN_fmul hval hscale⟩

/-! ### The clamp of I8SAT -/

theorem quantize_i8sat (tie : TieRule) (dist prec val : Word) :
    quantize tie .i8sat dist prec val = .int (toInt (clampI8 (rint tie (fmul val (fmul dist prec))))) := rfl

theorem toInt_f64 {n : Int} (h : n.natAbs ≤ 2 ^ 53) : toInt (f64 n) = n := by
  obtain ⟨-, -, hint⟩ := integersConvertExactly n h
  exact hint

theorem toInt_f64_min : toInt (f64 (-128)) = -128 := toInt_f64 (by decide)

theorem toInt_f64_max : toInt (f64 127) = 127 := toInt_f64 (by decide)

theorem clampI8_below {r : Word} (h : flt r (f64 (-128)) = true) : clampI8 r = f64 (-128) := by
  rw [clampI8, if_pos h]

theorem clampI8_above {r : Word} (h : flt (f64 127) r = true) : clampI8 r = f64 127 := by
  have hbounds : fpKey (f64 (-128)) < fpKey (f64 127) := by decide +kernel
  have hbelow : ¬ flt r (f64 (-128)) = true := fun hlt => by
    obtain ⟨-, -, hlo⟩ := flt_iff.1 hlt
    obtain ⟨-, -, hhi⟩ := flt_iff.1 h
    omega
  rw [clampI8, if_neg hbelow, if_pos h]

/-- Settles O46: the clamp puts the rounded value at the end that it passes. -/
theorem softI8CodesSaturate : Obligations.SoftI8CodesSaturate := by
  refine fun tie dist prec val => ⟨fun h => ?_, fun h => ?_⟩
  · rw [quantize_i8sat, clampI8_above h, toInt_f64_max]
  · rw [quantize_i8sat, clampI8_below h, toInt_f64_min]

section
variable {r : Word} (hfin : isFinite r = true) (hint : fpValue r = toInt r * 2 ^ 1074)
include hfin hint

theorem flt_f64_iff {n : Int} (hn : n.natAbs ≤ 2 ^ 53) :
    (flt r (f64 n) = true ↔ toInt r < n) ∧ (flt (f64 n) r = true ↔ n < toInt r) := by
  have hpos : (0 : Int) < 2 ^ 1074 := pow_pos two_pos 1074
  obtain ⟨hnfin, hnval, -⟩ := integersConvertExactly n hn
  rw [flt_finite_iff hfin hnfin, flt_finite_iff hnfin hfin, hint, hnval]
  exact ⟨mul_lt_mul_iff_left₀ hpos, mul_lt_mul_iff_left₀ hpos⟩

/-- The clamp of an integer is its integer clamped. -/
theorem toInt_clampI8 : toInt (clampI8 r) = max (-128) (min (toInt r) 127) := by
  obtain ⟨hbelow, -⟩ := flt_f64_iff hfin hint (n := -128) (by decide)
  obtain ⟨-, habove⟩ := flt_f64_iff hfin hint (n := 127) (by decide)
  simp only [clampI8, hbelow, habove]
  split_ifs
  · rw [toInt_f64_min]
    omega
  · rw [toInt_f64_max]
    omega
  · omega

end

/-- The clamp of an infinity is the end of its sign. -/
theorem toInt_clampI8_fpInf (neg : Bool) : toInt (clampI8 (fpInf neg)) = if neg then -128 else 127 := by
  cases neg with
  | true => rw [clampI8_below (by decide +kernel), toInt_f64_min, if_pos rfl]
  | false => rw [clampI8_above (by decide +kernel), toInt_f64_max, if_neg Bool.false_ne_true]

/-- Settles O47: the clamp of an integer or of an infinity lies in the range. -/
theorem softI8CodesStayInRange : Obligations.SoftI8CodesStayInRange := by
  intro tie dist prec val z hprec hval hdist hz
  obtain ⟨-, hnan⟩ := quantizeOfFiniteIsNeverNaN dist prec val hprec hval hdist
  rw [quantize_i8sat, Quantized.int.injEq] at hz
  subst hz
  rcases rint_cases tie hnan with ⟨hfin, hint⟩ | ⟨neg, hinf⟩
  · rw [toInt_clampI8 hfin hint]
    omega
  · rw [hinf, toInt_clampI8_fpInf]
    split <;> decide

/-! ### The range of I32 -/

theorem overflowsI32_eq_false_iff {r : Word} :
    overflowsI32 r = false ↔ isFinite r = true ∧ -2 ^ 31 ≤ toInt r ∧ toInt r ≤ 2 ^ 31 - 1 := by
  simp [overflowsI32, and_assoc]

theorem quantize_i32_of_fits {tie : TieRule} {dist prec val : Word}
    (h : overflowsI32 (rint tie (fmul val (fmul dist prec))) = false) :
    quantize tie .i32 dist prec val = .int (toInt (rint tie (fmul val (fmul dist prec)))) :=
  if_neg (Bool.eq_false_iff.1 h)

theorem quantize_i32_of_overflows {tie : TieRule} {dist prec val : Word}
    (h : overflowsI32 (rint tie (fmul val (fmul dist prec))) = true) :
    quantize tie .i32 dist prec val = .overflow (rint tie (fmul val (fmul dist prec))) :=
  if_pos h

theorem quantize_i32_eq_int {tie : TieRule} {dist prec val : Word} {z : Int}
    (h : quantize tie .i32 dist prec val = .int z) :
    overflowsI32 (rint tie (fmul val (fmul dist prec))) = false ∧ toInt (rint tie (fmul val (fmul dist prec))) = z := by
  cases hover : overflowsI32 (rint tie (fmul val (fmul dist prec))) with
  | true => exact nomatch (quantize_i32_of_overflows hover).symm.trans h
  | false => exact ⟨rfl, Quantized.int.inj ((quantize_i32_of_fits hover).symm.trans h)⟩

/-- Settles O51: the range check decides, and an overflow is resolved by the sign or by the draw. -/
theorem i32OverflowFollowsParameter : Obligations.I32OverflowFollowsParameter := by
  rintro tie dist prec val r n rfl hnan
  rw [← overflowsI32_eq_false_iff, Bool.not_eq_false]
  refine ⟨quantize_i32_of_fits, fun h => ⟨quantize_i32_of_overflows h, ?_, rfl⟩⟩
  rw [resolveCode, saturateI32, hnan, if_neg Bool.false_ne_true]

/-! ### Zero codes -/

/-- Settles O49: a zero precision makes `DIST x precision` and the scaled value zeros, which rounding
and the clamp keep. -/
theorem zeroPrecisionGivesZeroCodes : Obligations.ZeroPrecisionGivesZeroCodes := by
  intro tie dist prec val hdist hval hprec
  have hscale : fpMag (fmul dist prec) = 0 := by rw [fmul_of_zero hdist hprec, fpMag_fpZero]
  have hy := fmul_of_zero hval hscale
  generalize (fpSign val != fpSign (fmul dist prec)) = neg at hy ⊢
  obtain ⟨hzero, hint⟩ := integer_fpZero neg
  refine ⟨?_, ?_, congrArg Quantized.real hy⟩
  · rw [quantize_i8sat, hy, rint_fpZero, toInt_clampI8 (isFinite_fpZero neg) hint, hzero]
    rfl
  · rw [quantize_i32_of_fits, hy, rint_fpZero, hzero]
    rw [hy, rint_fpZero, overflowsI32_eq_false_iff, hzero]
    exact ⟨isFinite_fpZero neg, by decide, by decide⟩

/-! ### Negated codes -/

section
variable {tie : TieRule} {y : Word} (h : isNaN y = false)
include h

/-- Between the ends of the range of I8SAT, a negated value has the negated code. -/
theorem toInt_clampI8_rint_fneg (hlo : -128 < toInt (clampI8 (rint tie y))) (hhi : toInt (clampI8 (rint tie y)) < 127) :
    toInt (clampI8 (rint tie (fneg y))) = -toInt (clampI8 (rint tie y)) := by
  rcases rint_cases tie h with ⟨hfin, hint⟩ | ⟨neg, hinf⟩
  · obtain ⟨hneg, hnegint⟩ := integer_fneg hfin hint
    rw [toInt_clampI8 hfin hint] at hlo hhi ⊢
    rw [rint_fneg tie h, toInt_clampI8 ((isFinite_fneg _).trans hfin) hnegint, hneg]
    omega
  · rw [hinf, toInt_clampI8_fpInf] at hlo hhi
    cases neg <;> simp at hlo hhi

/-- Above the lower end of the range of I32, a negated value has the negated code. -/
theorem overflowsI32_rint_fneg (hfits : overflowsI32 (rint tie y) = false) (hlo : -2 ^ 31 < toInt (rint tie y)) :
    overflowsI32 (rint tie (fneg y)) = false ∧ toInt (rint tie (fneg y)) = -toInt (rint tie y) := by
  obtain ⟨hfin, -, hhi⟩ := overflowsI32_eq_false_iff.1 hfits
  obtain ⟨hneg, -⟩ := integer_fneg hfin (fpValue_rint tie h hfin)
  rw [overflowsI32_eq_false_iff, rint_fneg tie h, isFinite_fneg, hneg]
  exact ⟨⟨hfin, by omega, by omega⟩, rfl⟩

end

/-- Settles O50: negating the precision negates the scaled value, and with it each code. -/
theorem negatedPrecisionNegatesCodes : Obligations.NegatedPrecisionNegatesCodes := by
  intro tie dist prec val hdist hprec hval hscale
  have hy : fmul val (fmul dist (fneg prec)) = fneg (fmul val (fmul dist prec)) := by
    rw [fmul_fneg hdist hprec, fmul_fneg hval hscale]
  have hnan := isNaN_fmul hval hscale
  refine ⟨congrArg Quantized.real hy, fun z hz hlo hhi => ?_, fun z hz hlo => ?_⟩
  · obtain rfl := Quantized.int.inj hz
    rw [quantize_i8sat, hy, toInt_clampI8_rint_fneg hnan hlo hhi]
  · obtain ⟨hfits, rfl⟩ := quantize_i32_eq_int hz
    obtain ⟨hfits', hneg⟩ := overflowsI32_rint_fneg hnan hfits hlo
    rw [quantize_i32_of_fits (hy ▸ hfits'), hy, hneg]

end Sys2Proof.Machine
end

section
/-! SUPPORT. The INT_OVERFLOW fault of SOFT (spec/42_slicer.md R126). -/

namespace Sys2Proof.Machine

/-- The level of a code index is one of those that SOFT quantizes (R14, R126). -/
theorem quantize_mem_softQuantized {st : Setting} {s : State} {c : Nat} {l : Level} (h : codeLevel? st s c = some l) :
    quantize s.config.tie st.fmt s.dist s.prec l.dist ∈ softQuantized st s := by
  rw [← foldSymbol_get?] at h
  exact List.mem_map_of_mem (List.mem_of_getElem? h)

theorem softEffect_overflow {s : State} {st : Setting} {base stride : Nat} (hc : checkData base stride s = .ok st)
    (hfin : (isFinite s.symRe && isFinite s.symIm && isFinite s.prec) = true) (hrule : s.config.overflow = .fault)
    (hover : (softQuantized st s).any Quantized.isOverflow = true) :
    softEffect base stride s = .error .intOverflow := by
  simp only [softEffect, hc]
  rw [if_pos hfin, if_pos ⟨hrule, hover⟩]

/-- Settles O25: the overflowing level is among those that SOFT checks before it writes. -/
theorem softOverflowFaults : Obligations.SoftOverflowFaults := by
  rintro s st base stride hcfg hslots hre him hprec hrule ⟨c, l, r, hlevel, hr⟩
  have hover : (softQuantized st s).any Quantized.isOverflow = true :=
    List.any_eq_true.2 ⟨.overflow r, hr ▸ quantize_mem_softQuantized hlevel, rfl⟩
  have hfin : (isFinite s.symRe && isFinite s.symIm && isFinite s.prec) = true := by rw [hre, him, hprec]; rfl
  rw [exec, execSoft, softEffect_overflow (checkData_eq_ok.2 ⟨hcfg, hslots⟩) hfin hrule hover, complete_error]

end Sys2Proof.Machine
end

section
/-! SUPPORT. The amplitude table and the mean energy of the constellation (spec/41_amplitude.md R100, R109, R110). -/

namespace Sys2Proof.Machine

/-- Settles O17: the table is the one that the invariant's proof computes. -/
theorem amplitudeTableIsTheSpecs : Obligations.AmplitudeTableIsTheSpecs := amplitudeRow_default

/-- R109 by the levels of one axis. -/
theorem meanEnergyNearOne_iff_axis {o : QamOrder} {amp : Word} : MeanEnergyNearOne o amp ↔
    (2 ^ (o.depth + 1) * ((allBipolar o.depth).map fun a => fpValue (axisLevel amp a) ^ 2).sum -
      2 ^ o.bits * 2 ^ 2148).natAbs * 10 ^ 9 ≤ 2 ^ o.bits * 2 ^ 2148 := by
  rw [MeanEnergyNearOne, sum_energy]

theorem meanEnergyNearOne_default (o : QamOrder) : MeanEnergyNearOne o (specRow o.bits).2.2.1 := by
  rw [meanEnergyNearOne_iff_axis]
  cases o <;> decide +kernel

/-- Settles O55: the table of R100 by its axes; AMP of a configured state is that of its own table, which `wfConfig`
asks to be normalized. -/
theorem meanEnergyIsOne : Obligations.MeanEnergyIsOne := by
  refine ⟨meanEnergyNearOne_default, ?_⟩
  rintro s st ⟨-, -, -, hnorm⟩ ⟨htable, -⟩ hcfg
  rw [State.tableOk, hcfg, tableRow, Prod.mk.injEq, Prod.mk.injEq, Prod.mk.injEq] at htable
  obtain ⟨-, -, hamp, -⟩ := htable
  rw [hamp]
  exact hnorm st.order

end Sys2Proof.Machine
end

section
/-! SUPPORT. The checks of the data commands and the completed HARD and SOFT (spec/42_slicer.md R120, R122, R126): one
equation per outcome, and what the two commands touch. -/

namespace Sys2Proof.Machine

/-! ### Checks -/

theorem checkData_unconfigured {s : State} (h : s.cfg = none) (base stride : Nat) :
    checkData base stride s = .error .notConfigured := by
  simp only [checkData, h]

theorem checkData_badStride {s : State} {st : Setting} (h : s.cfg = some st) (base : Nat) :
    checkData base 0 s = .error .badStride := by
  simp only [checkData, h, if_true]

theorem checkData_range {s : State} {st : Setting} {base stride : Nat} (h : s.cfg = some st) (hs : stride ≠ 0)
    (hr : s.config.cells ≤ base + (st.order.bits - 1) * stride) : checkData base stride s = .error .range := by
  simp only [checkData, h, if_neg hs, if_pos hr]

/-- A check that fails ends each data command with its fault (R120). -/
theorem exec_of_checkData_error {s : State} {base stride : Nat} {i : Instr} {c : FaultCode}
    (hi : i ∈ [Instr.hard base stride, Instr.soft base stride, Instr.map base stride])
    (h : checkData base stride s = .error c) : exec i s = .next (s.recordFault (encode i) c) := by
  simp only [List.mem_cons, List.not_mem_nil, or_false] at hi
  obtain rfl | rfl | rfl := hi
  · simp only [exec, execHard, hardEffect, h, complete_error]
  · simp only [exec, execSoft, softEffect, h, complete_error]
  · simp only [exec, execMap, mapEffect, h, complete_error]

/-- Settles O22: each check of R120 by its equation, and `codeSlot_lt_cells` once they pass. -/
theorem dataChecksFaultInOrder : Obligations.DataChecksFaultInOrder := by
  refine fun s base stride i hi => ⟨fun h => ?_, fun st h hs => ?_, fun st h hs hr => ?_, fun st c => codeSlot_lt_cells⟩
  · exact exec_of_checkData_error hi (checkData_unconfigured h base stride)
  · subst hs
    exact exec_of_checkData_error hi (checkData_badStride h base)
  · exact exec_of_checkData_error hi (checkData_range h hs hr)

/-! ### HARD and SOFT by outcome -/

/-- `d` draws used so far, all else as in `s` (log 4). -/
def State.withDraws (s : State) (d : Nat) : State := { s with draws := d }

theorem withDraws_self (s : State) : s.withDraws s.draws = s := rfl

/-- The draws used are no part of the code buffer. -/
theorem readByte_withDraws (s : State) (d : Nat) : SameBuffer s (s.withDraws d) := readByte_congr rfl rfl

theorem readCell_withDraws (s : State) (d i : Nat) : (s.withDraws d).readCell i = s.readCell i :=
  readCell_congr rfl rfl i

section
variable {s : State} {st : Setting} {base stride : Nat} (hc : checkData base stride s = .ok st)
include hc

theorem hardEffect_nonFinite (h : (isFinite s.symRe && isFinite s.symIm) = false) :
    hardEffect base stride s = .error .nonFinite := by
  simp only [hardEffect, hc, h, Bool.false_eq_true, if_false]

theorem hardEffect_finite (h : (isFinite s.symRe && isFinite s.symIm) = true) :
    hardEffect base stride s = .ok (s.writeCells (slotWrites base stride 0 (hardWords st s))) := by
  simp only [hardEffect, hc, h, if_true]

theorem softEffect_nonFinite (h : (isFinite s.symRe && isFinite s.symIm && isFinite s.prec) = false) :
    softEffect base stride s = .error .nonFinite := by
  simp only [softEffect, hc, h, Bool.false_eq_true, if_false]

theorem softEffect_finite (h : (isFinite s.symRe && isFinite s.symIm && isFinite s.prec) = true)
    (hover : ¬ (s.config.overflow = .fault ∧ (softQuantized st s).any Quantized.isOverflow = true)) :
    softEffect base stride s = .ok
      ((s.writeCells (slotWrites base stride 0 (softWords st s))).withDraws (s.draws + st.order.bits)) := by
  simp only [softEffect, hc, h, if_true, if_neg hover, State.withDraws]

end

/-- Settles O23: the finiteness check follows those of R120. -/
theorem nonFiniteOperandsFault : Obligations.NonFiniteOperandsFault := by
  intro s st base stride hcfg hslots
  have hc := checkData_eq_ok.2 ⟨hcfg, hslots⟩
  refine ⟨fun h => ?_, fun h => ?_⟩
  · have hfin : (isFinite s.symRe && isFinite s.symIm) = false := by rcases h with h | h <;> simp [h]
    rw [exec, execHard, hardEffect_nonFinite hc hfin, complete_error]
  · have hfin : (isFinite s.symRe && isFinite s.symIm && isFinite s.prec) = false := by
      rcases h with h | h | h <;> simp [h]
    rw [exec, execSoft, softEffect_nonFinite hc hfin, complete_error]

/-! ### The words in the slots -/

/-- Every code index has a level, and no other index has one (R14). -/
theorem exists_codeLevel_iff {st : Setting} {s : State} {c : Nat} :
    (∃ l, codeLevel? st s c = some l) ↔ c < st.order.bits := by
  rw [← foldSymbol_get?, ← Option.isSome_iff_exists, isSome_getElem?, foldSymbol_length]

theorem hardWords_get? {st : Setting} {s : State} {c : Nat} {l : Level} (h : codeLevel? st s c = some l) :
    (hardWords st s)[c]? = some (encodeCode st.fmt (.int (hardCode l))) := by
  rw [hardWords, List.getElem?_map, foldSymbol_get?, h, Option.map_some]

/-- The code at index c takes draw `n + c` if it overflows under ANY (log 4). -/
theorem resolveCodes_get? (rule : OverflowRule) (n : Nat) (qs : List Quantized) (c : Nat) :
    (resolveCodes rule n qs)[c]? = qs[c]?.map (resolveCode rule (n + c)) := by
  induction qs generalizing n c with
  | nil => rfl
  | cons q qs ih =>
    cases c with
    | zero => rfl
    | succ c =>
      rw [resolveCodes, List.getElem?_cons_succ, List.getElem?_cons_succ, ih, Nat.add_right_comm, Nat.add_assoc]

theorem softWords_get? {st : Setting} {s : State} {c : Nat} {l : Level} (h : codeLevel? st s c = some l) :
    (softWords st s)[c]? = some (encodeCode st.fmt (resolveCode s.config.overflow (s.draws + c)
      (quantize s.config.tie st.fmt s.dist s.prec l.dist))) := by
  rw [softWords, List.getElem?_map, resolveCodes_get?, softQuantized, List.getElem?_map, foldSymbol_get?, h]
  rfl

theorem readCell_slotWrites_of_get? (s : State) {base stride c : Nat} {ws : List Word} {w : Word} (hs : stride ≠ 0)
    (h : ws[c]? = some w) : (s.writeCells (slotWrites base stride 0 ws)).readCell (codeSlot base stride c) = w := by
  obtain ⟨hc, rfl⟩ := List.getElem?_eq_some_iff.1 h
  rw [← readCell_slotWrites s hs 0 ws hc, Nat.zero_add]

/-! ### HARD and SOFT complete -/

section
variable {s : State} {st : Setting} {base stride : Nat} (hcfg : s.cfg = some st) (hslots : SlotsFit s st base stride)
  (hre : isFinite s.symRe = true) (him : isFinite s.symIm = true)
include hcfg hslots hre him

theorem exec_hard_finite :
    exec (.hard base stride) s = .next (s.writeCells (slotWrites base stride 0 (hardWords st s))) := by
  have hfin : (isFinite s.symRe && isFinite s.symIm) = true := by rw [hre, him]; rfl
  rw [exec, execHard, hardEffect_finite (checkData_eq_ok.2 ⟨hcfg, hslots⟩) hfin, complete_ok]

theorem exec_soft_finite (hprec : isFinite s.prec = true)
    (hover : ¬ (s.config.overflow = .fault ∧ (softQuantized st s).any Quantized.isOverflow = true)) :
    exec (.soft base stride) s = .next
      ((s.writeCells (slotWrites base stride 0 (softWords st s))).withDraws (s.draws + st.order.bits)) := by
  have hfin : (isFinite s.symRe && isFinite s.symIm && isFinite s.prec) = true := by rw [hre, him, hprec]; rfl
  rw [exec, execSoft, softEffect_finite (checkData_eq_ok.2 ⟨hcfg, hslots⟩) hfin hover, complete_ok]

end

/-- Cell writes and draws change no register and nothing around the unit. -/
theorem writeCells_withDraws_frame (s : State) (ws : List (Nat × Word)) (d : Nat) :
    SameStatus s ((s.writeCells ws).withDraws d) ∧ SameSetting s ((s.writeCells ws).withDraws d) ∧
      SameOperands s ((s.writeCells ws).withDraws d) ∧ ((s.writeCells ws).withDraws d).result = s.result ∧
      ((s.writeCells ws).withDraws d).draws = d ∧ SameAround s ((s.writeCells ws).withDraws d) :=
  ⟨⟨rfl, rfl, rfl, rfl, rfl⟩, ⟨rfl, rfl, rfl, rfl, rfl⟩, ⟨rfl, rfl, rfl⟩, rfl, rfl, ⟨rfl, rfl, rfl, rfl, rfl⟩⟩

/-- A code that overflows is that of a code index. -/
theorem exists_overflow_of_any {st : Setting} {s : State} (h : (softQuantized st s).any Quantized.isOverflow = true) :
    ∃ c l r, codeLevel? st s c = some l ∧ quantize s.config.tie st.fmt s.dist s.prec l.dist = .overflow r := by
  obtain ⟨q, hq, hover⟩ := List.any_eq_true.1 h
  obtain ⟨l, hl, rfl⟩ := List.mem_map.1 hq
  obtain ⟨c, hc⟩ := List.mem_iff_getElem?.1 hl
  rw [foldSymbol_get?] at hc
  cases hr : quantize s.config.tie st.fmt s.dist s.prec l.dist with
  | overflow r => exact ⟨c, l, r, hc, hr⟩
  | real | int => rw [hr] at hover; contradiction

/-- Settles O40: `exec_hard_finite`, the words by `hardWords_get?`. -/
theorem hardDecidesEverySlot : Obligations.HardDecidesEverySlot := by
  intro s st base stride hcfg hslots hre him
  refine ⟨_, exec_hard_finite hcfg hslots hre him, fun c hc => ?_, fun off hoff => ?_, ⟨rfl, rfl, rfl, rfl, rfl⟩,
    ⟨rfl, rfl, rfl, rfl, rfl⟩, ⟨rfl, rfl, rfl⟩, rfl, rfl, ⟨rfl, rfl, rfl, rfl, rfl⟩⟩
  · obtain ⟨l, hl⟩ := exists_codeLevel_iff.2 hc
    exact ⟨l, hl, readCell_slotWrites_of_get? s hslots.1 (hardWords_get? hl)⟩
  · exact readByte_slotWrites_outside s _ (hardWords_length st s).le hoff

/-- Settles O41: `exec_soft_finite`, the words by `softWords_get?`. -/
theorem softQuantizesEverySlot : Obligations.SoftQuantizesEverySlot := by
  intro s st base stride hcfg hslots hre him hprec hfits
  have hover : ¬ (s.config.overflow = .fault ∧ (softQuantized st s).any Quantized.isOverflow = true) := by
    rintro ⟨hrule, hany⟩
    obtain ⟨c, l, r, hl, hr⟩ := exists_overflow_of_any hany
    exact hfits hrule c l r hl hr
  refine ⟨_, exec_soft_finite hcfg hslots hre him hprec hover, fun c hc => ?_, fun off hoff => ?_,
    writeCells_withDraws_frame s _ _⟩
  · obtain ⟨l, hl⟩ := exists_codeLevel_iff.2 hc
    refine ⟨l, hl, ?_⟩
    rw [readCell_withDraws, readCell_slotWrites_of_get? s hslots.1 (softWords_get? hl)]
  · rw [readByte_withDraws, readByte_slotWrites_outside s _ (softWords_length st s).le hoff]

/-! ### What the slicer touches -/

/-- What HARD and SOFT leave: the record of one fault, or one word in each slot and the draws they used. -/
inductive SlicerResult (i : Instr) (base stride : Nat) (s : State) : State → Prop where
  | faulted (c : FaultCode) : SlicerResult i base stride s (s.recordFault (encode i) c)
  | written (st : Setting) (ws : List Word) (d : Nat) (hcfg : s.cfg = some st) (hlen : ws.length = st.order.bits) :
      SlicerResult i base stride s ((s.writeCells (slotWrites base stride 0 ws)).withDraws d)

theorem exec_hard_cases {s t : State} {base stride : Nat} (h : exec (.hard base stride) s = .next t) :
    SlicerResult (.hard base stride) base stride s t := by
  cases hc : checkData base stride s with
  | error c =>
    rw [exec_of_checkData_error (by simp) hc, Host.Outcome.next.injEq] at h
    exact h ▸ .faulted c
  | ok st =>
    rw [exec, execHard] at h
    cases hfin : isFinite s.symRe && isFinite s.symIm with
    | false =>
      rw [hardEffect_nonFinite hc hfin, complete_error, Host.Outcome.next.injEq] at h
      exact h ▸ .faulted .nonFinite
    | true =>
      rw [hardEffect_finite hc hfin, complete_ok, Host.Outcome.next.injEq,
        ← withDraws_self (s.writeCells _), State.writeCells_draws] at h
      exact h ▸ .written st _ s.draws (checkData_eq_ok.1 hc).1 (hardWords_length st s)

theorem exec_soft_cases {s t : State} {base stride : Nat} (h : exec (.soft base stride) s = .next t) :
    SlicerResult (.soft base stride) base stride s t := by
  cases hc : checkData base stride s with
  | error c =>
    rw [exec_of_checkData_error (by simp) hc, Host.Outcome.next.injEq] at h
    exact h ▸ .faulted c
  | ok st =>
    rw [exec, execSoft] at h
    cases hfin : isFinite s.symRe && isFinite s.symIm && isFinite s.prec with
    | false =>
      rw [softEffect_nonFinite hc hfin, complete_error, Host.Outcome.next.injEq] at h
      exact h ▸ .faulted .nonFinite
    | true =>
      by_cases hover : s.config.overflow = .fault ∧ (softQuantized st s).any Quantized.isOverflow = true
      · rw [softEffect_overflow hc hfin hover.1 hover.2, complete_error, Host.Outcome.next.injEq] at h
        exact h ▸ .faulted .intOverflow
      · rw [softEffect_finite hc hfin hover, complete_ok, Host.Outcome.next.injEq] at h
        exact h ▸ .written st _ _ (checkData_eq_ok.1 hc).1 (softWords_length st s)

/-- Settles O42: a fault is only recorded, and the writes of `SlicerResult` go to the slots. -/
theorem slicerTouchesOnlyItsSlots : Obligations.SlicerTouchesOnlyItsSlots := by
  intro s t base stride i hi h
  have hcases : SlicerResult i base stride s t := by
    simp only [List.mem_cons, List.not_mem_nil, or_false] at hi
    obtain rfl | rfl := hi
    · exact exec_hard_cases h
    · exact exec_soft_cases h
  cases hcases with
  | faulted c =>
    obtain ⟨hsetting, hoperands, hresult, hbuffer, haround⟩ := recordFault_sameButStatus s (encode i) c
    exact ⟨hoperands, hresult, hsetting, haround, s.recordFault_buserr _ c, fun _ => hbuffer,
      fun _ _ off _ => hbuffer off⟩
  | written st ws d hcfg hlen =>
    obtain ⟨⟨-, -, hbuserr, -⟩, hsetting, hoperands, hresult, -, haround⟩ := writeCells_withDraws_frame s
      (slotWrites base stride 0 ws) d
    refine ⟨hoperands, hresult, hsetting, haround, hbuserr, fun hnone => ?_, fun st' hcfg' off hoff => ?_⟩
    · cases hnone.symm.trans hcfg
    · obtain rfl := Option.some_inj.1 (hcfg'.symm.trans hcfg)
      rw [readByte_withDraws, readByte_slotWrites_outside s ws hlen.le hoff]

end Sys2Proof.Machine
end

section
/-! SUPPORT. The fold of one axis (spec/42_slicer.md R121 to R124): its recurrence, and the sign of a difference that
makes a hard decision the sign of its distance. -/

namespace Sys2Proof.Machine

/-! ### The recurrence -/

/-- The step size of level j + 1 at depth k is 2^(k-(j+1)) (R103). -/
theorem stepSizes_get? {k j : Nat} (h : j + 1 < k) : (stepSizes k)[j]? = some (2 ^ (k - (j + 1))) := by
  induction k using stepSizes.induct generalizing j with
  | case1 => omega
  | case2 => omega
  | case3 k ih =>
    rw [stepSizes]
    cases j with
    | zero => rfl
    | succ j => rw [List.getElem?_cons_succ, ih (by omega), ← Nat.succ_sub_succ (k + 1)]

theorem thresholds_get? (amp : Word) {k j : Nat} (h : j + 1 < k) :
    (thresholds amp k)[j]? = some (fmul amp (f64 (2 ^ (k - (j + 1))))) := by
  rw [thresholds, List.getElem?_map, stepSizes_get? h, Option.map_some, threshold, Nat.cast_pow, Nat.cast_ofNat]

/-- Each level folds the distance of the level before it at its own threshold (R121). -/
theorem foldLevels_get?_succ (l : Level) (as : List Word) {j : Nat} {l₀ : Level} {a : Word}
    (hl : (l :: foldLevels (fabs l.dist) as)[j]? = some l₀) (ha : as[j]? = some a) :
    (l :: foldLevels (fabs l.dist) as)[j + 1]? =
      some { lt := flt (fabs l₀.dist) a, dist := fsub (fabs l₀.dist) a } := by
  induction as generalizing l j with
  | nil => simp at ha
  | cons b as ih =>
    rw [foldLevels] at hl ⊢
    cases j with
    | zero =>
      obtain rfl : l = l₀ := by simpa using hl
      obtain rfl : b = a := by simpa using ha
      rfl
    | succ j => exact ih { lt := flt (fabs l.dist) b, dist := fsub (fabs l.dist) b } hl ha

theorem fold_get?_zero (amp x : Word) (k : Nat) : (fold amp k x)[0]? = some { lt := flt x 0, dist := x } := rfl

/-- Settles O39: `foldLevels_get?_succ` at the thresholds of `thresholds_get?`. -/
theorem foldFollowsItsRecurrence : Obligations.FoldFollowsItsRecurrence := fun amp x k hk =>
  ⟨fold_length amp hk x, fold_get?_zero amp x k, fun _ _ hl hj =>
    foldLevels_get?_succ { lt := flt x (fpZero false), dist := x } (thresholds amp k) hl (thresholds_get? amp hj)⟩

/-- Every level after the first compares a residual and a threshold and takes their difference; the residual has every
property that the first one has and folding keeps. -/
theorem exists_residual_of_mem_foldLevels {P : Word → Prop} {r : Word} {as : List Word} {l : Level} (hr : P r)
    (hfold : ∀ r, P r → ∀ a ∈ as, P (fabs (fsub r a))) (hl : l ∈ foldLevels r as) :
    ∃ r', P r' ∧ ∃ a ∈ as, l.lt = flt r' a ∧ l.dist = fsub r' a := by
  induction as generalizing r with
  | nil => simp [foldLevels] at hl
  | cons a as ih =>
    rw [foldLevels] at hl
    rcases List.mem_cons.1 hl with rfl | hl
    · exact ⟨r, hr, a, List.mem_cons_self, rfl, rfl⟩
    · obtain ⟨r', hr', b, hb, hlevel⟩ := ih (hfold r hr a List.mem_cons_self)
        (fun r hr b hb => hfold r hr b (List.mem_cons_of_mem a hb)) hl
      exact ⟨r', hr', b, List.mem_cons_of_mem a hb, hlevel⟩

/-! ### The sign of a difference -/

@[simp] theorem isNaN_fabs (a : Word) : isNaN (fabs a) = isNaN a := by
  rw [Bool.eq_iff_iff, isNaN_iff, isNaN_iff, fpMag_fabs]

theorem fpValue_eq_zero_iff {w : Word} : fpValue w = 0 ↔ fpMag w = 0 := by
  rw [← Int.natAbs_eq_zero, fpValue_eq, natAbs_signed, Int.natAbs_natCast, magUnits_eq_zero_iff]

/-- The least magnitude is one unit, so rounding to nearest keeps the sign of a whole number of units and gives a zero
for 0 alone (R124). -/
theorem RoundsTo.sign_iff {num : Int} {r : Word} (h : RoundsTo num 1 r) (hr : isFinite r = true) :
    (fpValue r < 0 ↔ num < 0) ∧ (fpValue r = 0 ↔ num = 0) := by
  obtain ⟨-, -, hnear⟩ := h
  have hzero := (hnear hr 0 (by decide)).1
  have hunit := (hnear hr 1 (by decide)).1
  have hminus := (hnear hr 0x8000000000000001 (by decide)).1
  rw [show fpValue 0 = 0 by decide +kernel] at hzero
  rw [show fpValue 1 = 1 by decide +kernel] at hunit
  rw [show fpValue 0x8000000000000001 = -1 by decide +kernel] at hminus
  omega

theorem flt_zero_iff {w : Word} (h : isFinite w = true) : flt w 0 = true ↔ fpValue w < 0 := by
  rw [flt_finite_iff h (by decide), show fpValue 0 = 0 by decide +kernel]

/-- An infinity lies on its own side of every finite value. -/
theorem flt_fpInf_of_isFinite (neg : Bool) {b : Word} (hb : isFinite b = true) : flt (fpInf neg) b = neg := by
  cases neg with
  | false => exact posInf_flt b
  | true =>
    have hne : b ≠ fpInf true := by rintro rfl; rw [isFinite_fpInf] at hb; contradiction
    rw [negInf_flt, isNaN_of_isFinite hb, bne_iff_ne.2 hne]
    rfl

theorem fsub_fpInf (neg : Bool) {b : Word} (hb : isFinite b = true) : fsub (fpInf neg) b = fpInf neg := by
  have hinf : isInf (fpInf neg) = true := isInf_iff.2 (fpMag_fpInf neg)
  simp [fsub, hinf, isNaN_of_isFinite hb, isInf_of_isFinite hb]

/-- A difference from a finite value is below zero exactly when the comparison holds (R124). -/
theorem flt_fsub_zero {a b : Word} (ha : isNaN a = false) (hb : isFinite b = true) :
    isNaN (fsub a b) = false ∧ flt (fsub a b) 0 = flt a b := by
  cases hfin : isFinite a with
  | false =>
    rw [eq_fpInf_of_not_isFinite ha hfin, fsub_fpInf _ hb, flt_fpInf_of_isFinite _ hb,
      flt_fpInf_of_isFinite _ (by decide)]
    exact ⟨isNaN_fpInf _, rfl⟩
  | true =>
    have hround := differenceIsNearest a b hfin hb
    cases hsub : isFinite (fsub a b) with
    | false =>
      obtain ⟨-, hinf, -⟩ := hround
      rw [hinf hsub, flt_fpInf_of_isFinite _ (by decide)]
      refine ⟨isNaN_fpInf _, Bool.eq_iff_iff.2 ?_⟩
      rw [flt_finite_iff hfin hb, decide_eq_true_iff, sub_neg]
    | true =>
      refine ⟨isNaN_of_isFinite hsub, Bool.eq_iff_iff.2 ?_⟩
      rw [flt_zero_iff hsub, (hround.sign_iff hsub).1, flt_finite_iff hfin hb, sub_neg]

/-- Settles O44: at level 0 the distance is the value itself, later `flt_fsub_zero` has it, as no residual is a NaN. -/
theorem hardDecisionIsSignOfDistance : Obligations.HardDecisionIsSignOfDistance := by
  intro amp x k hx hthresholds l hl
  rcases List.mem_cons.1 hl with rfl | hl
  · rfl
  · have hfirst : isNaN (fabs x) = false := by rw [isNaN_fabs, isNaN_of_isFinite hx]
    have hfold (r : Word) (hr : isNaN r = false) (a : Word) (ha : a ∈ thresholds amp k) :
        isNaN (fabs (fsub r a)) = false := by
      rw [isNaN_fabs]
      exact (flt_fsub_zero hr (hthresholds a ha)).1
    obtain ⟨r, hr, a, ha, hlt, hdist⟩ :=
      exists_residual_of_mem_foldLevels (P := fun r => isNaN r = false) hfirst hfold hl
    rw [hlt, hdist]
    exact (flt_fsub_zero hr (hthresholds a ha)).2.symm

/-! ### Boundaries -/

theorem flt_zero_of_fpMag {x : Word} (h : fpMag x = 0) : flt x 0 = false := by
  have hfin : isFinite x = true := isFinite_iff.2 (h ▸ infMag_pos)
  rw [Bool.eq_false_iff, ne_eq, flt_zero_iff hfin, fpValue_eq_zero_iff.2 h]
  decide

/-- A difference is a zero only of finite values. -/
theorem isFinite_of_fsub_zero {a b : Word} (h : fpMag (fsub a b) = 0) : isFinite a = true ∧ isFinite b = true := by
  have hfinite {w : Word} (hnan : ¬ isNaN w = true) (hinf : ¬ isInf w = true) : isFinite w = true := by
    rw [isNaN_iff] at hnan
    rw [isInf_iff] at hinf
    exact isFinite_iff.2 (by omega)
  have hquiet (free : Word) : fpMag (quietNaN free) ≠ 0 :=
    (infMag_pos.trans (isNaN_iff.1 (isNaN_quietNaN free))).ne'
  unfold fsub at h
  split_ifs at h with hnan hinfa hsame hinfb
  · exact absurd h (hquiet _)
  · exact absurd h (hquiet _)
  · exact absurd (h.symm.trans (isInf_iff.1 hinfa)) infMag_pos.ne
  · exact absurd (h.symm.trans ((fpMag_fneg b).trans (isInf_iff.1 hinfb))) infMag_pos.ne
  · rw [Bool.or_eq_true, not_or] at hnan
    exact ⟨hfinite hnan.1 hinfa, hfinite hnan.2 hinfb⟩

/-- Operands whose difference is a zero do not compare below (R123). -/
theorem flt_of_fsub_zero {a b : Word} (h : fpMag (fsub a b) = 0) : flt a b = false := by
  obtain ⟨ha, hb⟩ := isFinite_of_fsub_zero h
  rw [← (flt_fsub_zero (isNaN_of_isFinite ha) hb).2]
  exact flt_zero_of_fpMag h

/-- A level whose distance is a zero does not compare below: at level 0 the value is that zero, later the residual
equals its threshold (R123). -/
theorem lt_eq_false_of_zero_dist {amp x : Word} {k : Nat} {l : Level} (hl : l ∈ fold amp k x) (h : fpMag l.dist = 0) :
    l.lt = false := by
  rcases List.mem_cons.1 hl with rfl | hl
  · exact flt_zero_of_fpMag h
  · obtain ⟨r, -, a, -, hlt, hdist⟩ :=
      exists_residual_of_mem_foldLevels (P := fun _ => True) trivial (fun _ _ _ _ => trivial) hl
    rw [hlt]
    exact flt_of_fsub_zero (hdist ▸ h)

/-- Settles O43: `lt_eq_false_of_zero_dist` gives the decision that HARD writes in the slot. -/
theorem boundariesDecodeToPlusOne : Obligations.BoundariesDecodeToPlusOne := by
  intro s t st base stride c l hcfg hslots hre him ht hl hzero
  have hlt : l.lt = false := lt_eq_false_of_zero_dist (List.mem_of_getElem? hl) hzero
  obtain rfl := Host.Outcome.next.inj ((exec_hard_finite hcfg hslots hre him).symm.trans ht)
  rw [readCell_slotWrites_of_get? s hslots.1 (hardWords_get? hl), hardCode, hlt]
  rfl

end Sys2Proof.Machine
end

section
/-! SUPPORT. The noiseless round trip (spec/42_slicer.md R125): MAP reads the code word from its slots, the fold of each
axis level decides the codes of that axis, and HARD puts them together again. -/

namespace Sys2Proof.Machine

/-! ### Bipolar code words -/

theorem mem_allBipolar_succ {n : Nat} {a : List Int} :
    a ∈ allBipolar (n + 1) ↔ ∃ z b, (z = -1 ∨ z = 1) ∧ b ∈ allBipolar n ∧ a = z :: b := by
  simp only [allBipolar, List.mem_append, List.mem_map]
  constructor
  · rintro (⟨b, hb, rfl⟩ | ⟨b, hb, rfl⟩)
    · exact ⟨-1, b, .inl rfl, hb, rfl⟩
    · exact ⟨1, b, .inr rfl, hb, rfl⟩
  · rintro ⟨z, b, rfl | rfl, hb, rfl⟩
    · exact .inl ⟨b, hb, rfl⟩
    · exact .inr ⟨b, hb, rfl⟩

theorem length_of_mem_allBipolar {n : Nat} {a : List Int} (h : a ∈ allBipolar n) : a.length = n := by
  induction n generalizing a with
  | zero => rw [List.mem_singleton.1 h, List.length_nil]
  | succ n ih =>
    obtain ⟨z, b, -, hb, rfl⟩ := mem_allBipolar_succ.1 h
    rw [List.length_cons, ih hb]

/-- The codes of each axis of a bipolar code word are a bipolar pattern (R14). -/
theorem axes_mem_allBipolar {k : Nat} {b : List Int} (h : b ∈ allBipolar (2 * k)) :
    realCodes b ∈ allBipolar k ∧ imagCodes b ∈ allBipolar k := by
  induction k generalizing b with
  | zero =>
    rw [List.mem_singleton.1 h]
    exact ⟨List.mem_singleton_self _, List.mem_singleton_self _⟩
  | succ k ih =>
    obtain ⟨x, c, hx, hc, rfl⟩ := mem_allBipolar_succ.1 h
    obtain ⟨y, d, hy, hd, rfl⟩ := mem_allBipolar_succ.1 hc
    obtain ⟨hre, him⟩ := ih hd
    exact ⟨mem_allBipolar_succ.2 ⟨x, _, hx, hre, rfl⟩, mem_allBipolar_succ.2 ⟨y, _, hy, him, rfl⟩⟩

theorem bipolar?_eq_some {v : CodeValue} {z : Int} (h : v.bipolar? = some z) : z = -1 ∨ z = 1 := by
  cases v with
  | real | int =>
    rw [CodeValue.bipolar?] at h
    split_ifs at h
    · exact .inr (Option.some_inj.1 h).symm
    · exact .inl (Option.some_inj.1 h).symm

/-- The codes that cells hold, if they are bipolar, are a bipolar code word (R140). -/
theorem bipolarCodes?_mem {fmt : CodeFormat} {ws : List Word} {b : List Int} (h : bipolarCodes? fmt ws = some b) :
    b ∈ allBipolar ws.length := by
  induction ws generalizing b with
  | nil => exact List.mem_singleton.2 (Option.some_inj.1 h).symm
  | cons w ws ih =>
    rw [bipolarCodes?] at h
    split at h
    next z bs hz hbs =>
      obtain rfl := Option.some_inj.1 h
      exact mem_allBipolar_succ.2 ⟨z, bs, bipolar?_eq_some hz, ih hbs, rfl⟩
    next => contradiction

/-- The words of a bipolar code word read back as its codes (R36, R37). -/
theorem bipolarCodes?_encodeCode (fmt : CodeFormat) {n : Nat} {b : List Int} (h : b ∈ allBipolar n) :
    bipolarCodes? fmt (b.map fun z => encodeCode fmt (.int z)) = some b := by
  induction n generalizing b with
  | zero => rw [List.mem_singleton.1 h]; rfl
  | succ n ih =>
    obtain ⟨z, c, hz, hc, rfl⟩ := mem_allBipolar_succ.1 h
    obtain ⟨hread, -⟩ := bipolarCodesReadBack
    rw [List.map_cons, bipolarCodes?, hread fmt z hz.symm, ih hc]

/-! ### Slots -/

@[simp] theorem readSlots_length (s : State) (base stride n : Nat) : (readSlots s base stride n).length = n := by
  simp [readSlots]

theorem readSlots_slotWrites (s : State) {base stride : Nat} (hs : stride ≠ 0) (ws : List Word) :
    readSlots (s.writeCells (slotWrites base stride 0 ws)) base stride ws.length = ws := by
  refine List.ext_getElem (readSlots_length _ _ _ _) fun c _ hc => ?_
  simp only [readSlots, List.getElem_map, List.getElem_range]
  exact readCell_slotWrites_of_get? s hs (List.getElem?_eq_getElem hc)

/-- MAP on slots that hold a bipolar code word writes its two axis levels (R142). -/
theorem exec_map_bipolar {s : State} {st : Setting} {base stride : Nat} {b : List Int} (hcfg : s.cfg = some st)
    (hslots : SlotsFit s st base stride) (hb : bipolarCodes? st.fmt (readSlots s base stride st.order.bits) = some b) :
    exec (.map base stride) s =
      .next (s.setSymbol (axisLevel s.amp (realCodes b)) (axisLevel s.amp (imagCodes b))) := by
  simp only [exec, execMap, mapEffect, checkData_eq_ok.2 ⟨hcfg, hslots⟩, hb, complete_ok]

/-! ### The fold of an axis level -/

/-- Each level of each supported constellation lies inside the decision region of its own codes, which R125 checks by
evaluation: the fold decides the codes that the level was composed of. -/
theorem fold_axisLevel (o : QamOrder) : ∀ a ∈ allBipolar o.depth,
    isFinite (axisLevel (specRow o.bits).2.2.1 a) = true ∧
      (fold (specRow o.bits).2.2.1 o.depth (axisLevel (specRow o.bits).2.2.1 a)).map hardCode = a := by
  cases o <;> decide +kernel

theorem map_interleave {α β : Type} (f : α → β) (xs ys : List α) :
    (interleave xs ys).map f = interleave (xs.map f) (ys.map f) := by
  induction xs generalizing ys with
  | nil => rfl
  | cons x xs ih =>
    cases ys with
    | nil => rfl
    | cons y ys => rw [interleave, List.map_cons, List.map_cons, ih]; rfl

/-- On the symbol of a code word HARD writes the words of its codes (R125). -/
theorem hardWords_of_axisLevels {st : Setting} {s : State} {b : List Int} (hamp : s.amp = (specRow st.order.bits).2.2.1)
    (hb : b ∈ allBipolar st.order.bits) (hre : s.symRe = axisLevel s.amp (realCodes b))
    (him : s.symIm = axisLevel s.amp (imagCodes b)) :
    hardWords st s = b.map fun z => encodeCode st.fmt (.int z) := by
  rw [bits_eq_two_mul_depth] at hb
  obtain ⟨hreal, himag⟩ := axes_mem_allBipolar hb
  have hcodes : (foldSymbol s.amp st.order.depth s.symRe s.symIm).map hardCode = b := by
    rw [foldSymbol, map_interleave, hre, him, hamp, (fold_axisLevel st.order _ hreal).2,
      (fold_axisLevel st.order _ himag).2, interleave_realCodes_imagCodes _ b (length_of_mem_allBipolar hb)]
  conv_rhs => rw [← hcodes]
  rw [hardWords, List.map_map]
  rfl

/-- Settles O45: MAP leaves the axis levels of the code word, and HARD decides its codes on them. -/
theorem noiselessRoundTrip : Obligations.NoiselessRoundTrip := by
  intro s st base stride base' stride' b hcfg hamp hslots hslots' hb
  have hmem := bipolarCodes?_mem hb
  rw [readSlots_length] at hmem
  obtain ⟨hreal, himag⟩ := axes_mem_allBipolar (bits_eq_two_mul_depth st.order ▸ hmem)
  have hre : isFinite (axisLevel s.amp (realCodes b)) = true := hamp ▸ (fold_axisLevel st.order _ hreal).1
  have him : isFinite (axisLevel s.amp (imagCodes b)) = true := hamp ▸ (fold_axisLevel st.order _ himag).1
  refine ⟨_, _, exec_map_bipolar hcfg hslots hb, exec_hard_finite hcfg hslots' hre him, ?_⟩
  generalize ht : s.setSymbol (axisLevel s.amp (realCodes b)) (axisLevel s.amp (imagCodes b)) = t
  have hwords : hardWords st t = b.map fun z => encodeCode st.fmt (.int z) := by
    subst ht
    exact hardWords_of_axisLevels hamp hmem rfl rfl
  have hread := readSlots_slotWrites t (base := base') hslots'.1 (hardWords st t)
  rw [hardWords_length] at hread
  rw [hread, hwords, bipolarCodes?_encodeCode st.fmt hmem]

end Sys2Proof.Machine
end

section
/-! SUPPORT. MAP by outcome (spec/43_mapper.md R140, R142): which words hold a bipolar code, and what MAP does with
slots that all hold one, or that do not. -/

namespace Sys2Proof.Machine

/-! ### Bipolar words -/

/-- The code of a bipolar word, read from one bit of it (R140): -1 has the sign bit of a binary64, and every bit of an
integer above the lowest, set. -/
def bipolarCode (fmt : CodeFormat) (w : Word) : Int :=
  if w.getLsbD (if fmt = .f64 then 63 else 1) then -1 else 1

/-- Bit 1 of a word is bit 1 of its low `n` bits. -/
theorem getLsbD_one_of_low {n : Nat} (hn : 1 < n) {w : Word} {x : BitVec n} (h : w.extractLsb' 0 n = x) :
    w.getLsbD 1 = x.getLsbD 1 := by
  rw [← h, BitVec.getLsbD_extractLsb', decide_eq_true hn, Bool.true_and, Nat.zero_add]

/-- A bipolar word decodes to its code (R37, R140). -/
theorem bipolar?_decodeCode {fmt : CodeFormat} {w : Word} (h : BipolarWord fmt w) :
    (decodeCode fmt w).bipolar? = some (bipolarCode fmt w) := by
  cases fmt with
  | f64 => rcases h with rfl | rfl <;> decide
  | i8sat | i32 =>
    simp only [bipolarCode, reduceCtorEq, if_false]
    rcases h with h | h
    all_goals
      rw [decodeCode, h, getLsbD_one_of_low (by decide) h]
      decide

/-- Only a bipolar word decodes to a bipolar code (R37, R140). -/
theorem bipolarWord_of_bipolar? {fmt : CodeFormat} {w : Word} {z : Int} (h : (decodeCode fmt w).bipolar? = some z) :
    BipolarWord fmt w := by
  cases fmt with
  | f64 =>
    rw [decodeCode, CodeValue.bipolar?] at h
    split_ifs at h with hpos hneg
    · exact .inl hpos
    · exact .inr hneg
  | i8sat | i32 =>
    rw [decodeCode, CodeValue.bipolar?] at h
    split_ifs at h with hpos hneg
    · exact .inl (BitVec.eq_of_toInt_eq (hpos.trans (by decide)))
    · exact .inr (BitVec.eq_of_toInt_eq (hneg.trans (by decide)))

/-- Codes are read from words that are all bipolar, each from its own word (R140). -/
theorem bipolarCodes?_eq_map {fmt : CodeFormat} {ws : List Word} (h : ∀ w ∈ ws, BipolarWord fmt w) :
    bipolarCodes? fmt ws = some (ws.map (bipolarCode fmt)) := by
  induction ws with
  | nil => rfl
  | cons w ws ih =>
    obtain ⟨hw, hws⟩ := List.forall_mem_cons.1 h
    rw [bipolarCodes?, bipolar?_decodeCode hw, ih hws, List.map_cons]

/-- Codes are read from words that are all bipolar only (R140). -/
theorem bipolarWord_of_bipolarCodes? {fmt : CodeFormat} {ws : List Word} {b : List Int}
    (h : bipolarCodes? fmt ws = some b) : ∀ w ∈ ws, BipolarWord fmt w := by
  induction ws generalizing b with
  | nil => exact List.forall_mem_nil _
  | cons w ws ih =>
    rw [bipolarCodes?] at h
    split at h
    next z bs hz hbs => exact List.forall_mem_cons.2 ⟨bipolarWord_of_bipolar? hz, ih hbs⟩
    next => contradiction

/-! ### MAP by outcome -/

/-- MAP on slots that do not all hold a bipolar code raises NON_BIPOLAR (R142). -/
theorem exec_map_nonBipolar {s : State} {st : Setting} {base stride : Nat} (hcfg : s.cfg = some st)
    (hslots : SlotsFit s st base stride) (hb : bipolarCodes? st.fmt (readSlots s base stride st.order.bits) = none) :
    exec (.map base stride) s = .next (s.recordFault (encode (.map base stride)) .nonBipolar) := by
  simp only [exec, execMap, mapEffect, checkData_eq_ok.2 ⟨hcfg, hslots⟩, hb, complete_error]

theorem readCell_mem_readSlots (s : State) (base stride : Nat) {c n : Nat} (h : c < n) :
    s.readCell (codeSlot base stride c) ∈ readSlots s base stride n :=
  List.mem_map_of_mem (List.mem_range.2 h)

/-- Settles O24: a slot that holds no bipolar word leaves `bipolarCodes?` with no codes. -/
theorem nonBipolarCodeFaults : Obligations.NonBipolarCodeFaults := by
  rintro s st base stride hcfg hslots ⟨c, hc, hword⟩
  refine exec_map_nonBipolar hcfg hslots (Option.eq_none_iff_forall_ne_some.2 fun b hb => hword ?_)
  exact bipolarWord_of_bipolarCodes? hb _ (readCell_mem_readSlots s base stride hc)

/-- Settles O52: the codes that `bipolarCodes?` reads from the slots are those of the bit tests. -/
theorem mapReconstructsSymbol : Obligations.MapReconstructsSymbol := by
  rintro s st base stride b hcfg hslots hwords rfl
  have hb : bipolarCodes? st.fmt (readSlots s base stride st.order.bits) =
      some ((readSlots s base stride st.order.bits).map (bipolarCode st.fmt)) :=
    bipolarCodes?_eq_map (List.forall_mem_map.2 fun c hc => hwords c (List.mem_range.1 hc))
  rw [exec_map_bipolar hcfg hslots hb, readSlots, List.map_map]
  rfl

end Sys2Proof.Machine
end

section
/-! SUPPORT. The constellation of one axis (spec/43_mapper.md R141, R143, R145): every level is the composition of one
bipolar pattern, and the patterns of neighbouring levels differ in one code. -/

namespace Sys2Proof.Machine

/-! ### Composition -/

/-- Settles O53: each listing is the recursion of `composeAxis` at its depth. -/
theorem composeAxisIsTheListings : Obligations.ComposeAxisIsTheListings :=
  fun _ _ _ _ _ => ⟨rfl, rfl, rfl, rfl⟩

/-- One more level: the first code is the sign of what the others compose, moved up by the half range (R141). -/
theorem composeAxis_cons (z : Int) (a : List Int) : composeAxis (z :: a) = z * (composeAxis a + 2 ^ a.length) := by
  cases a with
  | nil => exact (mul_one z).symm
  | cons => rfl

/-- The levels of depth `k`: the odd integers of magnitude below 2^k (R145), and 0 alone where `k` is 0. -/
def IsLevel (k : Nat) (m : Int) : Prop := (m + 2 ^ k) % 2 = 1 ∧ m.natAbs < 2 ^ k

theorem isLevel_zero {m : Int} : IsLevel 0 m ↔ m = 0 := by
  rw [IsLevel]
  omega

theorem isLevel_succ {k : Nat} {m : Int} : IsLevel (k + 1) m ↔ m % 2 = 1 ∧ m.natAbs < 2 ^ (k + 1) := by
  rw [IsLevel, pow_succ, Int.add_mul_emod_self_right]

/-- A level of depth `k`, moved up by 2^k, is a positive level of depth `k + 1`. -/
theorem isLevel_iff_upper {k : Nat} {m : Int} : IsLevel k m ↔ IsLevel (k + 1) (m + 2 ^ k) ∧ 0 < m + 2 ^ k := by
  rw [isLevel_succ, IsLevel, pow_succ]
  have hcast : ((2 ^ k : Nat) : Int) = 2 ^ k := Nat.cast_pow 2 k
  omega

theorem isLevel_neg {k : Nat} {m : Int} : IsLevel k (-m) ↔ IsLevel k m := by
  rw [IsLevel, IsLevel, Int.natAbs_neg]
  omega

theorem composeAxis_isLevel {k : Nat} {a : List Int} (h : a ∈ allBipolar k) : IsLevel k (composeAxis a) := by
  induction k generalizing a with
  | zero => rw [List.mem_singleton.1 h]; exact isLevel_zero.2 rfl
  | succ k ih =>
    obtain ⟨z, b, hz, hb, rfl⟩ := mem_allBipolar_succ.1 h
    obtain ⟨hupper, -⟩ := isLevel_iff_upper.1 (ih hb)
    rw [composeAxis_cons, length_of_mem_allBipolar hb]
    rcases hz with rfl | rfl
    · rwa [neg_one_mul, isLevel_neg]
    · rwa [one_mul]

theorem composeAxis_add_pos {k : Nat} {a : List Int} (h : a ∈ allBipolar k) : 0 < composeAxis a + 2 ^ k :=
  (isLevel_iff_upper.1 (composeAxis_isLevel h)).2

/-- Every level is composed of a pattern: its sign is the first code, and its magnitude, moved down by the half
range, is composed of the others. -/
theorem exists_composeAxis_eq {k : Nat} {m : Int} (h : IsLevel k m) : ∃ a ∈ allBipolar k, composeAxis a = m := by
  induction k generalizing m with
  | zero => exact ⟨[], List.mem_singleton_self _, (isLevel_zero.1 h).symm⟩
  | succ k ih =>
    obtain ⟨hodd, hlt⟩ := isLevel_succ.1 h
    have hrest : IsLevel k (m.natAbs - 2 ^ k) := by
      rw [isLevel_iff_upper, sub_add_cancel, isLevel_succ, Int.natAbs_natCast]
      omega
    obtain ⟨b, hb, hcomp⟩ := ih hrest
    refine ⟨m.sign :: b, mem_allBipolar_succ.2 ⟨_, b, ?_, hb, rfl⟩, ?_⟩
    · rcases lt_trichotomy m 0 with hneg | rfl | hpos
      · exact .inl (Int.sign_eq_neg_one_of_neg hneg)
      · exact absurd hodd (by decide)
      · exact .inr (Int.sign_eq_one_of_pos hpos)
    · rw [composeAxis_cons, hcomp, length_of_mem_allBipolar hb, sub_add_cancel, Int.sign_mul_natAbs]

/-! ### Gray coding -/

theorem differOnce_symm {a b : List Int} (h : DifferOnce a b) : DifferOnce b a := by
  obtain ⟨j, hj, hother⟩ := h
  exact ⟨j, hj.symm, fun i hi => (hother i hi).symm⟩

theorem differOnce_cons (z : Int) {a b : List Int} (h : DifferOnce a b) : DifferOnce (z :: a) (z :: b) := by
  obtain ⟨j, hj, hother⟩ := h
  refine ⟨j + 1, by simpa using hj, fun i hi => ?_⟩
  cases i with
  | zero => rfl
  | succ i => simpa using hother i (by omega)

theorem differOnce_head {y z : Int} (h : y ≠ z) (a : List Int) : DifferOnce (y :: a) (z :: a) := by
  refine ⟨0, by simpa using h, fun i hi => ?_⟩
  cases i with
  | zero => exact absurd rfl hi
  | succ i => rfl

/-- No two patterns of a depth compose to one level: its sign is the first code, its magnitude fixes the others. -/
theorem composeAxis_injective {k : Nat} {a b : List Int} (ha : a ∈ allBipolar k) (hb : b ∈ allBipolar k)
    (h : composeAxis a = composeAxis b) : a = b := by
  induction k generalizing a b with
  | zero => rw [List.mem_singleton.1 ha, List.mem_singleton.1 hb]
  | succ k ih =>
    obtain ⟨y, c, hy, hc, rfl⟩ := mem_allBipolar_succ.1 ha
    obtain ⟨z, d, hz, hd, rfl⟩ := mem_allBipolar_succ.1 hb
    have hcpos := composeAxis_add_pos hc
    have hdpos := composeAxis_add_pos hd
    rw [composeAxis_cons, composeAxis_cons, length_of_mem_allBipolar hc, length_of_mem_allBipolar hd] at h
    have hhead : y = z := by rcases hy with rfl | rfl <;> rcases hz with rfl | rfl <;> omega
    have hrest : composeAxis c = composeAxis d := by subst hhead; rcases hy with rfl | rfl <;> omega
    rw [hhead, ih hc hd hrest]

/-- The patterns of consecutive levels differ in one code: across 0 in the first, where the others compose to the
lowest level on both sides, and elsewhere among the others, which a negative first code takes in falling order. -/
theorem differOnce_of_consecutive {k : Nat} {a b : List Int} (ha : a ∈ allBipolar k) (hb : b ∈ allBipolar k)
    (h : composeAxis b = composeAxis a + 2) : DifferOnce a b := by
  induction k generalizing a b with
  | zero =>
    rw [List.mem_singleton.1 ha, List.mem_singleton.1 hb] at h
    exact absurd h (by decide)
  | succ k ih =>
    obtain ⟨y, c, hy, hc, rfl⟩ := mem_allBipolar_succ.1 ha
    obtain ⟨z, d, hz, hd, rfl⟩ := mem_allBipolar_succ.1 hb
    have hcpos := composeAxis_add_pos hc
    have hdpos := composeAxis_add_pos hd
    rw [composeAxis_cons, composeAxis_cons, length_of_mem_allBipolar hc, length_of_mem_allBipolar hd] at h
    rcases hy with rfl | rfl
    · rcases hz with rfl | rfl
      · exact differOnce_cons _ (differOnce_symm (ih hd hc (by omega)))
      · rw [composeAxis_injective hc hd (by omega)]
        exact differOnce_head (by decide) d
    · rcases hz with rfl | rfl
      · omega
      · exact differOnce_cons _ (ih hc hd (by omega))

/-- Settles O54: bounds, existence, uniqueness and neighbours, each by induction on the depth. -/
theorem constellationIsGrayCoded : Obligations.ConstellationIsGrayCoded := by
  intro k hk
  obtain ⟨k, rfl⟩ := Nat.exists_eq_add_of_le' hk
  exact ⟨fun a ha => isLevel_succ.1 (composeAxis_isLevel ha),
    fun m hodd hlt => exists_composeAxis_eq (isLevel_succ.2 ⟨hodd, hlt⟩),
    fun a ha b hb => composeAxis_injective ha hb, fun a ha b hb => differOnce_of_consecutive ha hb⟩

end Sys2Proof.Machine
end

section
/-! SUPPORT. Faults and their record (spec/60_exceptions.md R160 to R165): every command ends in a next state, a CMD
write does the same whatever STATUS and FAULTCMD hold, and what one step can make of STATUS and FAULTCMD, said once. -/

namespace Sys2Proof.Machine

/-! ### Commands -/

/-- Every command is an effect or a fault, brought to its end by `complete` (R12). -/
theorem exists_exec_eq_complete (i : Instr) (s : State) : ∃ r, exec i s = complete i s r := by
  cases i with
  | cfg order fmt => exact ⟨cfgEffect order fmt s, rfl⟩
  | bits => exact ⟨bitsEffect s, rfl⟩
  | hard base stride => exact ⟨hardEffect base stride s, rfl⟩
  | soft base stride => exact ⟨softEffect base stride s, rfl⟩
  | map base stride => exact ⟨mapEffect base stride s, rfl⟩

/-- Settles O8: `complete` answers a next state for an effect and for a fault. -/
theorem everyCommandCompletes : Obligations.EveryCommandCompletes := by
  intro i s
  obtain ⟨r, hr⟩ := exists_exec_eq_complete i s
  obtain ⟨t, ht, -⟩ := complete_next i s r
  exact ⟨t, hr.trans ht⟩

/-- A command leaves STATUS and FAULTCMD as they were, or only records its fault. -/
theorem exec_status_cases {i : Instr} {s t : State} (h : exec i s = .next t) :
    SameStatus s t ∨ ∃ c, t = s.recordFault (encode i) c := by
  cases exec_cases h with
  | faulted c => exact .inr ⟨c, rfl⟩
  | configured | reported | sliced | mapped => exact .inl ⟨rfl, rfl, rfl, rfl, rfl⟩

/-- A CMD write records the same fault, or has the same effect, whatever STATUS and FAULTCMD hold (R160, R162). -/
theorem step_ignores_record {s : State} {rest : List HostEvent} {v : Word} (h : Delivers s (hostWrite s 0 v) rest)
    (f m : Bool) (e : Byte) (w : Word) :
    (∃ c, step s = .next ((s.takeEvent rest).recordFault v c) ∧
      step (withRecord s f m e w) = .next ((withRecord (s.takeEvent rest) f m e w).recordFault v c)) ∨
    ∃ t, step s = .next t ∧ SameStatus s t ∧ step (withRecord s f m e w) = .next (withRecord t f m e w) := by
  obtain ⟨hr, hp⟩ := h
  have hl := bytesOfWord_length v
  have hbytes : decodeBytes (bytesOfWord v) = decodeWord v := by
    rw [decodeBytes_eight hl, wordOfBytes_bytesOfWord]
  cases hd : decodeWord v with
  | error err =>
    have hs := step_of_illegal hr hp hl (hbytes.trans hd)
    have hu := step_of_illegal (s := withRecord s f m e w) hr hp hl (hbytes.trans hd)
    rw [wordOfBytes_bytesOfWord] at hs hu
    exact .inl ⟨.illegalCmd, hs, hu⟩
  | ok i =>
    obtain ⟨-, rfl⟩ := encode_of_decodeWord hd
    rw [step_of_command hr hp hl (hbytes.trans hd),
      step_of_command (s := withRecord s f m e w) hr hp hl (hbytes.trans hd)]
    exact exec_ignores_record i (s.takeEvent rest) f m e w

/-- Settles O26: the two outcomes of `step_ignores_record` with the record clear, and the first and the later fault. -/
theorem faultsArePreciseAndRecorded : Obligations.FaultsArePreciseAndRecorded := by
  intro s t rest v h ht
  obtain ⟨c, hs, hu⟩ | ⟨t', hs, hsame, hu⟩ := step_ignores_record h false false 0 0
  · obtain rfl := Host.Outcome.next.inj (ht.symm.trans hs)
    rw [recordFault_first rfl] at hu
    exact ⟨_, hu, nofun, fun _ => ⟨c, rfl, fun hf => recordFault_first (s := s.takeEvent rest) hf v c,
      fun hf => recordFault_later (s := s.takeEvent rest) hf v c⟩⟩
  · obtain rfl := Host.Outcome.next.inj (ht.symm.trans hs)
    refine ⟨_, hu, fun _ => ⟨hsame, ?_⟩, nofun⟩
    obtain ⟨hfault, hmulti, -, herrcode, hfaultcmd⟩ := hsame
    rw [← hfault, ← hmulti, ← herrcode, ← hfaultcmd]

/-! ### STATUS writes -/

/-- Bit 0 clears FAULT, ERRCODE and FAULTCMD (R163). -/
theorem clearStatus_clears_fault {v : Word} (h : v.getLsbD 0 = true) (s : State) :
    (s.clearStatus v).fault = false ∧ (s.clearStatus v).errcode = 0 ∧ (s.clearStatus v).faultcmd = 0 := by
  simp only [State.clearStatus, h, Bool.not_true, Bool.and_false, if_true, and_self]

/-- Without bit 0 a STATUS write keeps FAULT, ERRCODE and FAULTCMD (R163). -/
theorem clearStatus_keeps_fault {v : Word} (h : v.getLsbD 0 = false) (s : State) :
    (s.clearStatus v).fault = s.fault ∧ (s.clearStatus v).errcode = s.errcode ∧
      (s.clearStatus v).faultcmd = s.faultcmd := by
  simp only [State.clearStatus, h, Bool.not_false, Bool.and_true, Bool.false_eq_true, if_false, and_self]

/-- A flag and the negation of the bit that clears it, as R163 writes the choice. -/
theorem and_not_eq_ite (flag bit : Bool) : (flag && !bit) = if bit then false else flag := by
  cases bit <;> simp

/-- Settles O30: the step of a STATUS write is `clearStatus`. -/
theorem statusWriteClears : Obligations.StatusWriteClears := by
  intro s rest v h
  refine ⟨(s.takeEvent rest).clearStatus v, step_of_register_write .status nofun h, ?_, rfl,
    fun hv => clearStatus_clears_fault hv _, fun hv => clearStatus_keeps_fault hv _, and_not_eq_ite _ _,
    and_not_eq_ite _ _⟩
  exact ⟨⟨rfl, rfl, rfl, rfl, rfl⟩, ⟨rfl, rfl, rfl⟩, rfl, readByte_congr rfl rfl, ⟨rfl, rfl, rfl, rfl, rfl⟩⟩

/-- A write that is no command keeps the fault record, or is a STATUS write. -/
theorem WriteResult.status_cases {s t : State} {off : Nat} {data : List Byte} (h : WriteResult s off data t) :
    SameRecord s t ∨ data.length = 8 ∧ off = 8 ∧ t = s.clearStatus (wordOfBytes data) := by
  cases h with
  | status hl ho => exact .inr ⟨hl, ho, rfl⟩
  | symRe | symIm | prec | cell | refused => exact .inl (.refl s)

/-! ### Steps -/

/-- What a step makes of STATUS and FAULTCMD: it keeps the fault record (and may set BUSERR), records one fault,
clears what a STATUS write selects, or resets them. -/
inductive StatusResult (s t : State) : Prop where
  | kept (h : SameRecord s t)
  | faulted (v : Word) (c : FaultCode) (h : SameStatus (s.recordFault v c) t)
  | cleared (data : List Byte) (rest : List HostEvent) (hp : s.port = .write (s.config.base + 8) data :: rest)
      (hl : data.length = 8) (h : SameStatus (s.clearStatus (wordOfBytes data)) t)
  | reset (rest : List HostEvent) (hp : s.port = .assertReset :: rest) (h : SameStatus s.resetUnit t)

/-- Recording a fault and taking an event off the port commute. -/
theorem recordFault_takeEvent (s : State) (rest : List HostEvent) (v : Word) (c : FaultCode) :
    (s.takeEvent rest).recordFault v c = (s.recordFault v c).takeEvent rest := by
  cases hf : s.fault with
  | false => rw [recordFault_first (s := s.takeEvent rest) hf, recordFault_first hf]; rfl
  | true => rw [recordFault_later (s := s.takeEvent rest) hf, recordFault_later hf]; rfl

theorem step_status_cases {s t : State} (h : step s = .next t) : StatusResult s t := by
  cases step_cases h with
  | idle | released | elsewhereRead | elsewhereWrite => exact .kept ⟨rfl, rfl, rfl, rfl⟩
  | asserted rest hp => exact .reset rest hp ⟨rfl, rfl, rfl, rfl, rfl⟩
  | read => exact .kept (busRead_cases _ _ _).keeps_record
  | write addr data rest hp hr hw hc =>
    obtain hsame | ⟨hl, ho, hclear⟩ := (busWrite_cases (s := s.takeEvent rest) hc).status_cases
    · exact .kept hsame
    · have haddr : addr = s.config.base + 8 := by omega
      rw [hclear]
      exact .cleared data rest (haddr ▸ hp) hl ⟨rfl, rfl, rfl, rfl, rfl⟩
  | command data rest hp hr hl i hi _ ht =>
    obtain ⟨hfault, hmulti, -, herrcode, hfaultcmd⟩ | ⟨c, rfl⟩ := exec_status_cases ht
    · exact .kept ⟨hfault, hmulti, herrcode, hfaultcmd⟩
    · rw [recordFault_takeEvent]
      exact .faulted _ c ⟨rfl, rfl, rfl, rfl, rfl⟩
  | illegal data rest =>
    rw [recordFault_takeEvent]
    exact .faulted _ _ ⟨rfl, rfl, rfl, rfl, rfl⟩

/-- Settles O27: of the cases of `StatusResult`, a fault is a later one here, a STATUS write leaves bit 0's fields, and
reset is excluded. -/
theorem firstFaultIsKept : Obligations.FirstFaultIsKept := by
  intro s t e rest hfault hp ht hreset hbit
  cases step_status_cases ht with
  | kept h =>
    obtain ⟨hf, -, he, hw⟩ := h
    exact ⟨hf.trans hfault, he, hw⟩
  | faulted v c h =>
    obtain ⟨hf, -, -, he, hw⟩ := h
    simp [hf, he, hw, hfault]
  | cleared data rest' hp' hl h =>
    obtain ⟨rfl, -⟩ := List.cons.inj (hp.symm.trans hp')
    obtain ⟨hf, he, hw⟩ := clearStatus_keeps_fault (hbit data rfl hl) s
    obtain ⟨hf', -, -, he', hw'⟩ := h
    exact ⟨hf'.trans (hf.trans hfault), he'.trans he, hw'.trans hw⟩
  | reset rest' hp' h => exact absurd (List.cons.inj (hp.symm.trans hp')).1 hreset

/-- Settles O29: a step that records a fault keeps BUSERR and newly sets at most one of FAULT and MULTI; in the other
cases of `StatusResult` neither of the two is newly set. -/
theorem noFaultAndBusErrorTogether : Obligations.NoFaultAndBusErrorTogether := by
  intro s t ht
  cases step_status_cases ht with
  | kept h =>
    obtain ⟨hf, hm, -, -⟩ := h
    simp [hf, hm]
  | faulted v c h =>
    obtain ⟨hf, hm, hb, -, -⟩ := h
    simp +contextual [hf, hm, hb]
  | cleared data rest hp hl h =>
    obtain ⟨hf, hm, -, -, -⟩ := h
    simp +contextual [hf, hm]
  | reset rest hp h =>
    obtain ⟨hf, hm, -, -, -⟩ := h
    simp [hf, hm]

end Sys2Proof.Machine
end

section
/-! SUPPORT. Reset as a level with two edges (spec/70_reset_and_hazards.md R180, R181; log 7): a host access while it is
asserted is the machine's one stop, an edge is always a step, and only the asserting edge makes a unit unconfigured. -/

namespace Sys2Proof.Machine

/-! ### Edges -/

theorem step_of_assertReset {s : State} {rest : List HostEvent} (hp : s.port = .assertReset :: rest) :
    step s = .next (s.takeEvent rest).resetUnit := by
  simp only [step, nextDelivery, hp, deliver]

theorem step_of_releaseReset {s : State} {rest : List HostEvent} (hp : s.port = .releaseReset :: rest) :
    step s = .next { s.takeEvent rest with resetAsserted := false } := by
  simp only [step, nextDelivery, hp, deliver]

/-! ### The one stop -/

/-- The port delivers a host access while reset is asserted. -/
abbrev AccessDuringReset (s : State) : Prop :=
  s.resetAsserted = true ∧ ∃ e rest, s.port = e :: rest ∧ e.isAccess = true

theorem step_of_accessDuringReset {s : State} (h : AccessDuringReset s) : step s = .fault .accessDuringReset := by
  obtain ⟨hr, e, rest, hp, he⟩ := h
  cases e with
  | read | write => simp only [step, nextDelivery, hp, deliver, State.takeEvent_resetAsserted, hr, if_true]
  | assertReset | releaseReset => cases he

/-- An access outside the window only goes off the port (log 6). -/
theorem step_of_outside_window {s : State} {e : HostEvent} {rest : List HostEvent} {addr : Nat}
    (h : Delivers s e rest) (hw : ¬ inWindow s addr = true)
    (he : (∃ width, e = .read addr width) ∨ ∃ data, e = .write addr data) : step s = .next (taken s rest) := by
  rw [inWindow_iff] at hw
  exact nothingAddressedChangesNothing.2 s e rest h ⟨addr, by omega, he⟩

/-- Eight bytes written to CMD are a command, which completes, or an illegal word, whose fault is recorded. -/
theorem exists_step_next_of_command_write {s : State} {rest : List HostEvent} {data : List Byte}
    (h : Delivers s (.write s.config.base data) rest) (hl : data.length = 8) : ∃ t, step s = .next t := by
  obtain ⟨hr, hp⟩ := h
  cases hd : decodeBytes data with
  | ok i =>
    obtain ⟨t, ht⟩ := everyCommandCompletes i (s.takeEvent rest)
    exact ⟨t, (step_of_command hr hp hl hd).trans ht⟩
  | error e => exact ⟨_, step_of_illegal hr hp hl hd⟩

theorem exists_step_next_of_write {s : State} {rest : List HostEvent} {addr : Nat} {data : List Byte}
    (h : Delivers s (.write addr data) rest) (hw : inWindow s addr = true) : ∃ t, step s = .next t := by
  by_cases hc : admitted? s.config.cells (addr - s.config.base) data.length = some (.reg .cmd)
  · obtain ⟨hl, ho⟩ := admitted?_reg.1 hc
    have haddr : addr = s.config.base := Nat.le_antisymm (Nat.sub_eq_zero_iff_le.1 ho) (inWindow_iff.1 hw).1
    exact exists_step_next_of_command_write (haddr ▸ h) hl
  · exact ⟨_, step_of_write h hw hc⟩

/-- Every other step ends in a next state. -/
theorem exists_step_next {s : State} (h : ¬ AccessDuringReset s) : ∃ t, step s = .next t := by
  cases hp : s.port with
  | nil => exact ⟨s, step_of_empty_port hp⟩
  | cons e rest =>
    have hreleased (he : e.isAccess = true) : Delivers s e rest :=
      ⟨Bool.eq_false_iff.2 fun hr => h ⟨hr, e, rest, hp, he⟩, hp⟩
    cases e with
    | assertReset => exact ⟨_, step_of_assertReset hp⟩
    | releaseReset => exact ⟨_, step_of_releaseReset hp⟩
    | read addr width =>
      by_cases hw : inWindow s addr = true
      · exact ⟨_, step_of_read (hreleased rfl) hw⟩
      · exact ⟨_, step_of_outside_window (hreleased rfl) hw (.inl ⟨width, rfl⟩)⟩
    | write addr data =>
      by_cases hw : inWindow s addr = true
      · exact exists_step_next_of_write (hreleased rfl) hw
      · exact ⟨_, step_of_outside_window (hreleased rfl) hw (.inr ⟨data, rfl⟩)⟩

/-- Settles O9: the two cases are `step_of_accessDuringReset` and `exists_step_next`. -/
theorem stepStopsOnlyDuringReset : Obligations.StepStopsOnlyDuringReset := by
  intro s
  by_cases h : AccessDuringReset s
  · rw [step_of_accessDuringReset h]
    exact ⟨⟨fun _ => h, fun _ => ⟨_, rfl⟩⟩, nofun⟩
  · obtain ⟨t, ht⟩ := exists_step_next h
    rw [ht]
    exact ⟨⟨nofun, fun hr => absurd hr h⟩, nofun⟩

/-! ### Reset values -/

/-- Asserting reset puts in each register what it holds in `State.reset` (R39, R180). -/
theorem readReg_resetUnit (s : State) (r : Reg) : s.resetUnit.readReg r = 0 := by
  have hreset : s.resetUnit.readReg r = State.reset.readReg r := by cases r <;> rfl
  exact hreset.trans (resetValues.1 r)

/-! ### The way back to the unconfigured state -/

theorem exec_keeps_configured {i : Instr} {s t : State} (h : exec i s = .next t) (hs : s.cfg ≠ none) :
    t.cfg ≠ none := by
  cases exec_cases h with
  | faulted c => rwa [State.recordFault_cfg]
  | configured st => exact Option.some_ne_none st
  | reported | sliced | mapped => exact hs

theorem ReadResult.cfg_eq {s t : State} {off width : Nat} (h : ReadResult s off width t) : t.cfg = s.cfg := by
  cases h with
  | admitted | refused => rfl

theorem WriteResult.cfg_eq {s t : State} {off : Nat} {data : List Byte} (h : WriteResult s off data t) :
    t.cfg = s.cfg := by
  cases h with
  | status | symRe | symIm | prec | cell | refused => rfl

/-- A step asserts reset or keeps a configured unit configured (R90, R180). -/
theorem step_keeps_configured {s t : State} (h : step s = .next t) (hs : s.cfg ≠ none) :
    t.cfg ≠ none ∨ ∃ rest, s.port = .assertReset :: rest := by
  cases step_cases h with
  | asserted rest hp => exact .inr ⟨rest, hp⟩
  | idle | released | elsewhereRead | elsewhereWrite => exact .inl hs
  | read => exact .inl (by rwa [(busRead_cases _ _ _).cfg_eq])
  | write addr data rest hp hr hw hc => exact .inl (by rwa [(busWrite_cases (s := s.takeEvent rest) hc).cfg_eq])
  | command data rest hp hr hl i hi _ ht => exact .inl (exec_keeps_configured ht hs)
  | illegal => exact .inl (by rwa [State.recordFault_cfg])

/-- Settles O13: the asserting edge is `resetUnit`, after which no byte is listed and every cell reads its draw;
`step_keeps_configured` is the second clause. -/
theorem assertedResetRestoresResetValues : Obligations.AssertedResetRestoresResetValues := by
  refine ⟨fun s rest hp => ?_, fun s t hs ht hcfg => ?_, fun s rest => step_of_releaseReset⟩
  · exact ⟨_, step_of_assertReset hp, readReg_resetUnit _, readCell_of_mem_nil rfl, rfl, rfl, rfl, rfl⟩
  · exact (step_keeps_configured ht hs).resolve_left (not_not.2 hcfg)

end Sys2Proof.Machine
end
